-- ==== Sys2Proof/Word.lean ====
section
/-! DEFINITION. The word types of the block (00_scope.md R2, §4). -/

namespace Sys2Proof

/-- A register value, an address, a length, a bit count, a weight (REG_W = ADDR_W = WEIGHT_W = 32). -/
abbrev Word := BitVec 32

/-- A byte of MEM, which is also a symbol (SYM_W = 8, R3: the two domains are one). -/
abbrev Byte := BitVec 8

/-- A node index (9 bits, 10_state.md R55). -/
abbrev NodeIdx := BitVec 9

/-- `Bits` of 00_scope.md §4: a finite sequence of bits, the first bit first. -/
abbrev Bits := List Bool

/-- `Text` of 00_scope.md §4: a finite sequence of bytes. -/
abbrev Text := List Byte

end Sys2Proof
end

