-- ==== Sys2Proof/Syntax.lean ====
section
/-! DEFINITION. The nine commands of the opcode table (30_encoding.md R103). A command word holds no operands
(R102), so no constructor has an argument. -/

namespace Sys2Proof

/-- One constructor for each row of spec/opcode_table.json. -/
inductive Instr where
  /-- NOP (40_control.md R136). -/
  | nop
  /-- CLEAR (40_control.md R137). -/
  | clear
  /-- COUNT (41_tree_builder.md R150). -/
  | count
  /-- BUILD (41_tree_builder.md R151). -/
  | build
  /-- DERIVE (42_code_table.md R180). -/
  | derive
  /-- ENCODE (43_codec.md R200). -/
  | encode
  /-- DECODE (43_codec.md R210). -/
  | decode
  /-- SERIALIZE (44_persistence.md R240). -/
  | serialize
  /-- PARSE (44_persistence.md R250). -/
  | parse
  deriving DecidableEq, Repr

end Sys2Proof
end

