-- ==== Sys2Proof/WellFormed.lean ====
section
/-! DEFINITION. When a command word and an instruction are well formed. An instruction has no fields (30_encoding.md
R102), so the checks are on the words. Nothing the step computes uses this file: the machine reads a word with
`decode`, and claims compare the two. -/

namespace Sys2Proof

/-- RSV, bits 31:8 of a command word, is 0 (30_encoding.md R100). -/
def reservedClear (v : Word) : Bool := v.extractLsb' 8 24 == 0

/-- OP, bits 7:0 of a command word, is one of the nine opcodes of 30_encoding.md R104's list. -/
def opcodeKnown (v : Word) : Bool :=
  let op : BitVec 8 := v.extractLsb' 0 8
  [0x00, 0x01, 0x10, 0x11, 0x12, 0x20, 0x21, 0x30, 0x31].contains op

/-- A command word that is not illegal (30_encoding.md R104). -/
def legalWord (v : Word) : Bool := reservedClear v && opcodeKnown v

/-- Every instruction is well formed: there is no operand to check (30_encoding.md R102). -/
def Instr.wellFormed : Instr → Bool
  | .nop => true
  | .clear => true
  | .count => true
  | .build => true
  | .derive => true
  | .encode => true
  | .decode => true
  | .serialize => true
  | .parse => true

end Sys2Proof
end

