-- ==== Sys2Proof/Decode.lean ====
section
/-! DEFINITION. Decoding a command word, total (30_encoding.md R101), and the encoder (R103). -/

namespace Sys2Proof

/-- Why a command word is illegal (30_encoding.md R104). Both reasons complete as ILLEGAL_COMMAND. -/
inductive Illegal where
  /-- Bits 31:8 are not 0. -/
  | reservedField
  /-- Bits 31:8 are 0 and OP is not in the map. -/
  | unknownOpcode
  deriving DecidableEq, Repr

/-- The row of the opcode map whose OP is `op` (30_encoding.md R103). -/
def instrOfOpcode (op : BitVec 8) : Option Instr :=
  if op = 0x00 then some .nop
  else if op = 0x01 then some .clear
  else if op = 0x10 then some .count
  else if op = 0x11 then some .build
  else if op = 0x12 then some .derive
  else if op = 0x20 then some .encode
  else if op = 0x21 then some .decode
  else if op = 0x30 then some .serialize
  else if op = 0x31 then some .parse
  else none

/-- Decode of 30_encoding.md R101: it reads nothing but the word. -/
def decode (v : Word) : Except Illegal Instr :=
  if v.extractLsb' 8 24 = 0 then
    match instrOfOpcode (v.extractLsb' 0 8) with
    | some i => .ok i
    | none => .error .unknownOpcode
  else .error .reservedField

/-- OP of each command (30_encoding.md R103). -/
def opcodeOf : Instr → BitVec 8
  | .nop => 0x00
  | .clear => 0x01
  | .count => 0x10
  | .build => 0x11
  | .derive => 0x12
  | .encode => 0x20
  | .decode => 0x21
  | .serialize => 0x30
  | .parse => 0x31

/-- The command word of an instruction: RSV = 0 and its OP (30_encoding.md R100, R103). -/
def encode (i : Instr) : Word := (0 : BitVec 24) ++ opcodeOf i

/-- The decoder on a word whose bits are numbered as spec/opcode_table.json numbers them. A command word is moved
whole (30_encoding.md R105), so its bits are the table's bits; those above `nbits` are 0. -/
def decodeTableWord (nbits w : Nat) : Option Instr :=
  match decode (BitVec.ofNat 32 (w % 2 ^ nbits)) with
  | .ok i => some i
  | .error _ => none

/-! The command-word column of 30_encoding.md R103, one word for each constructor. -/

theorem decode_nop_word : decode 0x00000000 = .ok .nop := by decide
theorem decode_clear_word : decode 0x00000001 = .ok .clear := by decide
theorem decode_count_word : decode 0x00000010 = .ok .count := by decide
theorem decode_build_word : decode 0x00000011 = .ok .build := by decide
theorem decode_derive_word : decode 0x00000012 = .ok .derive := by decide
theorem decode_encode_word : decode 0x00000020 = .ok .encode := by decide
theorem decode_decode_word : decode 0x00000021 = .ok .decode := by decide
theorem decode_serialize_word : decode 0x00000030 = .ok .serialize := by decide
theorem decode_parse_word : decode 0x00000031 = .ok .parse := by decide

end Sys2Proof
end

