-- ==== Sys2Proof/Config.lean ====
section
/-! DEFINITION. What the machine is fixed to (00_scope.md R2), the one open parameter (R4), and the free values:
constants without a body, so that nothing can be proved of the value of one. -/

namespace Sys2Proof

/-- N_SYM of R2. -/
def Config.nSym : Nat := 256

/-- MAX_NODES of R2. -/
def Config.maxNodes : Nat := 511

/-- MAX_CODE_LEN of R2. -/
def Config.maxCodeLen : Nat := 255

/-- The value of the ID register, "HTB1" in ASCII (10_state.md R21). -/
def Config.idValue : Word := 0x48544231

/-- The size in bytes of the register space REG (10_state.md R20). -/
def Config.regSpace : Nat := 0x4000

/-- MEM_SIZE - 1 of the machine at hand. MEM_SIZE is left open by R4 (1 <= MEM_SIZE <= 2^32).
DESIGN CHOICE (log 1), safe: no proof can see it. -/
opaque Config.memSizePred : BitVec 32

/-- MEM_SIZE at power-on: every value R4 admits, and no other, is `memSizePred + 1` for some `memSizePred`. -/
def Config.memSize : Nat := Config.memSizePred.toNat + 1

/-- The free 32-bit value of the n-th draw: a host read of a result register while BUSY = 1 (10_state.md R40,
U4). Safe (log 19). -/
opaque Config.freeWord : Nat → Word

/-- The free byte of the n-th draw at an address: the destination window after a data-phase error (40_control.md
R134, U3) or after a reset while busy (70_reset_and_hazards.md R311, U12). Safe (log 18, log 10). -/
opaque Config.freeByte : Nat → Nat → Byte

/-- The free finite delay of the n-th draw: how many host steps come between an accepted CMD write and the engine
step (00_scope.md R5, U14). Safe (log 4). -/
opaque Config.freeDelay : Nat → Nat

end Sys2Proof
end

