-- ==== Sys2Proof/Machine/State.lean ====
section
/-! DEFINITION. The state of the block, of its memory and of the host that drives it (10_state.md, 20_memory.md). -/

namespace Sys2Proof.Machine

/-- The result codes of 60_exceptions.md R280. Codes 9 to 15 are never produced, so there is nothing for them here. -/
inductive Err where
  /-- 0, every successful commit. -/
  | ok
  /-- 1, R281. -/
  | invalidInput
  /-- 2, R282. -/
  | unknownSymbol
  /-- 3, R283. -/
  | malformedArtifact
  /-- 4, R284. -/
  | truncatedStream
  /-- 5, R285. -/
  | capacityExceeded
  /-- 6, R286. -/
  | notReady
  /-- 7, R287. -/
  | illegalCommand
  /-- 8, R288. -/
  | addressFault
  deriving DecidableEq, Repr

/-- One slot of the node arena (10_state.md R55). -/
inductive Node where
  /-- An unoccupied slot. -/
  | empty
  /-- A leaf: its symbol and its weight. -/
  | leaf (sym : Byte) (w : Word)
  /-- An internal node: its left and right child and its weight. -/
  | internal (l r : NodeIdx) (w : Word)
  deriving DecidableEq, Repr

/-- The node arena and the three registers BUILD leaves beside it (10_state.md R35 to R37, R55). -/
structure Tree where
  /-- NODE[0..510]. -/
  node : Vector Node 511
  /-- NODE_COUNT. -/
  count : NodeIdx
  /-- ROOT_IDX. -/
  root : NodeIdx
  /-- ROOT_WEIGHT. -/
  weight : Word
  deriving DecidableEq, Repr

/-- The code table (10_state.md R60, R61). -/
structure CodeTable where
  /-- CODE_LEN[0..255]. -/
  len : Vector (BitVec 8) 256
  /-- CODE_VEC[0..255]: bit i is code bit i, and word k is bits 32k+31 to 32k. -/
  vec : Vector (BitVec 256) 256
  deriving DecidableEq, Repr

/-- MEM as the list of the bytes that differ from what an unlisted address reads as, addresses rising. -/
abbrev Memory := List Host.Cell

/-- What the offsets 0x2000 to 0x2FFC answer as. 10_state.md gives them twice: R20 and R56 to NODE[0..510] and two
reserved words, R20 and R61 to CODE_VEC[128..255], and 90_conflicts.md has no ruling. DEDUCED (log 9). -/
inductive HighMap where
  /-- NODE[0..510] and the reserved words 0x2FF8 and 0x2FFC (10_state.md R56, R38). -/
  | node
  /-- CODE_VEC[128..255] (10_state.md R61). -/
  | codeVec
  deriving DecidableEq, Repr

/-- The registers of the map by name (10_state.md R20, 30_encoding.md R107). -/
inductive Reg where
  | id | ctrl | status | err | cmd | srcAddr | srcLen | dstAddr | dstCap | bitLen | outLen
  | freqN | tableN | maxLen | nodeCount | rootIdx | rootWeight
  /-- FREQ[s]. -/
  | freq (s : Byte)
  /-- CODE_LEN[s]. -/
  | codeLen (s : Byte)
  /-- CODE_VEC[s] word k. -/
  | codeVec (s : Byte) (k : BitVec 3)
  /-- NODE[k] word 0. -/
  | nodeWord0 (k : NodeIdx)
  /-- NODE[k] word 1. -/
  | nodeWord1 (k : NodeIdx)
  /-- An aligned offset the map does not name (10_state.md R38). -/
  | reserved
  deriving DecidableEq, Repr

/-- One step of the host (00_scope.md R7 (a), 30_encoding.md R107), or the reset signal. -/
inductive HostStep where
  /-- A read of REG at a byte offset with an access size in bytes. -/
  | rd (off size : Nat)
  /-- `rd <REG>` of 30_encoding.md R107: a read of REG by a register's name, whose effect is that register's rule. It
  says which row of the map it means where R20 gives an offset twice. DEDUCED (log 21), unsafe there. -/
  | rdReg (r : Reg)
  /-- A write of REG at a byte offset with an access size in bytes. -/
  | wr (off size : Nat) (v : Word)
  /-- A read of one byte of MEM. -/
  | memRd (addr : Nat)
  /-- A write of one byte of MEM. -/
  | memWr (addr : Nat) (v : Byte)
  /-- `wait` of 30_encoding.md R108: rd STATUS until the value read has bit 0 = 0. DESIGN CHOICE (log 20), safe. -/
  | wait
  /-- The reset signal (70_reset_and_hazards.md R310, R311). -/
  | reset
  deriving DecidableEq, Repr

/-- What a host read returned (30_encoding.md R107: "the value is recorded"). -/
inductive Observation where
  /-- The value of a register read, with its offset. -/
  | reg (off : Nat) (v : Word)
  /-- The value of a MEM read, with its address. -/
  | byte (addr : Nat) (v : Byte)
  deriving DecidableEq, Repr

/-- The whole machine. The last five fields are the model's own; everything above them is the spec's. -/
structure State where
  /-- CTRL.LEGACY_TRUNC (10_state.md R22). -/
  legacyTrunc : Bool
  /-- CTRL.IRQ_EN (10_state.md R22). -/
  irqEn : Bool
  /-- STATUS.DONE (10_state.md R23). -/
  done : Bool
  /-- STATUS.OVERRUN (10_state.md R23). -/
  overrun : Bool
  /-- STATUS.TREE_VALID (10_state.md R23). -/
  treeValid : Bool
  /-- STATUS.TABLE_VALID (10_state.md R23). -/
  tableValid : Bool
  /-- ERR.CODE (10_state.md R24). -/
  err : Err
  /-- SRC_ADDR (10_state.md R26). -/
  srcAddr : Word
  /-- SRC_LEN (10_state.md R27). -/
  srcLen : Word
  /-- DST_ADDR (10_state.md R28). -/
  dstAddr : Word
  /-- DST_CAP (10_state.md R29). -/
  dstCap : Word
  /-- BIT_LEN (10_state.md R30). -/
  bitLen : Word
  /-- OUT_LEN (10_state.md R31). -/
  outLen : Word
  /-- FREQ[0..255] (10_state.md R50). -/
  freq : Vector Word 256
  /-- NODE, NODE_COUNT, ROOT_IDX, ROOT_WEIGHT (10_state.md R35 to R37, R55). -/
  tree : Tree
  /-- CODE_LEN, CODE_VEC (10_state.md R60, R61). -/
  table : CodeTable
  /-- The command word accepted at issue. It exists exactly while BUSY = 1 (10_state.md R65), so it is also where
  STATUS.BUSY is held: `State.busy` is `latched.isSome`. DEDUCED (log 3), safe. -/
  latched : Option Word
  /-- MEM (20_memory.md R80). -/
  mem : Memory
  /-- MEM_SIZE (00_scope.md R4): set at launch, changed by nothing. DESIGN CHOICE (log 1), safe. -/
  memSize : Nat
  /-- Which of its two rows the register map follows at 0x2000 to 0x2FFC: set at launch, changed by nothing. Safe over
  all states; at State.reset it is `node`, as vector P5 reads the block. DEDUCED (log 9), unsafe of State.reset alone. -/
  highMap : HighMap
  /-- The host's coming steps, first first. DESIGN CHOICE (log 6), safe. -/
  host : List HostStep
  /-- What the host's reads returned, newest first. DESIGN CHOICE (log 7), safe. -/
  recorded : List Observation
  /-- How many host steps still come before the engine step. DESIGN CHOICE (log 4), safe. -/
  delay : Nat
  /-- How many free values have been drawn. DESIGN CHOICE (log 5), safe. -/
  draws : Nat
  deriving DecidableEq, Repr

/-- Why a step stops with a model fault (00_scope.md R7 (c)). The engine step raises none. -/
inductive Fault where
  /-- HOST_BAD_ACCESS: raised by a host register access that is not an aligned 32-bit access inside REG
  (10_state.md R20). Safe: the model stops. -/
  | hostBadAccess
  /-- HOST_RACE: raised by a host MEM access inside a window of the command in flight (20_memory.md R91). Safe: the
  model stops. -/
  | hostRace
  /-- Raised by a host MEM access at an address >= MEM_SIZE, which does not exist (20_memory.md R80). Safe: the model
  stops. DESIGN CHOICE (log 8). -/
  | hostOutsideMem
  deriving DecidableEq, Repr

/-- Why a step has no meaning. No step of this model is refused: every command has its meaning. -/
inductive Refusal where
  /-- Raised by an arm of exec whose instruction has no meaning yet; no arm does. Safe. -/
  | notModelled (mnemonic : String)
  deriving DecidableEq, Repr

/-- The empty node arena (10_state.md R55, R57). -/
def Tree.cleared : Tree where
  node := Vector.replicate 511 .empty
  count := 0
  root := 0
  weight := 0

/-- The empty code table (10_state.md R60, R61, R62). -/
def CodeTable.cleared : CodeTable where
  len := Vector.replicate 256 0
  vec := Vector.replicate 256 0

/-- The machine after power-on reset (70_reset_and_hazards.md R310). MEM lists nothing (log 2), MEM_SIZE is the open
parameter (log 1), the upper register map is NODE's (log 9), and the model's own fields start empty (log 4 to log 7). -/
def State.reset : State where
  legacyTrunc := false
  irqEn := false
  done := false
  overrun := false
  treeValid := false
  tableValid := false
  err := .ok
  srcAddr := 0
  srcLen := 0
  dstAddr := 0
  dstCap := 0
  bitLen := 0
  outLen := 0
  freq := Vector.replicate 256 0
  tree := .cleared
  table := .cleared
  latched := none
  mem := []
  memSize := Config.memSize
  highMap := .node
  host := []
  recorded := []
  delay := 0
  draws := 0

end Sys2Proof.Machine
end

