-- ==== Sys2Proof/Machine/Ops.lean ====
section
/-! DEFINITION. The named operations over memory and registers: reading and writing MEM, windows and their checks,
free draws, and the one frame every command runs in, with its two commits (40_control.md R132 to R134, R139). -/

namespace Sys2Proof.Machine

/-! ## MEM -/

/-- What an address of MEM that no entry lists reads as. The spec leaves MEM at power-on open (20_memory.md R80);
every launch content is a list over this byte. DESIGN CHOICE (log 2), unsafe of State.reset alone. -/
def unlistedByte : Byte := 0

/-- MemRead(addr, 1) of 20_memory.md R84. -/
def Memory.read : Memory → Nat → Byte
  | [], _ => unlistedByte
  | (b, v) :: rest, a => if b = a then v else Memory.read rest a

/-- MemWrite(addr, 1, v) of 20_memory.md R84, keeping the canonical form. -/
def Memory.write : Memory → Nat → Byte → Memory
  | [], a, v => if v = unlistedByte then [] else [(a, v)]
  | (b, w) :: rest, a, v =>
    if a < b then (if v = unlistedByte then (b, w) :: rest else (a, v) :: (b, w) :: rest)
    else if a = b then (if v = unlistedByte then rest else (a, v) :: rest)
    else (b, w) :: Memory.write rest a v

/-- The bytes at `a`, `a + 1`, ..., one read each. -/
def Memory.readBytes (m : Memory) : Nat → Nat → Text
  | _, 0 => []
  | a, n + 1 => Memory.read m a :: Memory.readBytes m (a + 1) n

/-- The bytes written at `a`, `a + 1`, ..., one write each. -/
def Memory.writeBytes : Memory → Nat → Text → Memory
  | m, _, [] => m
  | m, a, v :: vs => Memory.writeBytes (Memory.write m a v) (a + 1) vs

/-- The canonical form: addresses strictly rising, and no entry equal to what an unlisted address reads as. -/
abbrev Memory.wf (m : Memory) : Prop :=
  m.Pairwise (fun c d => c.1 < d.1) ∧ ∀ c ∈ m, c.2 ≠ unlistedByte

/-! ## Windows (20_memory.md R82, R83) -/

/-- A window (a, len): the bytes [a, a + len), in unbounded integers (20_memory.md R81). -/
structure Window where
  /-- The first address. -/
  addr : Nat
  /-- The length in bytes. -/
  len : Nat
  deriving DecidableEq, Repr

/-- A window is valid when it is empty or ends at or before MEM_SIZE (20_memory.md R82). -/
abbrev Window.Valid (w : Window) (memSize : Nat) : Prop :=
  w.len = 0 ∨ w.addr + w.len ≤ memSize

/-- Two windows overlap when both are non-empty and share an address (20_memory.md R83). -/
abbrev Window.Overlap (s d : Window) : Prop :=
  s.len ≠ 0 ∧ d.len ≠ 0 ∧ max s.addr d.addr < min (s.addr + s.len) (d.addr + d.len)

/-- The address lies inside the window. -/
abbrev Window.Contains (w : Window) (a : Nat) : Prop :=
  w.addr ≤ a ∧ a < w.addr + w.len

/-- A window the command has is not valid. -/
def windowBad (memSize : Nat) : Option Window → Bool
  | none => false
  | some w => !decide (w.Valid memSize)

/-- The command has both windows and they overlap. -/
def windowsOverlap : Option Window → Option Window → Bool
  | some s, some d => decide (s.Overlap d)
  | some _, none => false
  | none, _ => false

/-- CheckWindows of 40_control.md R139: source, then destination, then overlap. -/
def checkWindows (memSize : Nat) (src dst : Option Window) : Option Err :=
  if windowBad memSize src then some .addressFault
  else if windowBad memSize dst then some .addressFault
  else if windowsOverlap src dst then some .addressFault
  else none

/-! ## Issue and the two commits -/

/-- STATUS.BUSY (10_state.md R23): a command word is latched (10_state.md R65). DEDUCED (log 3), safe. -/
def State.busy (s : State) : Bool := s.latched.isSome

/-- Issue of a command word (40_control.md R130), with the number of host steps that come before the engine step
(log 4). -/
def State.issue (s : State) (v : Word) (delay : Nat) : State :=
  { s with latched := some v, done := false, delay := delay }

/-- What both commits do (40_control.md R133, R134): ERR, OUT_LEN, BUSY <- 0, DONE <- 1. -/
def State.commit (s : State) (e : Err) (outLen : Word) : State :=
  { s with latched := none, delay := 0, done := true, err := e, outLen := outLen }

/-- The success commit, `complete()` (40_control.md R133). -/
def State.complete (s : State) (outLen : Word) : State := s.commit .ok outLen

/-- The failure commit of an error raised before the data phase (40_control.md R134): MEM is unchanged. -/
def State.fail (s : State) (e : Err) : State := s.commit e 0

/-- The bytes of a window that exist: those below MEM_SIZE. -/
def Window.clipped (w : Window) (memSize : Nat) : Nat := min w.len (memSize - w.addr)

/-- Every byte of the window takes a free value, one draw of its own each (40_control.md R134, U3, U12; log 18). -/
def State.scramble (s : State) : Option Window → State
  | none => s
  | some w =>
    { s with
      mem := Memory.writeBytes s.mem w.addr
        ((List.range (w.clipped s.memSize)).map fun j => Config.freeByte s.draws (w.addr + j))
      draws := s.draws + 1 }

/-- The failure commit of an error raised in the data phase (40_control.md R134). -/
def State.failData (s : State) (e : Err) (dst : Option Window) : State := (s.scramble dst).fail e

/-- Execute of 40_control.md R132 after decoding: Precheck, CheckWindows, Body, commit. `body` answers the private copy
it would publish (00_scope.md R6) and OUT_LEN, or the error it raises. -/
def runCommand (s : State) (precheck : Option Err) (src dst : Option Window)
    (body : State → Except Err (State × Word)) : Host.Outcome State Fault Refusal :=
  .next <|
    match precheck with
    | some e => s.fail e
    | none =>
      match checkWindows s.memSize src dst with
      | some e => s.fail e
      | none =>
        match body s with
        | .error e => s.failData e dst
        | .ok (t, outLen) => t.complete outLen

end Sys2Proof.Machine
end

