-- ==== Sys2Proof/Machine/Operands.lean ====
section
/-! DEFINITION. Every operand form: the windows of each command (20_memory.md R82), symbols as indices, bit strings and
the packed payload (20_memory.md R86, R87), codes (10_state.md R60, R61), and the register map (10_state.md R20). -/

namespace Sys2Proof.Machine

/-! ## Arrays indexed by a symbol -/

/-- `x[s]` for an array over the 256 symbols (00_scope.md §4). -/
def symGet {α : Type} (x : Vector α 256) (s : Byte) : α := x[s.toNat]'s.isLt

/-- `x[s] <- v` for an array over the 256 symbols (00_scope.md §4). -/
def symSet {α : Type} (x : Vector α 256) (s : Byte) (v : α) : Vector α 256 := x.set s.toNat v s.isLt

/-- The symbols in ascending order (00_scope.md R3). -/
def symbols : List Byte := (List.range 256).map (BitVec.ofNat 8)

/-! ## Bit strings -/

/-- ceil8 of 00_scope.md §4, in unbounded arithmetic. -/
def ceil8 (n : Nat) : Nat := (n + 7) / 8

/-- The number whose bit i is `bits[i]`. -/
def bitsToNat : Bits → Nat
  | [] => 0
  | b :: bs => b.toNat + 2 * bitsToNat bs

/-- The code vector that holds `bits`, bit i at bit i and 0 above (10_state.md R61). -/
def bitsToVec (bits : Bits) : BitVec 256 := BitVec.ofNat 256 (bitsToNat bits)

/-- code(s): the first CODE_LEN[s] bits of CODE_VEC[s] (10_state.md R61). -/
def code (t : CodeTable) (s : Byte) : Bits :=
  (List.range (symGet t.len s).toNat).map fun i => (symGet t.vec s).getLsbD i

/-- The present entries of the code table with their codes, symbols ascending (10_state.md R60). -/
def codeEntries (t : CodeTable) : List (Byte × Bits) :=
  symbols.filterMap fun s => if symGet t.len s = 0 then none else some (s, code t s)

/-- Record of 42_code_table.md R180: one entry of the table. -/
def recordCode (t : CodeTable) (e : Byte × Bits) : CodeTable where
  len := symSet t.len e.1 (BitVec.ofNat 8 e.2.length)
  vec := symSet t.vec e.1 (bitsToVec e.2)

/-- The table that holds these entries and no other (42_code_table.md R180, 44_persistence.md R250). -/
def tableOf (entries : List (Byte × Bits)) : CodeTable := entries.foldl recordCode .cleared

/-! ## The packed payload (20_memory.md R87) -/

/-- PayloadBit(p, i). -/
def payloadBit (m : Memory) (p i : Nat) : Bool := (Memory.read m (p + i / 8)).getLsbD (7 - i % 8)

/-- The payload bits 0 to n - 1 at base p. -/
def payloadBits (m : Memory) (p n : Nat) : Bits := (List.range n).map (payloadBit m p)

/-- PackedByte(bits, j). -/
def packedByte (bits : Bits) (j : Nat) : Byte :=
  BitVec.ofNat 8 ((List.range 8).map fun t => (bits.getD (8 * j + t) false).toNat <<< (7 - t)).sum

/-- The bytes WritePacked writes. -/
def packedBytes (bits : Bits) : Text := (List.range (ceil8 bits.length)).map (packedByte bits)

/-! ## The windows of a command (20_memory.md R82) -/

/-- (SRC_ADDR, SRC_LEN), the source window of COUNT, ENCODE and PARSE. -/
def State.srcBytesWindow (s : State) : Window := ⟨s.srcAddr.toNat, s.srcLen.toNat⟩

/-- (SRC_ADDR, ceil8(BIT_LEN)), the source window of DECODE and SERIALIZE. -/
def State.srcBitsWindow (s : State) : Window := ⟨s.srcAddr.toNat, ceil8 s.bitLen.toNat⟩

/-- (DST_ADDR, DST_CAP), the destination window. -/
def State.dstBytesWindow (s : State) : Window := ⟨s.dstAddr.toNat, s.dstCap.toNat⟩

/-- The source window column of 20_memory.md R82. -/
def srcWindow (s : State) : Instr → Option Window
  | .nop => none
  | .clear => none
  | .count => some s.srcBytesWindow
  | .build => none
  | .derive => none
  | .encode => some s.srcBytesWindow
  | .decode => some s.srcBitsWindow
  | .serialize => some s.srcBitsWindow
  | .parse => some s.srcBytesWindow

/-- The destination window column of 20_memory.md R82. -/
def dstWindow (s : State) : Instr → Option Window
  | .nop => none
  | .clear => none
  | .count => none
  | .build => none
  | .derive => none
  | .encode => some s.dstBytesWindow
  | .decode => some s.dstBytesWindow
  | .serialize => some s.dstBytesWindow
  | .parse => some s.dstBytesWindow

/-- The bytes of the source window of COUNT, ENCODE and PARSE, in order. -/
def State.srcBytes (s : State) : Text := Memory.readBytes s.mem s.srcAddr.toNat s.srcLen.toNat

/-- The payload bits DECODE and SERIALIZE read: BIT_LEN bits at SRC_ADDR. -/
def State.srcBits (s : State) : Bits := payloadBits s.mem s.srcAddr.toNat s.bitLen.toNat

/-- MEM after bytes are written from DST_ADDR on. -/
def State.writeDst (s : State) (bytes : Text) : Memory := Memory.writeBytes s.mem s.dstAddr.toNat bytes

/-! ## The register map (10_state.md R20) -/

/-- A host register access is an aligned 32-bit access inside REG (10_state.md R20). -/
abbrev regAccessOk (off size : Nat) : Prop := size = 4 ∧ off % 4 = 0 ∧ off < Config.regSpace

/-- CODE_VEC[s] word k at the offset 0x1000 + 32*s + 4*k (10_state.md R61). -/
def codeVecAt (off : Nat) : Reg :=
  .codeVec (BitVec.ofNat 8 ((off - 0x1000) / 32)) (BitVec.ofNat 3 ((off - 0x1000) % 32 / 4))

/-- NODE[k] word 0 or 1 at an offset of 0x2000 to 0x2FF4, and the two reserved words after it (10_state.md R20, R56). -/
def nodeAt (off : Nat) : Reg :=
  if 0x2FF8 ≤ off then .reserved
  else if (off - 0x2000) % 8 = 0 then .nodeWord0 (BitVec.ofNat 9 ((off - 0x2000) / 8))
  else .nodeWord1 (BitVec.ofNat 9 ((off - 0x2000) / 8))

/-- The register at an offset of 0x2000 to 0x2FFC, which R20 gives to two registers (log 9). -/
def highRegAt : HighMap → Nat → Reg
  | .node, off => nodeAt off
  | .codeVec, off => codeVecAt off

/-- The register at an aligned offset inside REG (10_state.md R20). -/
def regAt (m : HighMap) (off : Nat) : Reg :=
  if off = 0x000 then .id
  else if off = 0x008 then .ctrl
  else if off = 0x00C then .status
  else if off = 0x010 then .err
  else if off = 0x014 then .cmd
  else if off = 0x018 then .srcAddr
  else if off = 0x01C then .srcLen
  else if off = 0x020 then .dstAddr
  else if off = 0x024 then .dstCap
  else if off = 0x028 then .bitLen
  else if off = 0x02C then .outLen
  else if off = 0x030 then .freqN
  else if off = 0x034 then .tableN
  else if off = 0x038 then .maxLen
  else if off = 0x03C then .nodeCount
  else if off = 0x040 then .rootIdx
  else if off = 0x044 then .rootWeight
  else if 0x400 ≤ off ∧ off < 0x800 then .freq (BitVec.ofNat 8 ((off - 0x400) / 4))
  else if 0x800 ≤ off ∧ off < 0xC00 then .codeLen (BitVec.ofNat 8 ((off - 0x800) / 4))
  else if 0x1000 ≤ off ∧ off < 0x2000 then codeVecAt off
  else if 0x2000 ≤ off ∧ off < 0x3000 then highRegAt m off
  else .reserved

/-- The offset column of 10_state.md R20, as it is written there. The reserved row has many offsets; 0x004 stands for
them. -/
def regOffset : Reg → Nat
  | .id => 0x000
  | .ctrl => 0x008
  | .status => 0x00C
  | .err => 0x010
  | .cmd => 0x014
  | .srcAddr => 0x018
  | .srcLen => 0x01C
  | .dstAddr => 0x020
  | .dstCap => 0x024
  | .bitLen => 0x028
  | .outLen => 0x02C
  | .freqN => 0x030
  | .tableN => 0x034
  | .maxLen => 0x038
  | .nodeCount => 0x03C
  | .rootIdx => 0x040
  | .rootWeight => 0x044
  | .freq s => 0x400 + 4 * s.toNat
  | .codeLen s => 0x800 + 4 * s.toNat
  | .codeVec s k => 0x1000 + 32 * s.toNat + 4 * k.toNat
  | .nodeWord0 k => 0x2000 + 8 * k.toNat
  | .nodeWord1 k => 0x2004 + 8 * k.toNat
  | .reserved => 0x004

/-! ## The node arena -/

/-- NODE[k]; an index past the arena reads Empty. -/
def Tree.at (t : Tree) (k : Nat) : Node := t.node[k]?.getD .empty

/-- W of 41_tree_builder.md R151: the weight field of a node. -/
def Node.weight : Node → Word
  | .empty => 0
  | .leaf _ w => w
  | .internal _ _ w => w

/-- Word 0 of a node (10_state.md R56). -/
def Node.word0 : Node → Word
  | .empty => 0
  | .leaf sym _ => 0x80000000 ||| sym.setWidth 32
  | .internal l r _ => 0x40000000 ||| l.setWidth 32 ||| (r.setWidth 32 <<< 16)

/-- Word 1 of a node (10_state.md R56). -/
def Node.word1 (n : Node) : Word := n.weight

end Sys2Proof.Machine
end

