-- ==== Sys2Proof/Machine/Flags.lean ====
section
/-! DEFINITION. The status, control and derived registers (10_state.md R22 to R24, R32 to R34), the prechecks that read
the valid flags (60_exceptions.md R286), and the interrupt line (R290). -/

namespace Sys2Proof.Machine

/-- The register value of CTRL (10_state.md R22). -/
def ctrlWord (s : State) : Word := BitVec.ofNat 32 (s.legacyTrunc.toNat + 2 * s.irqEn.toNat)

/-- A host write of CTRL: bits 31:2 are ignored (10_state.md R22). -/
def State.setCtrl (s : State) (v : Word) : State :=
  { s with legacyTrunc := v.getLsbD 0, irqEn := v.getLsbD 1 }

/-- The register value of STATUS (10_state.md R23). -/
def statusWord (s : State) : Word :=
  BitVec.ofNat 32 (s.busy.toNat + 2 * s.done.toNat + 4 * s.overrun.toNat + 8 * s.treeValid.toNat
    + 16 * s.tableValid.toNat)

/-- A host write of STATUS: 1 clears DONE and OVERRUN, and nothing else changes (10_state.md R23). -/
def State.ackStatus (s : State) (v : Word) : State :=
  { s with done := s.done && !v.getLsbD 1, overrun := s.overrun && !v.getLsbD 2 }

/-- ERR.CODE (60_exceptions.md R280). -/
def Err.code : Err → BitVec 4
  | .ok => 0
  | .invalidInput => 1
  | .unknownSymbol => 2
  | .malformedArtifact => 3
  | .truncatedStream => 4
  | .capacityExceeded => 5
  | .notReady => 6
  | .illegalCommand => 7
  | .addressFault => 8

/-- FREQ_N: how many symbols have a count (10_state.md R32). -/
def freqN (f : Vector Word 256) : Nat := f.toList.countP (· ≠ 0)

/-- TABLE_N: how many symbols have a code (10_state.md R33). -/
def tableN (t : CodeTable) : Nat := t.len.toList.countP (· ≠ 0)

/-- MAX_LEN: the longest code's length, 0 when there is none (10_state.md R34). -/
def maxLen (t : CodeTable) : Nat := t.len.toList.foldl (fun m l => max m l.toNat) 0

/-- The interrupt line (60_exceptions.md R290). -/
def State.irq (s : State) : Bool := s.irqEn && s.done

/-- Precheck of DERIVE (60_exceptions.md R286). -/
def needTree (s : State) : Option Err := if s.treeValid then none else some .notReady

/-- Precheck of ENCODE, DECODE and SERIALIZE (60_exceptions.md R286). -/
def needTable (s : State) : Option Err := if s.tableValid then none else some .notReady

end Sys2Proof.Machine
end

