-- ==== Sys2Proof/Machine/CodeDeriver.lean ====
section
/-! DEFINITION. DERIVE (42_code_table.md). -/

namespace Sys2Proof.Machine

/-- Walk of 42_code_table.md R180, at most `fuel` levels: the leaves under node k with their paths, left before right.
The arena has MAX_NODES slots and a child's index is below its parent's (10_state.md R57), so MAX_NODES levels reach
every leaf. In a state that breaks R57 an Empty slot records nothing: DESIGN CHOICE (log 12), safe, no run reaches it. -/
def walk (t : Tree) : Nat → Nat → Bits → List (Byte × Bits)
  | 0, _, _ => []
  | fuel + 1, k, path =>
    match t.at k with
    | .empty => []
    | .leaf s _ => [(s, path)]
    | .internal l r _ =>
      walk t fuel l.toNat (path ++ [false]) ++ walk t fuel r.toNat (path ++ [true])

/-- The entries DERIVE records (R180): a leaf root gets the code "0" (R182), any other tree is walked (R181). -/
def derivedEntries (t : Tree) : List (Byte × Bits) :=
  match t.at t.root.toNat with
  | .leaf s _ => [(s, [false])]
  | .internal _ _ _ => walk t Config.maxNodes t.root.toNat []
  | .empty => []

/-- Body(DERIVE) of 42_code_table.md R180. -/
def deriveBody (s : State) : Except Err (State × Word) :=
  .ok ({ s with table := tableOf (derivedEntries s.tree), tableValid := true }, 0)

/-- DERIVE: the code table of the tree (42_code_table.md R180). -/
def execDerive (s : State) : Host.Outcome State Fault Refusal :=
  runCommand s (needTree s) (srcWindow s .derive) (dstWindow s .derive) deriveBody

end Sys2Proof.Machine
end

