-- ==== Sys2Proof/Machine/Codec.lean ====
section
/-! DEFINITION. ENCODE and DECODE (43_codec.md). -/

namespace Sys2Proof.Machine

/-! ## ENCODE (R200 to R202) -/

/-- The loop of Body(ENCODE): the bits so far, then the symbols still to come. -/
def encodeLoop (t : CodeTable) (cap : Nat) : Bits → Text → Except Err Bits
  | bits, [] => .ok bits
  | bits, s :: rest =>
    if symGet t.len s = 0 then .error .unknownSymbol
    else
      let m := bits.length + (symGet t.len s).toNat
      if m > 2 ^ 32 - 1 ∨ ceil8 m > cap then .error .capacityExceeded
      else encodeLoop t cap (bits ++ code t s) rest

/-- Body(ENCODE) of 43_codec.md R200. -/
def encodeBody (s : State) : Except Err (State × Word) :=
  match encodeLoop s.table s.dstCap.toNat [] s.srcBytes with
  | .error e => .error e
  | .ok bits =>
    .ok ({ s with mem := s.writeDst (packedBytes bits), bitLen := BitVec.ofNat 32 bits.length },
      BitVec.ofNat 32 (ceil8 bits.length))

/-- ENCODE: a symbol sequence into a packed payload (43_codec.md R200). -/
def execEncode (s : State) : Host.Outcome State Fault Refusal :=
  runCommand s (needTable s) (srcWindow s .encode) (dstWindow s .encode) encodeBody

/-! ## DECODE (R210 to R213) -/

/-- Match of 43_codec.md R211, over the present entries of the table. In a state whose table is not prefix-free the
lowest symbol is taken: DESIGN CHOICE (log 13), safe, no run reaches it. -/
def matchCode (entries : List (Byte × Bits)) (buf : Bits) : Option Byte :=
  (entries.find? fun e => e.2 == buf).map Prod.fst

/-- The loop of Body(DECODE): the bit buffer and the output so far, then the bits still to come. -/
def decodeLoop (entries : List (Byte × Bits)) (cap : Nat) : Bits → Text → Bits → Except Err (Bits × Text)
  | buf, out, [] => .ok (buf, out)
  | buf, out, b :: rest =>
    match matchCode entries (buf ++ [b]) with
    | none => decodeLoop entries cap (buf ++ [b]) out rest
    | some s =>
      if out.length = cap then .error .capacityExceeded
      else decodeLoop entries cap [] (out ++ [s]) rest

/-- Body(DECODE) of 43_codec.md R210, with the end-of-input rule R212. -/
def decodeBody (s : State) : Except Err (State × Word) :=
  match decodeLoop (codeEntries s.table) s.dstCap.toNat [] [] s.srcBits with
  | .error e => .error e
  | .ok (buf, out) =>
    if buf ≠ [] ∧ s.legacyTrunc = false then .error .truncatedStream
    else .ok ({ s with mem := s.writeDst out }, BitVec.ofNat 32 out.length)

/-- DECODE: a packed payload back into symbols (43_codec.md R210). -/
def execDecode (s : State) : Host.Outcome State Fault Refusal :=
  runCommand s (needTable s) (srcWindow s .decode) (dstWindow s .decode) decodeBody

end Sys2Proof.Machine
end

