-- ==== Sys2Proof/Machine/Control.lean ====
section
/-! DEFINITION. NOP and CLEAR (40_control.md R136, R137). -/

namespace Sys2Proof.Machine

/-- Body(NOP) of 40_control.md R136. -/
def nopBody (s : State) : Except Err (State × Word) := .ok (s, 0)

/-- NOP: do nothing and succeed (40_control.md R136). -/
def execNop (s : State) : Host.Outcome State Fault Refusal :=
  runCommand s none (srcWindow s .nop) (dstWindow s .nop) nopBody

/-- Body(CLEAR) of 40_control.md R137. -/
def clearBody (s : State) : Except Err (State × Word) :=
  .ok ({ s with
    freq := Vector.replicate 256 0
    tree := .cleared
    table := .cleared
    treeValid := false
    tableValid := false }, 0)

/-- CLEAR: discard the frequency table, the tree and the code table (40_control.md R137). -/
def execClear (s : State) : Host.Outcome State Fault Refusal :=
  runCommand s none (srcWindow s .clear) (dstWindow s .clear) clearBody

end Sys2Proof.Machine
end

