-- ==== Sys2Proof/Machine/Persistence.lean ====
section
/-! DEFINITION. SERIALIZE and PARSE (44_persistence.md). -/

namespace Sys2Proof.Machine

/-! ## The artifact's bytes (R241, R242) -/

/-- The byte "\n". -/
def newline : Byte := 0x0A

/-- The byte " ". -/
def space : Byte := 0x20

/-- The byte '0'. -/
def char0 : Byte := 0x30

/-- The byte '1'. -/
def char1 : Byte := 0x31

/-- The sentinel line "===\n" (R241). -/
def sentinel : Text := [0x3D, 0x3D, 0x3D, 0x0A]

/-- The ASCII digit of a number below 10. -/
def digit (n : Nat) : Byte := BitVec.ofNat 8 (0x30 + n)

/-- Dec(s) of R242: 1 to 3 digits, no leading zeros. -/
def dec (s : Byte) : Text :=
  let n := s.toNat
  if n < 10 then [digit n]
  else if n < 100 then [digit (n / 10), digit (n % 10)]
  else [digit (n / 100), digit (n / 10 % 10), digit (n % 10)]

/-- Chars of R240: one character per bit. -/
def chars (bits : Bits) : Text := bits.map fun b => if b then char1 else char0

/-- A table line of R241. -/
def tableLine (e : Byte × Bits) : Text := dec e.1 ++ [space] ++ chars e.2 ++ [newline]

/-- The artifact of a table and a payload (R240, R241, R243). -/
def artifact (t : CodeTable) (payload : Bits) : Text :=
  (codeEntries t).flatMap tableLine ++ sentinel ++ chars payload

/-! ## SERIALIZE (R240) -/

/-- Body(SERIALIZE) of 44_persistence.md R240. -/
def serializeBody (s : State) : Except Err (State × Word) :=
  let T := artifact s.table s.srcBits
  if T.length > s.dstCap.toNat then .error .capacityExceeded
  else .ok ({ s with mem := s.writeDst T }, BitVec.ofNat 32 T.length)

/-- SERIALIZE: the code table and a packed payload as one artifact (44_persistence.md R240). -/
def execSerialize (s : State) : Host.Outcome State Fault Refusal :=
  runCommand s (needTable s) (srcWindow s .serialize) (dstWindow s .serialize) serializeBody

/-! ## PARSE (R250 to R253) -/

/-- The byte is in '0'..'9'. -/
def isDigit (b : Byte) : Bool := decide (0x30 ≤ b) && decide (b ≤ 0x39)

/-- The byte is in {'0', '1'}. -/
def isBitChar (b : Byte) : Bool := b == char0 || b == char1

/-- The decimal value of a run of digits. -/
def decimal (ds : Text) : Nat := ds.foldl (fun n d => 10 * n + (d.toNat - 0x30)) 0

/-- The second half of ParseLine (R252): the code and the end of the line, from the byte after the ordinal. -/
def parseCode (A : Text) : Except Err (Bits × Text) :=
  match A with
  | [] => .error .malformedArtifact
  | c :: rest =>
    if c ≠ space then .error .malformedArtifact
    else
      let cs := rest.takeWhile isBitChar
      if cs = [] then .error .malformedArtifact
      else if cs.length > Config.maxCodeLen then .error .malformedArtifact
      else
        match rest.drop cs.length with
        | [] => .error .malformedArtifact
        | d :: rest' =>
          if d ≠ newline then .error .malformedArtifact
          else .ok (cs.map (· == char1), rest')

/-- ParseLine of R252, on the bytes from its position on: the symbol, its code and the bytes after the line. -/
def parseLine (A : Text) : Except Err (Byte × Bits × Text) :=
  let ds := A.takeWhile isDigit
  if ds = [] then .error .malformedArtifact
  else if ds.length > 3 then .error .malformedArtifact
  else if ds.length > 1 ∧ ds.head? = some char0 then .error .malformedArtifact
  else if decimal ds > 255 then .error .malformedArtifact
  else
    match parseCode (A.drop ds.length) with
    | .error e => .error e
    | .ok (c, rest) => .ok (BitVec.ofNat 8 (decimal ds), c, rest)

/-- A repeated ordinal, or a code that begins another or equals it (R250). -/
def clashes (E : List (Byte × Bits)) (s : Byte) (c : Bits) : Bool :=
  E.any fun e => e.1 == s || e.2.isPrefixOf c || c.isPrefixOf e.2

/-- The table part of Body(PARSE), at most `fuel` lines: the entries and the payload bytes. Every line takes at least
one byte, so a fuel above the artifact's length is never used up. -/
def parseTable : Nat → Text → List (Byte × Bits) → Except Err (List (Byte × Bits) × Text)
  | 0, _, _ => .error .malformedArtifact
  | fuel + 1, A, E =>
    if A.take 4 = sentinel then .ok (E, A.drop 4)
    else
      match parseLine A with
      | .error e => .error e
      | .ok (s, c, rest) =>
        if clashes E s c then .error .malformedArtifact
        else parseTable fuel rest (E ++ [(s, c)])

/-- The payload part of Body(PARSE) (R250, R253): the bits so far, then the characters still to come. -/
def parsePayload (cap : Nat) : Bits → Text → Except Err Bits
  | bits, [] => .ok bits
  | bits, c :: rest =>
    if isBitChar c = false then .error .malformedArtifact
    else if ceil8 (bits.length + 1) > cap then .error .capacityExceeded
    else parsePayload cap (bits ++ [c == char1]) rest

/-- Body(PARSE) of 44_persistence.md R250. -/
def parseBody (s : State) : Except Err (State × Word) :=
  let A := s.srcBytes
  match parseTable (A.length + 1) A [] with
  | .error e => .error e
  | .ok (E, payload) =>
    if E = [] then .error .malformedArtifact
    else
      match parsePayload s.dstCap.toNat [] payload with
      | .error e => .error e
      | .ok bits =>
        .ok ({ s with
          mem := s.writeDst (packedBytes bits)
          table := tableOf E
          tableValid := true
          bitLen := BitVec.ofNat 32 bits.length }, BitVec.ofNat 32 (ceil8 bits.length))

/-- PARSE: an artifact into the code table and a packed payload (44_persistence.md R250). -/
def execParse (s : State) : Host.Outcome State Fault Refusal :=
  runCommand s none (srcWindow s .parse) (dstWindow s .parse) parseBody

end Sys2Proof.Machine
end

