-- ==== Sys2Proof/Machine/TreeBuilder.lean ====
section
/-! DEFINITION. COUNT and BUILD (41_tree_builder.md). -/

namespace Sys2Proof.Machine

/-! ## COUNT (R150) -/

/-- `F[s] <- F[s] + 1` for one symbol of the input. -/
def countSymbol (f : Vector Word 256) (s : Byte) : Vector Word 256 := symSet f s (symGet f s + 1)

/-- The loop of Body(COUNT): one full pass from the empty table. -/
def countSymbols (input : Text) : Vector Word 256 := input.foldl countSymbol (Vector.replicate 256 0)

/-- Body(COUNT) of 41_tree_builder.md R150. -/
def countBody (s : State) : Except Err (State × Word) :=
  .ok ({ s with freq := countSymbols s.srcBytes }, 0)

/-- COUNT: the frequency table of the source window (41_tree_builder.md R150). -/
def execCount (s : State) : Host.Outcome State Fault Refusal :=
  runCommand s none (srcWindow s .count) (dstWindow s .count) countBody

/-! ## BUILD (R151, R155 to R158) -/

/-- W(q) of R151, in the private arena N, whose slot k is the k-th element. -/
def weightAt (N : List Node) (q : Nat) : Word := (N.getD q .empty).weight

/-- The key order of R156: lower weight first, then lower index. -/
def keyLess (N : List Node) (q q' : Nat) : Bool :=
  decide (weightAt N q < weightAt N q') || (weightAt N q == weightAt N q' && decide (q < q'))

/-- MinKey of R156 on the queue `q :: Q`. -/
def minKey (N : List Node) (q : Nat) (Q : List Nat) : Nat :=
  Q.foldl (fun m q' => if keyLess N q' m then q' else m) q

/-- The merge loop of R151 and R157, at most `fuel` rounds: while the queue holds two items or more, the first
extracted and the second extracted become the children of the next node. -/
def mergeLoop : Nat → List Node → List Nat → List Node × List Nat
  | 0, N, Q => (N, Q)
  | _ + 1, N, [] => (N, [])
  | _ + 1, N, [q] => (N, [q])
  | fuel + 1, N, q :: q' :: Q =>
    let a := minKey N q (q' :: Q)
    let rest := (q :: q' :: Q).erase a
    let b := minKey N (rest.headD 0) rest.tail
    let node := Node.internal (BitVec.ofNat 9 a) (BitVec.ofNat 9 b) (weightAt N a + weightAt N b)
    mergeLoop fuel (N ++ [node]) (rest.erase b ++ [N.length])

/-- The symbols of the alphabet, ascending (R155). -/
def alphabet (f : Vector Word 256) : List Byte := symbols.filter fun s => symGet f s ≠ 0

/-- The leaves at indices 0 to n - 1 (R155). -/
def leaves (f : Vector Word 256) : List Node := (alphabet f).map fun s => .leaf s (symGet f s)

/-- The unbounded sum of FREQ (R151). -/
def freqSum (f : Vector Word 256) : Nat := (f.toList.map BitVec.toNat).sum

/-- The arena that holds the nodes N from index 0 on, Empty above (R155). -/
def arenaOf (N : List Node) : Vector Node 511 := Vector.ofFn fun k => N.getD k.val .empty

/-- The tree BUILD publishes for a frequency table (R151, R158). -/
def buildTree (f : Vector Word 256) : Tree :=
  let n := (alphabet f).length
  let result := mergeLoop n (leaves f) (List.range n)
  let root := result.2.headD 0
  { node := arenaOf result.1
    count := BitVec.ofNat 9 (2 * n - 1)
    root := BitVec.ofNat 9 root
    weight := weightAt result.1 root }

/-- Body(BUILD) of 41_tree_builder.md R151. -/
def buildBody (s : State) : Except Err (State × Word) :=
  if (alphabet s.freq).length = 0 then .error .invalidInput
  else if freqSum s.freq > 2 ^ 32 - 1 then .error .capacityExceeded
  else .ok ({ s with tree := buildTree s.freq, treeValid := true }, 0)

/-- BUILD: the Huffman tree of the frequency table (41_tree_builder.md R151). -/
def execBuild (s : State) : Host.Outcome State Fault Refusal :=
  runCommand s none (srcWindow s .build) (dstWindow s .build) buildBody

end Sys2Proof.Machine
end

