-- ==== Sys2Proof/Machine/Engine.lean ====
section
/-! DEFINITION. Execute of a latched command word (40_control.md R132, R138), and which agent moves next (R130). -/

namespace Sys2Proof.Machine

/-- The engine step of an illegal word (40_control.md R138): ILLEGAL_COMMAND and no other effect. -/
def execIllegal (s : State) : Host.Outcome State Fault Refusal := .next (s.fail .illegalCommand)

/-- Execute(v) of 40_control.md R132. -/
def execute (v : Word) (s : State) : Host.Outcome State Fault Refusal :=
  match decode v with
  | .ok i => exec i s
  | .error _ => execIllegal s

/-- Who makes the next step. -/
inductive Agent where
  /-- The engine runs the latched word. -/
  | engine (v : Word)
  /-- The host makes a step. -/
  | host (h : HostStep) (rest : List HostStep)
  /-- Neither: the block is idle and keeps its state (60_exceptions.md R298). -/
  | idle
  deriving DecidableEq, Repr

/-- The agent that moves next. While BUSY = 1 the engine step comes after a finite number of host steps, the free
delay, and no host step can disable it (40_control.md R130, 70_reset_and_hazards.md R333; log 4). -/
def nextAgent (s : State) : Agent :=
  match s.latched, s.host with
  | some v, [] => .engine v
  | some v, h :: rest => if s.delay = 0 then .engine v else .host h rest
  | none, [] => .idle
  | none, h :: rest => .host h rest

end Sys2Proof.Machine
end

