-- ==== Sys2Proof/Machine/HostPort.lean ====
section
/-! DEFINITION. What a host step does: register reads and writes (10_state.md R20 to R40, R50), MEM accesses
(20_memory.md R90, R91), and the reset signal (70_reset_and_hazards.md R310, R311). -/

namespace Sys2Proof.Machine

/-! ## Register reads -/

/-- The current value of a register (10_state.md R21 to R37, R50, R56, R60, R61; reserved reads 0, R38). -/
def regValue (s : State) : Reg → Word
  | .id => Config.idValue
  | .ctrl => ctrlWord s
  | .status => statusWord s
  | .err => s.err.code.setWidth 32
  | .cmd => 0
  | .srcAddr => s.srcAddr
  | .srcLen => s.srcLen
  | .dstAddr => s.dstAddr
  | .dstCap => s.dstCap
  | .bitLen => s.bitLen
  | .outLen => s.outLen
  | .freqN => BitVec.ofNat 32 (freqN s.freq)
  | .tableN => BitVec.ofNat 32 (tableN s.table)
  | .maxLen => BitVec.ofNat 32 (maxLen s.table)
  | .nodeCount => s.tree.count.setWidth 32
  | .rootIdx => s.tree.root.setWidth 32
  | .rootWeight => s.tree.weight
  | .freq sym => symGet s.freq sym
  | .codeLen sym => (symGet s.table.len sym).setWidth 32
  | .codeVec sym k => (symGet s.table.vec sym).extractLsb' (32 * k.toNat) 32
  | .nodeWord0 k => (s.tree.at k.toNat).word0
  | .nodeWord1 k => (s.tree.at k.toNat).word1
  | .reserved => 0

/-- The register reads its current value even while BUSY = 1 (10_state.md R40; reserved offsets, R38 and U7). NODE[511]
is a name outside the map, whose offsets are 0x2FF8 and 0x2FFC: read by that name it is a draw while BUSY = 1, as the
NODE window is. DESIGN CHOICE (log 21), safe: the spec rules on no such name, and the draw may be 0. -/
def readsWhileBusy : Reg → Bool
  | .id | .ctrl | .status | .err | .cmd | .srcAddr | .srcLen | .dstAddr | .dstCap | .reserved => true
  | .bitLen | .outLen | .freqN | .tableN | .maxLen | .nodeCount | .rootIdx | .rootWeight => false
  | .freq _ | .codeLen _ | .codeVec _ _ | .nodeWord0 _ | .nodeWord1 _ => false

/-- A host read of a register (10_state.md R40): its value, or while BUSY = 1 a free draw for a result register
(log 19). A read has no side effect (20_memory.md R94); only the model's draw counter moves. -/
def readReg (s : State) (r : Reg) : Word × State :=
  if s.busy && !readsWhileBusy r then (Config.freeWord s.draws, { s with draws := s.draws + 1 })
  else (regValue s r, s)

/-! ## Register writes -/

/-- A write that is lost while BUSY = 1 and then sets OVERRUN (10_state.md R39). -/
def State.guardedWrite (s t : State) : State := if s.busy then { s with overrun := true } else t

/-- An accepted CMD write: issue, with a free delay (40_control.md R130; log 4). -/
def State.issueFree (s : State) (v : Word) : State :=
  { s.issue v (Config.freeDelay s.draws) with draws := s.draws + 1 }

/-- A host write of a register (10_state.md R21 to R39, R50; 40_control.md R130, R135). -/
def writeReg (s : State) (r : Reg) (v : Word) : State :=
  match r with
  | .ctrl => s.guardedWrite (s.setCtrl v)
  | .status => s.ackStatus v
  | .cmd => s.guardedWrite (s.issueFree v)
  | .srcAddr => s.guardedWrite { s with srcAddr := v }
  | .srcLen => s.guardedWrite { s with srcLen := v }
  | .dstAddr => s.guardedWrite { s with dstAddr := v }
  | .dstCap => s.guardedWrite { s with dstCap := v }
  | .bitLen => s.guardedWrite { s with bitLen := v }
  | .freq sym => s.guardedWrite { s with freq := symSet s.freq sym v }
  | .id | .err | .outLen | .freqN | .tableN | .maxLen | .nodeCount | .rootIdx | .rootWeight => s
  | .codeLen _ | .codeVec _ _ | .nodeWord0 _ | .nodeWord1 _ | .reserved => s

/-! ## MEM accesses and reset -/

/-- The destination window of the command in flight, if it has one. -/
def State.activeDst (s : State) : Option Window :=
  match s.latched with
  | none => none
  | some v =>
    match decode v with
    | .ok i => dstWindow s i
    | .error _ => none

/-- The source window of the command in flight, if it has one. -/
def State.activeSrc (s : State) : Option Window :=
  match s.latched with
  | none => none
  | some v =>
    match decode v with
    | .ok i => srcWindow s i
    | .error _ => none

/-- The address lies in a window of the command in flight (20_memory.md R91; log 11). -/
def State.inActiveWindow (s : State) (a : Nat) : Bool :=
  s.activeSrc.any (fun w => decide (w.Contains a)) || s.activeDst.any (fun w => decide (w.Contains a))

/-- Reset (70_reset_and_hazards.md R310): every register to its reset value, MEM kept. While BUSY = 1 the command in
flight is abandoned and its destination window's bytes take free values (R311). The launch's MEM_SIZE, the upper
register map and the host's own side stay (log 10). -/
def State.resetSignal (s : State) : State :=
  let t := s.scramble s.activeDst
  { State.reset with
    mem := t.mem
    memSize := t.memSize
    highMap := t.highMap
    host := t.host
    recorded := t.recorded
    draws := t.draws }

/-- The read of register r at an offset, recorded (30_encoding.md R107). -/
def State.recordReg (s : State) (off : Nat) (r : Reg) : State :=
  let x := readReg s r
  { x.2 with recorded := .reg off x.1 :: x.2.recorded }

/-- A step of the host. -/
def hostStep (s : State) : HostStep → Host.Outcome State Fault Refusal
  | .rd off size =>
    if regAccessOk off size then .next (s.recordReg off (regAt s.highMap off)) else .fault .hostBadAccess
  | .rdReg r => .next (s.recordReg (regOffset r) r)
  | .wr off size v =>
    if regAccessOk off size then .next (writeReg s (regAt s.highMap off) v) else .fault .hostBadAccess
  | .memRd a =>
    if s.memSize ≤ a then .fault .hostOutsideMem
    else if s.inActiveWindow a then .fault .hostRace
    else .next { s with recorded := .byte a (Memory.read s.mem a) :: s.recorded }
  | .memWr a v =>
    if s.memSize ≤ a then .fault .hostOutsideMem
    else if s.inActiveWindow a then .fault .hostRace
    else .next { s with mem := Memory.write s.mem a v }
  | .wait =>
    let t := s.recordReg (regOffset .status) .status
    .next (if s.busy then { t with host := .wait :: t.host } else t)
  | .reset => .next s.resetSignal

/-- The host's turn: its first step `h` is taken off the list, and one step of the engine's delay is over. -/
def hostTurn (s : State) (h : HostStep) (rest : List HostStep) : Host.Outcome State Fault Refusal :=
  hostStep { s with host := rest, delay := s.delay - 1 } h

end Sys2Proof.Machine
end

