-- ==== Sys2Proof/Machine/Step.lean ====
section
/-! DEFINITION. The step of the machine (00_scope.md R7): the engine's, the host's, or none while the block is idle. -/

namespace Sys2Proof.Machine

/-- One step. Who moves is read from the state (log 4, log 6). -/
def step (s : State) : Host.Outcome State Fault Refusal :=
  match nextAgent s with
  | .engine v => execute v s
  | .host h rest => hostTurn s h rest
  | .idle => .next s

/-- The state with a command word issued and the engine's delay over, so that the next step runs it. The block fetches
nothing (20_memory.md R92): an accepted CMD write is how a word reaches the engine (40_control.md R130; log 6). -/
def State.withFetchWord (s : State) (nbits w : Nat) : State :=
  s.issue (BitVec.ofNat 32 (w % 2 ^ nbits)) 0

end Sys2Proof.Machine
end

