-- ==== Sys2Proof/Machine/HostProgram.lean ====
section
/-! DEFINITION. The host-step syntax and the pseudo-instructions (30_encoding.md R107, R108), each as the host
steps it stands for. -/

namespace Sys2Proof.Machine

/-- `rd <REG>` (log 21). -/
def hostRd (r : Reg) : HostStep := .rdReg r

/-- `wr <REG>, <value>`. -/
def hostWr (r : Reg) (v : Word) : HostStep := .wr (regOffset r) 4 v

/-- `cmd <word>`. -/
def hostCmd (v : Word) : HostStep := hostWr .cmd v

/-- `<MNEMONIC>`. -/
def hostIssue (i : Instr) : HostStep := hostCmd (encode i)

/-- `run <MNEMONIC>`. -/
def hostRun (i : Instr) : List HostStep := [hostIssue i, .wait]

/-- `ack`. -/
def hostAck : HostStep := hostWr .status 0x00000006

/-- `setsrc a, n`. -/
def hostSetSrc (a n : Word) : List HostStep := [hostWr .srcAddr a, hostWr .srcLen n]

/-- `setdst a, c`. -/
def hostSetDst (a c : Word) : List HostStep := [hostWr .dstAddr a, hostWr .dstCap c]

end Sys2Proof.Machine
end

