-- ==== Sys2Proof/Safety.lean ====
section
/-! DEFINITION. The terms claims use: the invariants the spec states (10_state.md R57, R61, R62), what a finished and a
safe run are (00_scope.md R7, R8), and the spec's own notions of a path, a minimum key, a table line, an artifact and a
binary tree, written apart from the meanings so that a claim compares the two. -/

namespace Sys2Proof.Machine

/-! ## Runs -/

/-- No command is in flight: only then is a run finished (00_scope.md R8). -/
def State.finished (s : State) : Bool := !s.busy

/-- The step does not end in a model fault (00_scope.md R7 (c)). -/
def StepSafe (s : State) : Prop := ∀ f, step s ≠ .fault f

/-! ## Invariants -/

/-- MEM is in canonical form and holds addresses 0..MEM_SIZE-1 only, and MEM_SIZE is as 00_scope.md R4 bounds it. -/
abbrev MemOk (s : State) : Prop :=
  Memory.wf s.mem ∧ (∀ c ∈ s.mem, c.1 < s.memSize) ∧ 1 ≤ s.memSize ∧ s.memSize ≤ 2 ^ 32

/-- The slot is a Leaf. -/
def Node.isLeaf : Node → Bool
  | .leaf _ _ => true
  | .empty => false
  | .internal _ _ _ => false

/-- The slot is an Internal node. -/
def Node.isInternal : Node → Bool
  | .internal _ _ _ => true
  | .empty => false
  | .leaf _ _ => false

/-- The index is a child of the slot. -/
def Node.hasChild (j : Nat) : Node → Bool
  | .internal l r _ => l.toNat == j || r.toNat == j
  | .empty => false
  | .leaf _ _ => false

/-- An Internal slot at index k has children of smaller indices, and its weight is the sum of theirs. -/
def Node.linkedBelow (t : Tree) (k : Nat) : Node → Bool
  | .internal l r w =>
    decide (l.toNat < k) && decide (r.toNat < k)
      && w.toNat == (t.at l.toNat).weight.toNat + (t.at r.toNat).weight.toNat
  | .empty => true
  | .leaf _ _ => true

/-- The symbol of a Leaf, as a number. -/
def Node.symNat : Node → Nat
  | .leaf sym _ => sym.toNat
  | .empty => 0
  | .internal _ _ _ => 0

/-- The tree of n leaves that 10_state.md R57 describes, clause by clause. -/
abbrev TreeShape (t : Tree) (n : Nat) : Prop :=
  1 ≤ n ∧ n ≤ 256 ∧
  (∀ k < n, (t.at k).isLeaf = true) ∧
  (∀ k < 511, n ≤ k → k < 2 * n - 1 → (t.at k).isInternal = true) ∧
  (∀ k < 511, 2 * n - 1 ≤ k → t.at k = .empty) ∧
  t.count.toNat = 2 * n - 1 ∧
  t.root.toNat = 2 * n - 2 ∧
  (∀ k < 511, (t.at k).linkedBelow t k = true) ∧
  (∀ j < 2 * n - 2, (List.range 511).countP (fun k => (t.at k).hasChild j) = 1)

/-- What BUILD adds to R57: the leaves stand in ascending order of their symbols (41_tree_builder.md R155), and
ROOT_WEIGHT is the root's weight (10_state.md R37). -/
abbrev TreePlaced (t : Tree) (n : Nat) : Prop :=
  (∀ k < n - 1, (t.at k).symNat < (t.at (k + 1)).symNat) ∧ t.weight = (t.at t.root.toNat).weight

/-- The number of leaves of a tree, from NODE_COUNT = 2n - 1. -/
def Tree.leafCount (t : Tree) : Nat := (t.count.toNat + 1) / 2

/-- The tree invariant: R57 while TREE_VALID = 1, everything empty while it is 0. -/
abbrev TreeOk (s : State) : Prop :=
  (s.treeValid = true → TreeShape s.tree s.tree.leafCount ∧ TreePlaced s.tree s.tree.leafCount) ∧
  (s.treeValid = false → s.tree = Tree.cleared)

/-- No present code begins or equals another (10_state.md R62). -/
abbrev PrefixFree (entries : List (Byte × Bits)) : Prop :=
  entries.Pairwise fun e f => ¬ e.2 <+: f.2 ∧ ¬ f.2 <+: e.2

/-- The stored bits from CODE_LEN[s] up are 0, for every s (10_state.md R61). -/
abbrev NoStrayBits (t : CodeTable) : Prop :=
  ∀ s ∈ symbols, symGet t.vec s >>> (symGet t.len s).toNat = 0

/-- The table invariant of 10_state.md R62, with R61's rule on the bits above a code. -/
abbrev TableOk (s : State) : Prop :=
  NoStrayBits s.table ∧
  (s.tableValid = true → 1 ≤ tableN s.table ∧ PrefixFree (codeEntries s.table)) ∧
  (s.tableValid = false → s.table = CodeTable.cleared)

/-- While a command is in flight DONE is 0 (40_control.md R130), and no delay is left when none is. -/
abbrev BusyOk (s : State) : Prop :=
  (s.busy = true → s.done = false) ∧ (s.busy = false → s.delay = 0)

/-- Every invariant together. -/
abbrev Inv (s : State) : Prop := MemOk s ∧ TreeOk s ∧ TableOk s ∧ BusyOk s

/-! ## What a commit leaves -/

/-- The state s with a command's result registers written as a commit writes them (40_control.md R133, R134), and
nothing else. -/
def committed (s : State) (e : Err) (outLen : Word) : State :=
  { s with latched := none, delay := 0, done := true, err := e, outLen := outLen }

/-- The host's side and the launch's MEM_SIZE and upper register map are as before. -/
abbrev SameHostSide (s t : State) : Prop :=
  t.host = s.host ∧ t.recorded = s.recorded ∧ t.memSize = s.memSize ∧ t.highMap = s.highMap

/-- CTRL, STATUS.OVERRUN and the four operand registers no command writes are as before. -/
abbrev SameControl (s t : State) : Prop :=
  t.legacyTrunc = s.legacyTrunc ∧ t.irqEn = s.irqEn ∧ t.overrun = s.overrun ∧
  t.srcAddr = s.srcAddr ∧ t.srcLen = s.srcLen ∧ t.dstAddr = s.dstAddr ∧ t.dstCap = s.dstCap

/-- FREQ, the tree, the code table, their valid bits and BIT_LEN are as before. -/
abbrev SameStores (s t : State) : Prop :=
  t.freq = s.freq ∧ t.tree = s.tree ∧ t.table = s.table ∧
  t.treeValid = s.treeValid ∧ t.tableValid = s.tableValid ∧ t.bitLen = s.bitLen

/-- Every byte of MEM outside [a, a + n) reads as before. -/
def SameMemOutside (a n : Nat) (m m' : Memory) : Prop :=
  ∀ x, ¬ (a ≤ x ∧ x < a + n) → Memory.read m' x = Memory.read m x

/-! ## Operands of claims -/

/-- The n bytes of MEM from a on (20_memory.md R84: symbol i stands at a + i). -/
def bytesAt (m : Memory) (a n : Nat) : Text := (List.range n).map fun i => Memory.read m (a + i)

/-- The input of COUNT, ENCODE and PARSE. -/
def State.input (s : State) : Text := bytesAt s.mem s.srcAddr.toNat s.srcLen.toNat

/-- Both windows of the command are valid and they do not overlap (40_control.md R139). -/
abbrev WindowsFit (s : State) (i : Instr) : Prop :=
  (∀ w ∈ srcWindow s i, w.Valid s.memSize) ∧ (∀ w ∈ dstWindow s i, w.Valid s.memSize) ∧
  (∀ w ∈ srcWindow s i, ∀ w' ∈ dstWindow s i, ¬ w.Overlap w')

/-- The payload at p holds these bits, MSB first, with 0 in the padding of its last byte (20_memory.md R86). -/
def PayloadIs (m : Memory) (p : Nat) (bits : Bits) : Prop :=
  payloadBits m p bits.length = bits ∧
  ∀ i, bits.length ≤ i → i < 8 * ceil8 bits.length → payloadBit m p i = false

/-- The bits of a symbol sequence: the concatenation of its codes in input order (43_codec.md R200). -/
def codesOf (t : CodeTable) (input : Text) : Bits := input.flatMap (code t)

/-! ## The spec's own notions -/

/-- There is a path from node k to a leaf of the symbol, 0 = left and 1 = right (42_code_table.md R181). -/
inductive PathTo (t : Tree) : Nat → Bits → Byte → Prop where
  | leaf (k : Nat) (s : Byte) (w : Word) (h : t.at k = .leaf s w) : PathTo t k [] s
  | left (k : Nat) (l r : NodeIdx) (w : Word) (p : Bits) (s : Byte) (h : t.at k = .internal l r w)
      (hp : PathTo t l.toNat p s) : PathTo t k (false :: p) s
  | right (k : Nat) (l r : NodeIdx) (w : Word) (p : Bits) (s : Byte) (h : t.at k = .internal l r w)
      (hp : PathTo t r.toNat p s) : PathTo t k (true :: p) s

/-- Node q comes before node q' in the key order: lower weight, and between equal weights lower index
(41_tree_builder.md R156). -/
def KeyBefore (t : Tree) (q q' : Nat) : Prop :=
  (t.at q).weight.toNat < (t.at q').weight.toNat ∨
  ((t.at q).weight.toNat = (t.at q').weight.toNat ∧ q < q')

/-- The queue before the i-th merge (counted from 0) of a tree of n leaves: the nodes made so far that no merge so far
has taken (41_tree_builder.md R155, R157). -/
def InQueue (t : Tree) (n i q : Nat) : Prop := q < n + i ∧ ∀ j < i, (t.at (n + j)).hasChild q = false

/-- q is the minimum-key item of a queue (41_tree_builder.md R156). -/
def IsMinKey (t : Tree) (Q : Nat → Prop) (q : Nat) : Prop := Q q ∧ ∀ q', Q q' → q' ≠ q → KeyBefore t q q'

/-- The decimal spelling of a symbol's ordinal (44_persistence.md R242). -/
def ordinalText (s : Byte) : Text := (Nat.toDigits 10 s.toNat).map fun c => BitVec.ofNat 8 c.toNat

/-- One ASCII '0' (0x30) or '1' (0x31) per bit (44_persistence.md R241). -/
def bitText (bits : Bits) : Text := bits.map fun b => if b then 0x31 else 0x30

/-- A table line: ordinal " " code "\n" (44_persistence.md R241). -/
def lineText (e : Byte × Bits) : Text := ordinalText e.1 ++ [0x20] ++ bitText e.2 ++ [0x0A]

/-- An artifact of these lines and this payload: line* "===\n" payload (44_persistence.md R241). -/
def artifactText (lines : List (Byte × Bits)) (payload : Bits) : Text :=
  lines.flatMap lineText ++ [0x3D, 0x3D, 0x3D, 0x0A] ++ bitText payload

/-- The present entries of a code table, ordinals ascending (44_persistence.md R243). -/
def tableLines (t : CodeTable) : List (Byte × Bits) :=
  (symbols.filter fun s => symGet t.len s ≠ 0).map fun s => (s, code t s)

/-- The lines PARSE accepts: at least one, codes of 1 to 255 bits, no ordinal twice, no code that begins or equals
another (44_persistence.md R250, R252). -/
abbrev LinesOk (E : List (Byte × Bits)) : Prop :=
  E ≠ [] ∧ (∀ e ∈ E, 1 ≤ e.2.length ∧ e.2.length ≤ 255) ∧
  E.Pairwise fun e f => e.1 ≠ f.1 ∧ ¬ e.2 <+: f.2 ∧ ¬ f.2 <+: e.2

/-- The result codes a command may report: its rows in the "raised by" column of 60_exceptions.md R280, and OK. -/
def errorsOf : Instr → List Err
  | .nop => [.ok]
  | .clear => [.ok]
  | .count => [.ok, .addressFault]
  | .build => [.ok, .invalidInput, .capacityExceeded]
  | .derive => [.ok, .notReady]
  | .encode => [.ok, .unknownSymbol, .capacityExceeded, .notReady, .addressFault]
  | .decode => [.ok, .truncatedStream, .capacityExceeded, .notReady, .addressFault]
  | .serialize => [.ok, .capacityExceeded, .notReady, .addressFault]
  | .parse => [.ok, .malformedArtifact, .capacityExceeded, .addressFault]

/-- The host's 32-bit read at this offset records this value and changes nothing (10_state.md R20, 20_memory.md R94). -/
abbrev ReadGives (s : State) (off : Nat) (v : Word) : Prop :=
  hostStep s (.rd off 4) = .next { s with recorded := .reg off v :: s.recorded }

/-- The host's `rd <REG>` of this register records this value and changes nothing (30_encoding.md R107). -/
abbrev NamedReadGives (s : State) (r : Reg) (v : Word) : Prop :=
  hostStep s (.rdReg r) = .next { s with recorded := .reg (regOffset r) v :: s.recorded }

/-- The two readback words of a node slot, by their bits (10_state.md R56). -/
def NodeWordsAre : Node → Word → Word → Prop
  | .empty, w0, w1 => w0 = 0 ∧ w1 = 0
  | .leaf sym w, w0, w1 => w0.toNat = 2 ^ 31 + sym.toNat ∧ w1 = w
  | .internal l r w, w0, w1 => w0.toNat = 2 ^ 30 + l.toNat + 2 ^ 16 * r.toNat ∧ w1 = w

/-- A strict binary tree over symbols (41_tree_builder.md R159). -/
inductive BinTree where
  | leaf (s : Byte)
  | node (l r : BinTree)
  deriving DecidableEq, Repr

/-- The leaves of a binary tree, left to right. -/
def BinTree.leaves : BinTree → List Byte
  | .leaf s => [s]
  | .node l r => l.leaves ++ r.leaves

/-- The sum over the leaves of weight times depth, the root at depth d (41_tree_builder.md R159). -/
def BinTree.pathWeight (f : Vector Word 256) : Nat → BinTree → Nat
  | d, .leaf s => (symGet f s).toNat * d
  | d, .node l r => l.pathWeight f (d + 1) + r.pathWeight f (d + 1)

/-- The sum over the symbols of count times code length. -/
def codedWeight (f : Vector Word 256) (t : CodeTable) : Nat :=
  (symbols.map fun s => (symGet f s).toNat * (symGet t.len s).toNat).sum

end Sys2Proof.Machine
end

