-- ==== Sys2Proof/Certificates/Slice0/Obligations.lean ====
section
/-! DEFINITION. The statements for the provers. Each cites the rule of the spec it formalises; OBLIGATIONS.json lists
them. A statement about a free value (Config.freeByte, freeWord, freeDelay) holds for every value of it. -/

open Sys2Proof Sys2Proof.Machine

/-! ## Command words -/

/-- 30_encoding.md R103: each command word of the opcode map decodes to its command, and no other word decodes to one. -/
def Obligations.OpcodeMapWords : Prop :=
  decode 0x00000000 = .ok .nop ∧ decode 0x00000001 = .ok .clear ∧ decode 0x00000010 = .ok .count ∧
  decode 0x00000011 = .ok .build ∧ decode 0x00000012 = .ok .derive ∧ decode 0x00000020 = .ok .encode ∧
  decode 0x00000021 = .ok .decode ∧ decode 0x00000030 = .ok .serialize ∧ decode 0x00000031 = .ok .parse ∧
  ∀ (v : Word) (i : Instr), decode v = .ok i →
    v ∈ [0x00000000, 0x00000001, 0x00000010, 0x00000011, 0x00000012, 0x00000020, 0x00000021, 0x00000030, 0x00000031]

/-- 30_encoding.md R103: a row matches its whole 32-bit word and no other word, so decoding and encoding agree on every
command and every word. -/
def Obligations.DecodeOkIffEncoded : Prop :=
  ∀ (v : Word) (i : Instr), decode v = .ok i ↔ v = encode i

/-- 30_encoding.md R101, R104: a word is illegal exactly when bits 31:8 are not all 0 or OP is not one of the nine. -/
def Obligations.IllegalWordsExactly : Prop :=
  ∀ v : Word, (∃ e, decode v = .error e) ↔
    (v.toNat / 256 ≠ 0 ∨ v.toNat % 256 ∉ [0x00, 0x01, 0x10, 0x11, 0x12, 0x20, 0x21, 0x30, 0x31])

/-- 10_state.md R20: every register of the map is found at its offset, by an aligned access inside REG. R20 gives the
offsets 0x2000 to 0x2FFC twice, so CODE_VEC[128..255] is found there under one reading of the map and NODE under the
other (the model's choice, log 9). -/
def Obligations.RegisterMapUnambiguous : Prop :=
  ∀ (m : HighMap) (r : Reg), (∀ s k, r = .codeVec s k → s.toNat < 128 ∨ m = .codeVec) →
    (∀ k, r = .nodeWord0 k ∨ r = .nodeWord1 k → k.toNat ≤ 510 ∧ m = .node) →
    regAt m (regOffset r) = r ∧ regAccessOk (regOffset r) 4

/-! ## The step and the frame of a command -/

/-- 40_control.md R132: when the engine's step comes, it is the meaning of the command the latched word decodes to; and
the word withFetchWord places is the one the next step runs. -/
def Obligations.StepRunsDecodedCommand : Prop :=
  (∀ (s : State) (v : Word) (i : Instr), s.latched = some v → decode v = .ok i →
    (s.delay = 0 ∨ s.host = []) → step s = exec i s) ∧
  (∀ (s : State) (i : Instr), step (s.withFetchWord 32 (encode i).toNat) =
    exec i { s with latched := some (encode i), done := false, delay := 0 })

/-- 40_control.md R138, 60_exceptions.md R287: a word with RSV != 0, or with an OP outside the map, completes with
ILLEGAL_COMMAND, OUT_LEN = 0 and no other effect. -/
def Obligations.IllegalWordCompletes : Prop :=
  ∀ (s : State) (v : Word),
    (v.toNat / 256 ≠ 0 ∨ v.toNat % 256 ∉ [0x00, 0x01, 0x10, 0x11, 0x12, 0x20, 0x21, 0x30, 0x31]) →
    s.latched = some v → (s.delay = 0 ∨ s.host = []) → step s = .next (committed s .illegalCommand 0)

/-- 20_memory.md R82, R83: which windows each command has, that a window is valid exactly when every byte of it exists,
and that two windows overlap exactly when they share a byte. -/
def Obligations.WindowsMeanTheirBytes : Prop :=
  (∀ s : State, srcWindow s .count = some ⟨s.srcAddr.toNat, s.srcLen.toNat⟩ ∧
    srcWindow s .encode = some ⟨s.srcAddr.toNat, s.srcLen.toNat⟩ ∧
    srcWindow s .parse = some ⟨s.srcAddr.toNat, s.srcLen.toNat⟩ ∧
    srcWindow s .decode = some ⟨s.srcAddr.toNat, (s.bitLen.toNat + 7) / 8⟩ ∧
    srcWindow s .serialize = some ⟨s.srcAddr.toNat, (s.bitLen.toNat + 7) / 8⟩ ∧
    (∀ i ∈ [Instr.nop, .clear, .build, .derive], srcWindow s i = none) ∧
    (∀ i ∈ [Instr.encode, .decode, .serialize, .parse],
      dstWindow s i = some ⟨s.dstAddr.toNat, s.dstCap.toNat⟩) ∧
    (∀ i ∈ [Instr.nop, .clear, .count, .build, .derive], dstWindow s i = none)) ∧
  (∀ (w : Window) (n : Nat), w.Valid n ↔ ∀ a, w.Contains a → a < n) ∧
  (∀ v w : Window, v.Overlap w ↔ ∃ a, v.Contains a ∧ w.Contains a)

/-- 60_exceptions.md R286: NOT_READY is raised by DERIVE without a tree and by ENCODE, DECODE and SERIALIZE without a
table, before the windows are checked, and by nothing else. -/
def Obligations.NotReadyComesFirst : Prop :=
  (∀ s : State, s.treeValid = false → exec .derive s = .next (committed s .notReady 0)) ∧
  (∀ (s : State) (i : Instr), i ∈ [Instr.encode, .decode, .serialize] → s.tableValid = false →
    exec i s = .next (committed s .notReady 0)) ∧
  (∀ (s t : State) (i : Instr), exec i s = .next t → t.err = .notReady →
    (i = .derive ∧ s.treeValid = false) ∨
      (i ∈ [Instr.encode, .decode, .serialize] ∧ s.tableValid = false))

/-- 60_exceptions.md R288, R289, 40_control.md R139: a command past its precheck fails with ADDRESS_FAULT exactly when
a window is invalid or the two overlap, and then nothing else changes. -/
def Obligations.AddressFaultComesNext : Prop :=
  (∀ (s : State) (i : Instr), (i = .derive → s.treeValid = true) →
    (i ∈ [Instr.encode, .decode, .serialize] → s.tableValid = true) → ¬ WindowsFit s i →
    exec i s = .next (committed s .addressFault 0)) ∧
  (∀ (s t : State) (i : Instr), exec i s = .next t → t.err = .addressFault → ¬ WindowsFit s i)

/-- 40_control.md R134: a command that fails leaves FREQ, the tree, the table, the valid bits, BIT_LEN, CTRL and the
operand registers as they were, changes no byte outside its destination window, changes no byte at all when the error
came before the data phase, and sets OUT_LEN = 0, BUSY = 0, DONE = 1. -/
def Obligations.FailureCommit : Prop :=
  ∀ (s t : State) (v : Word), execute v s = .next t → t.err ≠ .ok →
    t.outLen = 0 ∧ t.latched = none ∧ t.done = true ∧ SameStores s t ∧ SameControl s t ∧ SameHostSide s t ∧
    (∀ a, (∀ i w, decode v = .ok i → dstWindow s i = some w → ¬ w.Contains a) →
      Memory.read t.mem a = Memory.read s.mem a) ∧
    (t.err ∈ [.illegalCommand, .notReady, .addressFault] → t.mem = s.mem)

/-- 30_encoding.md R106: a command writes only what its row of the writes column names. -/
def Obligations.CommandsWriteTheirColumnOnly : Prop :=
  ∀ (s t : State) (i : Instr), exec i s = .next t →
    SameControl s t ∧ SameHostSide s t ∧
    (i ∉ [Instr.clear, .count] → t.freq = s.freq) ∧
    (i ∉ [Instr.clear, .build] → t.tree = s.tree ∧ t.treeValid = s.treeValid) ∧
    (i ∉ [Instr.clear, .derive, .parse] → t.table = s.table ∧ t.tableValid = s.tableValid) ∧
    (i ∉ [Instr.encode, .parse] → t.bitLen = s.bitLen) ∧
    (i ∉ [Instr.encode, .decode, .serialize, .parse] → t.mem = s.mem)

/-- 20_memory.md R85: a command writes MEM only inside its destination window, and reads MEM only inside its source
window: with the same bytes there it leaves the same registers, whatever the rest of MEM holds, and each byte it
writes is the same, so that a byte of MEM ends up equal in both runs or is left alone in both. For a command that fails
in its data phase, that the free bytes of the destination window are equal in both runs is the model's choice (log 18,
log 5): a free byte depends on the draw and the address alone, where 40_control.md R134 leaves it open. -/
def Obligations.MemOnlyThroughWindows : Prop :=
  (∀ (s t : State) (i : Instr), exec i s = .next t →
    ∀ a, (∀ w, dstWindow s i = some w → ¬ w.Contains a) → Memory.read t.mem a = Memory.read s.mem a) ∧
  (∀ (s t : State) (i : Instr) (m : Memory),
    (∀ w, srcWindow s i = some w → ∀ a, w.Contains a → Memory.read m a = Memory.read s.mem a) →
    exec i s = .next t → ∃ m', exec i { s with mem := m } = .next { t with mem := m' } ∧
      (Memory.wf s.mem → Memory.wf m → ∀ a, Memory.read m' a = Memory.read t.mem a ∨
        (Memory.read t.mem a = Memory.read s.mem a ∧ Memory.read m' a = Memory.read m a)))

/-- 60_exceptions.md R280: every command completes, with a result code its row of the "raised by" column allows and
OUT_LEN = 0 when that is an error; an illegal word reports ILLEGAL_COMMAND; and the codes are 0 to 8 as listed. -/
def Obligations.ErrorsPerCommand : Prop :=
  (∀ (s : State) (i : Instr), ∃ t, exec i s = .next t ∧ t.latched = none ∧ t.done = true ∧
    t.err ∈ errorsOf i ∧ (t.err ≠ .ok → t.outLen = 0)) ∧
  (∀ (s : State) (v : Word) (e : Illegal), decode v = .error e →
    ∃ t, execute v s = .next t ∧ t.err = .illegalCommand ∧ t.outLen = 0) ∧
  ([Err.ok, .invalidInput, .unknownSymbol, .malformedArtifact, .truncatedStream, .capacityExceeded, .notReady,
    .illegalCommand, .addressFault].map (fun e => e.code.toNat) = [0, 1, 2, 3, 4, 5, 6, 7, 8])

/-! ## NOP, CLEAR, COUNT -/

/-- 40_control.md R136: NOP does nothing and succeeds. -/
def Obligations.NopCompletes : Prop :=
  ∀ s : State, exec .nop s = .next (committed s .ok 0)

/-- 40_control.md R137: CLEAR empties the frequency table, the tree and the code table, and changes nothing else. -/
def Obligations.ClearCompletes : Prop :=
  ∀ s : State, ∃ f T C, exec .clear s =
      .next (committed { s with freq := f, tree := T, table := C, treeValid := false, tableValid := false } .ok 0) ∧
    (∀ sym, symGet f sym = 0 ∧ symGet C.len sym = 0 ∧ symGet C.vec sym = 0) ∧
    (∀ k, T.at k = .empty) ∧ T.count = 0 ∧ T.root = 0 ∧ T.weight = 0

/-- 41_tree_builder.md R150: COUNT replaces FREQ by the number of times each symbol stands in the source window, and
changes nothing else; with an invalid window it fails with ADDRESS_FAULT and nothing else changes. -/
def Obligations.CountCompletes : Prop :=
  ∀ s : State,
    (s.srcBytesWindow.Valid s.memSize →
      ∃ f, exec .count s = .next (committed { s with freq := f } .ok 0) ∧
        ∀ sym, (symGet f sym).toNat = s.input.count sym) ∧
    (¬ s.srcBytesWindow.Valid s.memSize → exec .count s = .next (committed s .addressFault 0))

/-! ## BUILD and DERIVE -/

/-- 41_tree_builder.md section 2 and, marked [derived] in the spec, R158 and 10_state.md R57: BUILD on a frequency table
that is not empty and whose sum fits 32 bits leaves NODE_COUNT = 2n - 1, ROOT_IDX = 2n - 2, ROOT_WEIGHT the sum, TREE_VALID = 1, the leaves in ascending symbol
order at 0..n-1, a tree as R57 describes it, and changes nothing else. -/
def Obligations.BuildCompletes : Prop :=
  ∀ (s : State) (n : Nat), n = freqN s.freq → 1 ≤ n → freqSum s.freq ≤ 2 ^ 32 - 1 →
    ∃ T, exec .build s = .next (committed { s with tree := T, treeValid := true } .ok 0) ∧
      TreeShape T n ∧ TreePlaced T n ∧ T.weight.toNat = freqSum s.freq ∧
      ∀ k sym, (symbols.filter fun x => symGet s.freq x ≠ 0)[k]? = some sym →
        T.at k = .leaf sym (symGet s.freq sym)

/-- 41_tree_builder.md R156, R157: the i-th merge makes the node at index n + i; its left child is the minimum-key item
of the queue and its right child the minimum-key item of the rest, its weight is their sum; after n - 1 merges the root
alone is in the queue. -/
def Obligations.BuildMergesMinimumKeys : Prop :=
  ∀ (s t : State) (n : Nat), n = freqN s.freq → exec .build s = .next t → t.err = .ok →
    (∀ i, i + 1 < n → ∃ l r w, t.tree.at (n + i) = .internal l r w ∧
      IsMinKey t.tree (InQueue t.tree n i) l.toNat ∧
      IsMinKey t.tree (fun q => InQueue t.tree n i q ∧ q ≠ l.toNat) r.toNat ∧
      w.toNat = (t.tree.at l.toNat).weight.toNat + (t.tree.at r.toNat).weight.toNat) ∧
    (∀ q, InQueue t.tree n (n - 1) q ↔ q = t.tree.root.toNat)

/-- 60_exceptions.md R281, 41_tree_builder.md R151: BUILD of an empty table fails with INVALID_INPUT, tested first; a sum
above 2^32 - 1 fails with CAPACITY_EXCEEDED; both leave everything else as it was; no other command raises
INVALID_INPUT. -/
def Obligations.BuildErrors : Prop :=
  (∀ s : State, (∀ sym, symGet s.freq sym = 0) → exec .build s = .next (committed s .invalidInput 0)) ∧
  (∀ s : State, (∃ sym, symGet s.freq sym ≠ 0) → 2 ^ 32 - 1 < freqSum s.freq →
    exec .build s = .next (committed s .capacityExceeded 0)) ∧
  (∀ (s t : State) (i : Instr), exec i s = .next t → t.err = .invalidInput →
    i = .build ∧ ∀ sym, symGet s.freq sym = 0)

/-- 42_code_table.md R181, R182: DERIVE of a valid tree gives each leaf symbol its root-to-leaf path, 0 = left and
1 = right, gives the symbol of a one-leaf tree the code "0", gives every other symbol no code, and changes nothing
else. -/
def Obligations.DeriveRecordsPaths : Prop :=
  ∀ s : State, s.treeValid = true → TreeOk s →
    ∃ C, exec .derive s = .next (committed { s with table := C, tableValid := true } .ok 0) ∧ NoStrayBits C ∧
      (∀ sym w, s.tree.at s.tree.root.toNat = .leaf sym w →
        code C sym = [false] ∧ ∀ x, x ≠ sym → symGet C.len x = 0) ∧
      (∀ l r w, s.tree.at s.tree.root.toNat = .internal l r w →
        ∀ sym bits, bits ≠ [] → (code C sym = bits ↔ PathTo s.tree s.tree.root.toNat bits sym))

/-- 42_code_table.md R183 (a) to (f), which the spec calls "derived from rules R180 to R182": the table DERIVE leaves is prefix-free, has exactly the leaf symbols, has codes of
1 to 255 bits, depends on the tree alone, is complete for n >= 2, and for n = 1 no code begins with the bit 1. -/
def Obligations.DeriveGuarantees : Prop :=
  ∀ s t : State, s.treeValid = true → TreeOk s → exec .derive s = .next t →
    PrefixFree (codeEntries t.table) ∧
    tableN t.table = s.tree.leafCount ∧
    (∀ sym, symGet t.table.len sym ≠ 0 ↔ ∃ k w, k < s.tree.leafCount ∧ s.tree.at k = .leaf sym w) ∧
    (∀ e ∈ codeEntries t.table, 1 ≤ e.2.length ∧ e.2.length ≤ 255) ∧
    (∀ s' t' : State, s'.treeValid = true → s'.tree = s.tree → exec .derive s' = .next t' → t'.table = t.table) ∧
    (2 ≤ s.tree.leafCount → ((codeEntries t.table).map fun e => 2 ^ (255 - e.2.length)).sum = 2 ^ 255) ∧
    (s.tree.leafCount = 1 → ∀ e ∈ codeEntries t.table, ¬ [true] <+: e.2)

/-! ## ENCODE and DECODE -/

/-- 43_codec.md R200, R202: when every source symbol has a code and the payload fits, ENCODE writes the concatenated
codes in the packed form at DST_ADDR, sets BIT_LEN and OUT_LEN, and changes nothing else. -/
def Obligations.EncodeCompletes : Prop :=
  ∀ (s : State) (bits : Bits), Memory.wf s.mem → s.tableValid = true → WindowsFit s .encode →
    (∀ x ∈ s.input, symGet s.table.len x ≠ 0) → bits = codesOf s.table s.input →
    bits.length ≤ 2 ^ 32 - 1 → ceil8 bits.length ≤ s.dstCap.toNat →
    ∃ m, exec .encode s = .next (committed { s with mem := m, bitLen := BitVec.ofNat 32 bits.length } .ok
        (BitVec.ofNat 32 (ceil8 bits.length))) ∧
      PayloadIs m s.dstAddr.toNat bits ∧ SameMemOutside s.dstAddr.toNat (ceil8 bits.length) s.mem m

/-- 43_codec.md R200, R201, 60_exceptions.md R289: at the first source symbol that cannot be encoded, ENCODE fails with
UNKNOWN_SYMBOL if the symbol has no code, and with CAPACITY_EXCEEDED if it has one that does not fit. -/
def Obligations.EncodeFirstErrorWins : Prop :=
  ∀ (s : State) (pre : Text) (x : Byte) (post : Text), s.tableValid = true → WindowsFit s .encode →
    s.input = pre ++ x :: post → (∀ y ∈ pre, symGet s.table.len y ≠ 0) →
    (codesOf s.table pre).length ≤ 2 ^ 32 - 1 → ceil8 (codesOf s.table pre).length ≤ s.dstCap.toNat →
    ∃ t, exec .encode s = .next t ∧
      (symGet s.table.len x = 0 → t.err = .unknownSymbol) ∧
      (symGet s.table.len x ≠ 0 →
        2 ^ 32 - 1 < (codesOf s.table (pre ++ [x])).length ∨
          s.dstCap.toNat < ceil8 (codesOf s.table (pre ++ [x])).length →
        t.err = .capacityExceeded)

/-- 43_codec.md R210 to R212: a payload that is the codes of `out` followed by bits in which no code begins decodes to
`out`, when `out` fits and the leftover is empty or CTRL.LEGACY_TRUNC = 1; nothing else changes. -/
def Obligations.DecodeCompletes : Prop :=
  ∀ (s : State) (out : Text) (rest : Bits), Memory.wf s.mem → s.tableValid = true →
    PrefixFree (codeEntries s.table) → WindowsFit s .decode →
    payloadBits s.mem s.srcAddr.toNat s.bitLen.toNat = codesOf s.table out ++ rest →
    (∀ x ∈ out, symGet s.table.len x ≠ 0) → (∀ e ∈ codeEntries s.table, ¬ e.2 <+: rest) →
    (rest = [] ∨ s.legacyTrunc = true) → out.length ≤ s.dstCap.toNat →
    ∃ m, exec .decode s = .next (committed { s with mem := m } .ok (BitVec.ofNat 32 out.length)) ∧
      bytesAt m s.dstAddr.toNat out.length = out ∧ SameMemOutside s.dstAddr.toNat out.length s.mem m

/-- 43_codec.md R210, R212, 60_exceptions.md R284, R285: leftover bits fail with TRUNCATED_STREAM when
CTRL.LEGACY_TRUNC = 0, and the first symbol that would not fit fails with CAPACITY_EXCEEDED, whatever follows it. -/
def Obligations.DecodeErrors : Prop :=
  (∀ (s : State) (out : Text) (rest : Bits), s.tableValid = true → PrefixFree (codeEntries s.table) →
    WindowsFit s .decode → payloadBits s.mem s.srcAddr.toNat s.bitLen.toNat = codesOf s.table out ++ rest →
    (∀ x ∈ out, symGet s.table.len x ≠ 0) → (∀ e ∈ codeEntries s.table, ¬ e.2 <+: rest) →
    rest ≠ [] → s.legacyTrunc = false → out.length ≤ s.dstCap.toNat →
    ∃ t, exec .decode s = .next t ∧ t.err = .truncatedStream) ∧
  (∀ (s : State) (out : Text) (x : Byte) (rest : Bits), s.tableValid = true →
    PrefixFree (codeEntries s.table) → WindowsFit s .decode →
    payloadBits s.mem s.srcAddr.toNat s.bitLen.toNat = codesOf s.table (out ++ [x]) ++ rest →
    (∀ y ∈ out ++ [x], symGet s.table.len y ≠ 0) → out.length = s.dstCap.toNat →
    ∃ t, exec .decode s = .next t ∧ t.err = .capacityExceeded)

/-! ## SERIALIZE and PARSE -/

/-- 44_persistence.md R240 to R243: SERIALIZE writes the artifact of the table, lines in ascending ordinal order, and of
the payload at DST_ADDR, sets OUT_LEN to its length and changes nothing else; an artifact longer than DST_CAP fails with
CAPACITY_EXCEEDED; the length is 4 + BIT_LEN + the sum over the present s of |Dec(s)| + |code(s)| + 2. -/
def Obligations.SerializeCompletes : Prop :=
  ∀ (s : State) (T : Text), Memory.wf s.mem → s.tableValid = true → WindowsFit s .serialize →
    T = artifactText (tableLines s.table) (payloadBits s.mem s.srcAddr.toNat s.bitLen.toNat) →
    (T.length ≤ s.dstCap.toNat →
      ∃ m, exec .serialize s = .next (committed { s with mem := m } .ok (BitVec.ofNat 32 T.length)) ∧
        bytesAt m s.dstAddr.toNat T.length = T ∧ SameMemOutside s.dstAddr.toNat T.length s.mem m) ∧
    (s.dstCap.toNat < T.length → ∃ t, exec .serialize s = .next t ∧ t.err = .capacityExceeded) ∧
    T.length = 4 + s.bitLen.toNat +
      ((tableLines s.table).map fun e => (ordinalText e.1).length + e.2.length + 2).sum

/-- 44_persistence.md R252: "a line is accepted exactly when it is Dec(s) " " code "\n" with 1 <= |code| <= 255". -/
def Obligations.ParseLineExact : Prop :=
  ∀ (A : Text) (s : Byte) (c : Bits) (rest : Text),
    parseLine A = .ok (s, c, rest) ↔ A = lineText (s, c) ++ rest ∧ 1 ≤ c.length ∧ c.length ≤ 255

/-- 44_persistence.md R250, R253: PARSE of an artifact with good lines, whatever their order, loads exactly those codes,
writes the payload in the packed form, sets BIT_LEN, OUT_LEN and TABLE_VALID, and changes nothing else. -/
def Obligations.ParseCompletes : Prop :=
  ∀ (s : State) (E : List (Byte × Bits)) (payload : Bits), Memory.wf s.mem → WindowsFit s .parse → LinesOk E →
    s.input = artifactText E payload → ceil8 payload.length ≤ s.dstCap.toNat →
    ∃ m C, exec .parse s = .next (committed { s with
        mem := m, table := C, tableValid := true, bitLen := BitVec.ofNat 32 payload.length } .ok
        (BitVec.ofNat 32 (ceil8 payload.length))) ∧
      (∀ e ∈ E, code C e.1 = e.2) ∧ (∀ x, (∀ e ∈ E, e.1 ≠ x) → symGet C.len x = 0) ∧ NoStrayBits C ∧
      PayloadIs m s.dstAddr.toNat payload ∧ SameMemOutside s.dstAddr.toNat (ceil8 payload.length) s.mem m

/-- 44_persistence.md R250 to R253, 60_exceptions.md R283: an input that does not begin with good lines and the sentinel
fails with MALFORMED_ARTIFACT, whatever DST_CAP is; and so does an input that is no artifact with good lines, when no
payload could be too long for the destination window. -/
def Obligations.ParseRejects : Prop :=
  (∀ s : State, WindowsFit s .parse →
    (¬ ∃ E rest, LinesOk E ∧ s.input = E.flatMap lineText ++ [0x3D, 0x3D, 0x3D, 0x0A] ++ rest) →
    ∃ t, exec .parse s = .next t ∧ t.err = .malformedArtifact) ∧
  (∀ s : State, WindowsFit s .parse → ceil8 s.srcLen.toNat ≤ s.dstCap.toNat →
    (¬ ∃ E payload, LinesOk E ∧ s.input = artifactText E payload) →
    ∃ t, exec .parse s = .next t ∧ t.err = .malformedArtifact)

/-- 44_persistence.md R250, 60_exceptions.md R289: the first payload byte that fails decides the error: one that is not
'0' or '1' gives MALFORMED_ARTIFACT, one that is and does not fit gives CAPACITY_EXCEEDED. -/
def Obligations.ParsePayloadErrors : Prop :=
  ∀ (s : State) (E : List (Byte × Bits)) (pre : Bits) (x : Byte) (post : Text), WindowsFit s .parse → LinesOk E →
    s.input = artifactText E pre ++ x :: post → ceil8 pre.length ≤ s.dstCap.toNat →
    ∃ t, exec .parse s = .next t ∧
      (x ≠ 0x30 → x ≠ 0x31 → t.err = .malformedArtifact) ∧
      (x = 0x30 ∨ x = 0x31 → s.dstCap.toNat < ceil8 (pre.length + 1) → t.err = .capacityExceeded)

/-! ## Who may write what -/

/-- 10_state.md R55: "Only BUILD writes NODE, and only CLEAR and reset empty it. The host cannot write it." -/
def Obligations.OnlyBuildClearResetChangeTree : Prop :=
  ∀ s t : State, step s = .next t → t.tree ≠ s.tree →
    (∃ v i, nextAgent s = .engine v ∧ decode v = .ok i ∧ (i = .build ∨ i = .clear)) ∨
    (∃ rest, nextAgent s = .host .reset rest)

/-- 10_state.md R60: "Only DERIVE, PARSE, CLEAR and reset write it". -/
def Obligations.OnlyDeriveParseClearResetChangeTable : Prop :=
  ∀ s t : State, step s = .next t → t.table ≠ s.table →
    (∃ v i, nextAgent s = .engine v ∧ decode v = .ok i ∧ (i = .derive ∨ i = .parse ∨ i = .clear)) ∨
    (∃ rest, nextAgent s = .host .reset rest)

/-- 10_state.md R24, R31: ERR and OUT_LEN change at a commit or at reset only; an accepted CMD write does not change
them. -/
def Obligations.OnlyCommitOrResetChangesResult : Prop :=
  ∀ s t : State, step s = .next t → (t.err ≠ s.err ∨ t.outLen ≠ s.outLen) →
    (∃ v, nextAgent s = .engine v ∧ t.done = true ∧ t.latched = none) ∨
    (∃ rest, nextAgent s = .host .reset rest)

/-! ## The host's side -/

/-- 10_state.md R39, 40_control.md R135: while BUSY = 1 a write to CMD, CTRL, an operand register or FREQ changes
nothing and sets OVERRUN. -/
def Obligations.BusyWritesSetOverrun : Prop :=
  ∀ (s : State) (off : Nat) (v : Word), s.busy = true →
    (off ∈ [0x014, 0x008, 0x018, 0x01C, 0x020, 0x024, 0x028] ∨ ∃ k < 256, off = 0x400 + 4 * k) →
    hostStep s (.wr off 4 v) = .next { s with overrun := true }

/-- 10_state.md R40, 20_memory.md R94: a register read, by offset or by name (log 21), records the current value and
changes nothing; while BUSY = 1 that holds for ID, CTRL, STATUS, ERR, CMD, SRC_ADDR, SRC_LEN, DST_ADDR and DST_CAP, and
any other register not reserved records some value, of which nothing is said. -/
def Obligations.RegisterReads : Prop :=
  (∀ (s : State) (off : Nat), off % 4 = 0 → off < 0x4000 →
    (s.busy = false ∨ off ∈ [0x000, 0x008, 0x00C, 0x010, 0x014, 0x018, 0x01C, 0x020, 0x024] →
      ReadGives s off (regValue s (regAt s.highMap off))) ∧
    ∃ v d, hostStep s (.rd off 4) = .next { s with recorded := .reg off v :: s.recorded, draws := d }) ∧
  (∀ (s : State) (r : Reg),
    (s.busy = false ∨
        r ∈ [Reg.id, .ctrl, .status, .err, .cmd, .srcAddr, .srcLen, .dstAddr, .dstCap] →
      NamedReadGives s r (regValue s r)) ∧
    ∃ v d, hostStep s (.rdReg r) = .next { s with recorded := .reg (regOffset r) v :: s.recorded, draws := d })

/-- 10_state.md R21 to R31, R35 to R37, R40, R50, R60: what each of these registers reads as, the first nine at any
time (STATUS bit 0 is 1 while a command is in flight), the others while BUSY = 0. -/
def Obligations.RegisterValues : Prop :=
  ∀ s : State,
    ReadGives s 0x000 0x48544231 ∧
    ReadGives s 0x008 (BitVec.ofNat 32 (s.legacyTrunc.toNat + 2 * s.irqEn.toNat)) ∧
    ReadGives s 0x00C (BitVec.ofNat 32 (s.busy.toNat + 2 * s.done.toNat + 4 * s.overrun.toNat
      + 8 * s.treeValid.toNat + 16 * s.tableValid.toNat)) ∧
    ReadGives s 0x010 (BitVec.ofNat 32 s.err.code.toNat) ∧
    ReadGives s 0x014 0 ∧
    ReadGives s 0x018 s.srcAddr ∧ ReadGives s 0x01C s.srcLen ∧
    ReadGives s 0x020 s.dstAddr ∧ ReadGives s 0x024 s.dstCap ∧
    (s.busy = false →
      ReadGives s 0x028 s.bitLen ∧ ReadGives s 0x02C s.outLen ∧
      ReadGives s 0x03C (BitVec.ofNat 32 s.tree.count.toNat) ∧
      ReadGives s 0x040 (BitVec.ofNat 32 s.tree.root.toNat) ∧
      ReadGives s 0x044 s.tree.weight ∧
      ∀ sym : Byte, ReadGives s (0x400 + 4 * sym.toNat) (symGet s.freq sym) ∧
        ReadGives s (0x800 + 4 * sym.toNat) (BitVec.ofNat 32 (symGet s.table.len sym).toNat))

/-- 10_state.md R26 to R30: while BUSY = 0 the host's write of an operand register stores the value there and changes
nothing else. -/
def Obligations.OperandWritesStore : Prop :=
  ∀ (s : State) (v : Word), s.busy = false →
    hostStep s (.wr 0x018 4 v) = .next { s with srcAddr := v } ∧
    hostStep s (.wr 0x01C 4 v) = .next { s with srcLen := v } ∧
    hostStep s (.wr 0x020 4 v) = .next { s with dstAddr := v } ∧
    hostStep s (.wr 0x024 4 v) = .next { s with dstCap := v } ∧
    hostStep s (.wr 0x028 4 v) = .next { s with bitLen := v }

/-- 10_state.md R51: while BUSY = 0 the host's write of FREQ[s] stores the value there and changes nothing else: not
another count, not the tree, not the code table; and COUNT changes neither the tree nor the code table. -/
def Obligations.FreqWriteStores : Prop :=
  (∀ (s : State) (sym : Byte) (v : Word), s.busy = false →
    ∃ f, hostStep s (.wr (0x400 + 4 * sym.toNat) 4 v) = .next { s with freq := f } ∧
      ∀ x, symGet f x = if x = sym then v else symGet s.freq x) ∧
  (∀ s t : State, exec .count s = .next t → t.tree = s.tree ∧ t.treeValid = s.treeValid ∧
    t.table = s.table ∧ t.tableValid = s.tableValid)

/-- 10_state.md R22, R23: a CTRL write while BUSY = 0 sets LEGACY_TRUNC and IRQ_EN from bits 0 and 1 and CTRL then reads
those bits alone; a STATUS write at any time clears DONE and OVERRUN where a 1 is written and changes nothing else. -/
def Obligations.CtrlAndStatusWrites : Prop :=
  (∀ (s : State) (v : Word), s.busy = false →
    ∃ t, hostStep s (.wr 0x008 4 v) = .next t ∧
      t = { s with legacyTrunc := v.getLsbD 0, irqEn := v.getLsbD 1 } ∧ regValue t .ctrl = v &&& 3) ∧
  (∀ (s : State) (v : Word),
    ∃ t, hostStep s (.wr 0x00C 4 v) = .next t ∧ t = { s with done := t.done, overrun := t.overrun } ∧
      regValue t .status = regValue s .status &&& ~~~ (v &&& 6))

/-- 10_state.md R38, R21: a write to a read-only register or to a reserved offset changes nothing, at any time, and a
reserved offset reads 0, at any time. That 0x2FF8 and 0x2FFC are reserved, as one row of R20 has it and another has not,
is the model's choice (log 9), and holds where the upper map is NODE's. -/
def Obligations.ReadOnlyAndReserved : Prop :=
  (∀ (s : State) (off : Nat) (v : Word), off % 4 = 0 → off < 0x4000 →
    off ∉ [0x014, 0x008, 0x00C, 0x018, 0x01C, 0x020, 0x024, 0x028] → ¬ (0x400 ≤ off ∧ off < 0x800) →
    hostStep s (.wr off 4 v) = .next s) ∧
  (∀ (s : State) (off : Nat), off % 4 = 0 →
    (off = 0x004 ∨ (0x048 ≤ off ∧ off < 0x400) ∨ (0xC00 ≤ off ∧ off < 0x1000) ∨ (0x3000 ≤ off ∧ off < 0x4000) ∨
      (s.highMap = .node ∧ 0x2FF8 ≤ off ∧ off < 0x3000)) →
    hostStep s (.rd off 4) = .next { s with recorded := .reg off 0 :: s.recorded })

/-- 10_state.md R20: a register access that is not a 32-bit one, is not aligned or lies outside REG is the model fault
HOST_BAD_ACCESS; and a host MEM access at MEM_SIZE or above is the fault hostOutsideMem (the model's choice, log 8). -/
def Obligations.BadHostAccessFaults : Prop :=
  (∀ (s : State) (off size : Nat) (v : Word), (size ≠ 4 ∨ off % 4 ≠ 0 ∨ 0x4000 ≤ off) →
    hostStep s (.rd off size) = .fault .hostBadAccess ∧ hostStep s (.wr off size v) = .fault .hostBadAccess) ∧
  (∀ (s : State) (a : Nat) (v : Byte), s.memSize ≤ a →
    hostStep s (.memRd a) = .fault .hostOutsideMem ∧ hostStep s (.memWr a v) = .fault .hostOutsideMem)

/-- 00_scope.md R7: no step is refused, and only a host access to REG or MEM can end in a model fault: the engine step
never does. -/
def Obligations.OnlyHostAccessesFault : Prop :=
  ∀ s : State, (∀ r, step s ≠ .refused r) ∧
    ∀ f, step s = .fault f → ∃ h rest, nextAgent s = .host h rest ∧ h ≠ .wait ∧ h ≠ .reset ∧ ∀ r, h ≠ .rdReg r

/-- 20_memory.md R90, R91: a host MEM access inside a window of the command in flight is the model fault HOST_RACE; any
other access to an address that exists has its ordinary effect. -/
def Obligations.HostMemAccess : Prop :=
  ∀ (s : State) (a : Nat) (v : Byte), Memory.wf s.mem → a < s.memSize →
    ((∃ c i w, s.latched = some c ∧ decode c = .ok i ∧ (srcWindow s i = some w ∨ dstWindow s i = some w) ∧
        w.Contains a) →
      hostStep s (.memRd a) = .fault .hostRace ∧ hostStep s (.memWr a v) = .fault .hostRace) ∧
    ((∀ c i w, s.latched = some c → decode c = .ok i → srcWindow s i = some w ∨ dstWindow s i = some w →
        ¬ w.Contains a) →
      hostStep s (.memRd a) = .next { s with recorded := .byte a (Memory.read s.mem a) :: s.recorded } ∧
      ∃ m, hostStep s (.memWr a v) = .next { s with mem := m } ∧
        ∀ x, Memory.read m x = if x = a then v else Memory.read s.mem x)

/-- 40_control.md R130: a CMD write while BUSY = 0, of any word, latches the word, sets BUSY, clears DONE and changes
nothing else (the delay and the draw counter are the model's own, log 4, log 5). -/
def Obligations.IssueLatchesTheWord : Prop :=
  ∀ (s : State) (v : Word), s.busy = false →
    ∃ t, hostStep s (.wr 0x014 4 v) = .next t ∧ t.busy = true ∧
      t = { s with latched := some v, done := false, delay := t.delay, draws := t.draws }

/-- 70_reset_and_hazards.md R310, R311: reset gives every register its reset value and leaves MEM as it was, but for the
destination window of an abandoned command. The host's list, its recorded reads, MEM_SIZE, the upper register map and
the draw counter are the model's own and stay (log 10). -/
def Obligations.ResetSignal : Prop :=
  ∀ s : State, ∃ m d, hostStep s .reset = .next { State.reset with
      mem := m, memSize := s.memSize, highMap := s.highMap, host := s.host, recorded := s.recorded, draws := d } ∧
    (s.busy = false → m = s.mem) ∧
    ∀ a, (∀ v i w, s.latched = some v → decode v = .ok i → dstWindow s i = some w → ¬ w.Contains a) →
      Memory.read m a = Memory.read s.mem a

/-- 70_reset_and_hazards.md R310, 10_state.md R20: after reset ID reads 0x48544231 and every other offset of REG
reads 0. -/
def Obligations.ResetReads : Prop :=
  ∀ off, off % 4 = 0 → off < 0x4000 →
    hostStep State.reset (.rd off 4) =
      .next { State.reset with recorded := [.reg off (if off = 0 then 0x48544231 else 0)] }

/-- 60_exceptions.md R290: IRQ is CTRL.IRQ_EN and STATUS.DONE; every commit raises it when enabled, and DONE goes from 0
to 1 at a commit only; clearing DONE or issuing a command clears it; clearing IRQ_EN masks it and keeps DONE. -/
def Obligations.InterruptLine : Prop :=
  (∀ s : State, s.irq = ((regValue s .ctrl).getLsbD 1 && (regValue s .status).getLsbD 1)) ∧
  (∀ (s t : State) (v : Word), execute v s = .next t → t.done = true ∧ t.irq = s.irqEn) ∧
  (∀ s t : State, step s = .next t → s.done = false → t.done = true → ∃ v, nextAgent s = .engine v) ∧
  (∀ (s t : State) (v : Word), v.getLsbD 1 = true → hostStep s (.wr 0x00C 4 v) = .next t → t.irq = false) ∧
  (∀ (s t : State) (v : Word), s.busy = false → hostStep s (.wr 0x014 4 v) = .next t → t.irq = false) ∧
  (∀ (s t : State) (v : Word), s.busy = false → v.getLsbD 1 = false → hostStep s (.wr 0x008 4 v) = .next t →
    t.irq = false ∧ t.done = s.done)

/-- 10_state.md R56, 60_exceptions.md R297: while BUSY = 0 the host reads the two words of NODE[k] by name in every state
(log 21), and at their offsets where the upper map is NODE's: R61 gives those offsets to CODE_VEC[128..255] as well (the
model's choice, log 9). -/
def Obligations.NodeReadback : Prop :=
  ∀ (s : State) (k : NodeIdx), s.busy = false → k.toNat ≤ 510 →
    ∃ w0 w1 : Word, NodeWordsAre (s.tree.at k.toNat) w0 w1 ∧
      NamedReadGives s (.nodeWord0 k) w0 ∧ NamedReadGives s (.nodeWord1 k) w1 ∧
      (s.highMap = .node → ReadGives s (0x2000 + 8 * k.toNat) w0 ∧ ReadGives s (0x2004 + 8 * k.toNat) w1)

/-- 10_state.md R61, 60_exceptions.md R297: while BUSY = 0 the host reads word k of CODE_VEC[s] by name in every state
(log 21), and at its offset for s < 128, and for s >= 128 where the upper map is CODE_VEC's: R56 gives those offsets to
NODE as well (the model's choice, log 9). Bit j of the word is code bit 32k + j, and 0 past the code's end. -/
def Obligations.CodeVecReadback : Prop :=
  ∀ (s : State) (sym : Byte) (k : BitVec 3), s.busy = false → NoStrayBits s.table →
    ∃ v : Word, NamedReadGives s (.codeVec sym k) v ∧
      (sym.toNat < 128 ∨ s.highMap = .codeVec → ReadGives s (0x1000 + 32 * sym.toNat + 4 * k.toNat) v) ∧
      ∀ j < 32, v.getLsbD j = (code s.table sym).getD (32 * k.toNat + j) false

/-- 10_state.md R32 to R34: while BUSY = 0, FREQ_N and TABLE_N read the number of symbols with a count and with a code,
and MAX_LEN reads the largest CODE_LEN, 0 when every one is 0. -/
def Obligations.DerivedCounts : Prop :=
  ∀ s : State, s.busy = false → ∃ n t m : Word,
    (ReadGives s 0x030 n ∧ n.toNat = (symbols.filter fun x => symGet s.freq x ≠ 0).length) ∧
    (ReadGives s 0x034 t ∧ t.toNat = (symbols.filter fun x => symGet s.table.len x ≠ 0).length) ∧
    ReadGives s 0x038 m ∧ (∀ x, (symGet s.table.len x).toNat ≤ m.toNat) ∧
    (m = 0 ∨ ∃ x, (symGet s.table.len x).toNat = m.toNat)

/-! ## Invariants -/

/-- The state after reset meets every invariant. -/
def Obligations.ResetMeetsInvariants : Prop := Inv State.reset

/-- 20_memory.md R80, R85: every step keeps MEM in canonical form and inside 0..MEM_SIZE-1, and keeps MEM_SIZE and the upper
register map (log 9). -/
def Obligations.StepKeepsMemory : Prop :=
  ∀ s t : State, MemOk s → step s = .next t → MemOk t ∧ t.memSize = s.memSize ∧ t.highMap = s.highMap

/-- 10_state.md R57, marked [derived] in the spec: every step keeps the tree invariant. -/
def Obligations.StepKeepsTree : Prop :=
  ∀ s t : State, TreeOk s → step s = .next t → TreeOk t

/-- 10_state.md R61, and R62, marked [derived] in the spec: every step keeps the table invariant, when the tree invariant holds. -/
def Obligations.StepKeepsTable : Prop :=
  ∀ s t : State, TreeOk s → TableOk s → step s = .next t → TableOk t

/-- 70_reset_and_hazards.md R324, marked [derived] in the spec: every step keeps DONE = 0 while BUSY = 1 (and the model's delay at
0 while BUSY = 0, log 4). -/
def Obligations.StepKeepsBusyDone : Prop :=
  ∀ s t : State, BusyOk s → step s = .next t → BusyOk t

/-- 40_control.md R130, 70_reset_and_hazards.md R333: while a command is in flight the next step is the engine's, or it
is one of the finitely many host steps of the delay (log 4), and no host step but reset takes the command away. -/
def Obligations.EngineStepNotDisabled : Prop :=
  ∀ (s : State) (v : Word), s.latched = some v →
    nextAgent s = .engine v ∨
    ∃ h rest, nextAgent s = .host h rest ∧ 0 < s.delay ∧
      ∀ t, step s = .next t →
        (t.latched = some v ∧ t.delay = s.delay - 1) ∨ (h = .reset ∧ t.latched = none)

/-! ## Headline results -/

/-- 95_test_vectors.md L1.1: DECODE of ENCODE's output under the same prefix-free table gives the input back. -/
def Obligations.CodecRoundTrip : Prop :=
  ∀ (s : State) (bits : Bits) (dst cap : Word), Memory.wf s.mem → s.tableValid = true → TableOk s →
    WindowsFit s .encode → (∀ x ∈ s.input, symGet s.table.len x ≠ 0) → bits = codesOf s.table s.input →
    bits.length ≤ 2 ^ 32 - 1 → ceil8 bits.length ≤ s.dstCap.toNat →
    Window.Valid ⟨dst.toNat, cap.toNat⟩ s.memSize →
    ¬ Window.Overlap ⟨s.dstAddr.toNat, ceil8 bits.length⟩ ⟨dst.toNat, cap.toNat⟩ →
    s.srcLen.toNat ≤ cap.toNat →
    ∃ t u, exec .encode s = .next t ∧ t.err = .ok ∧
      exec .decode { t with srcAddr := s.dstAddr, dstAddr := dst, dstCap := cap } = .next u ∧ u.err = .ok ∧
      u.outLen = s.srcLen ∧ bytesAt u.mem dst.toNat s.srcLen.toNat = s.input

/-- 44_persistence.md R254, marked (derived) in the spec: SERIALIZE then PARSE gives the same table, the same BIT_LEN and the same payload bits, with
the padding set to 0. -/
def Obligations.ArtifactRoundTrip : Prop :=
  ∀ (s : State) (T : Text) (dst cap : Word), Memory.wf s.mem → s.tableValid = true → TableOk s →
    WindowsFit s .serialize →
    T = artifactText (tableLines s.table) (payloadBits s.mem s.srcAddr.toNat s.bitLen.toNat) →
    T.length ≤ s.dstCap.toNat → Window.Valid ⟨dst.toNat, cap.toNat⟩ s.memSize →
    ¬ Window.Overlap ⟨s.dstAddr.toNat, T.length⟩ ⟨dst.toNat, cap.toNat⟩ →
    ceil8 s.bitLen.toNat ≤ cap.toNat →
    ∃ t u, exec .serialize s = .next t ∧ t.err = .ok ∧
      exec .parse { t with srcAddr := s.dstAddr, srcLen := t.outLen, dstAddr := dst, dstCap := cap } = .next u ∧
      u.err = .ok ∧ u.table = s.table ∧ u.bitLen = s.bitLen ∧
      PayloadIs u.mem dst.toNat (payloadBits s.mem s.srcAddr.toNat s.bitLen.toNat)

/-- 70_reset_and_hazards.md R321: COUNT, BUILD and DERIVE of a non-empty input all succeed and leave a table that gives
every symbol of the input a code and no other symbol one. -/
def Obligations.PipelineCodesItsInput : Prop :=
  ∀ s : State, s.srcBytesWindow.Valid s.memSize → s.input ≠ [] →
    ∃ a b c, exec .count s = .next a ∧ a.err = .ok ∧ exec .build a = .next b ∧ b.err = .ok ∧
      exec .derive b = .next c ∧ c.err = .ok ∧ TreeOk c ∧ TableOk c ∧
      ∀ x, symGet c.table.len x ≠ 0 ↔ x ∈ s.input

/-- 41_tree_builder.md R159: the tree BUILD makes has minimum weighted path length among all strict binary trees whose
leaves are the symbols of FREQ: the code lengths DERIVE reads off it weigh no more than any of them. -/
def Obligations.BuildIsOptimal : Prop :=
  ∀ (s b c : State) (T : BinTree), 2 ≤ freqN s.freq → exec .build s = .next b → b.err = .ok →
    exec .derive b = .next c → T.leaves.Perm (symbols.filter fun x => symGet s.freq x ≠ 0) →
    codedWeight s.freq c.table ≤ T.pathWeight s.freq 0
end

