-- ==== Sys2Proof/Laws/Memory.lean ====
section
/-! SUPPORT. The laws of MEM: what a read sees after a write, and that every memory operation keeps the canonical
form and the bound on addresses. -/

namespace Sys2Proof.Machine

@[simp] theorem Memory.read_nil (a : Nat) : Memory.read [] a = unlistedByte := rfl

theorem Memory.read_cons (b : Nat) (v : Byte) (m : Memory) (a : Nat) :
    Memory.read ((b, v) :: m) a = if b = a then v else Memory.read m a := rfl

/-- An address below every listed one is not listed. -/
theorem Memory.read_of_below {m : Memory} {a : Nat} (h : ∀ c ∈ m, a < c.1) : Memory.read m a = unlistedByte := by
  induction m with
  | nil => rfl
  | cons c m ih =>
    obtain ⟨b, v⟩ := c
    have hb : a < b := h (b, v) (by simp)
    rw [Memory.read_cons, if_neg (by omega)]
    exact ih fun c hc => h c (by simp [hc])

/-- Read after write, in one line: the written address gives the value, every other one what it gave before. -/
theorem Memory.read_write {m : Memory} (hm : Memory.wf m) (a : Nat) (v : Byte) (x : Nat) :
    Memory.read (Memory.write m a v) x = if x = a then v else Memory.read m x := by
  induction m with
  | nil =>
    by_cases hx : x = a <;> by_cases hv : v = unlistedByte <;>
      simp [Memory.write, Memory.read_cons, hx, hv, eq_comm]
    intro h
    exact absurd h.symm hx
  | cons c m ih =>
    obtain ⟨b, w⟩ := c
    obtain ⟨hord, hne⟩ := hm
    have hcons := List.pairwise_cons.1 hord
    have hbelow : ∀ c ∈ m, b < c.1 := hcons.1
    have hm' : Memory.wf m := ⟨hcons.2, fun c hc => hne c (by simp [hc])⟩
    rw [Memory.write]
    rcases lt_trichotomy a b with h | rfl | h
    · rw [if_pos h]
      by_cases hx : x = a
      · subst hx
        rw [if_pos rfl]
        by_cases hv : v = unlistedByte
        · rw [if_pos hv, hv]
          refine Memory.read_of_below fun c hc => ?_
          rcases List.mem_cons.1 hc with rfl | hc
          · exact h
          · exact lt_trans h (hbelow c hc)
        · rw [if_neg hv, Memory.read_cons, if_pos rfl]
      · rw [if_neg hx]
        by_cases hv : v = unlistedByte
        · rw [if_pos hv]
        · rw [if_neg hv, Memory.read_cons, if_neg (Ne.symm hx)]
    · rw [if_neg (lt_irrefl a), if_pos rfl]
      by_cases hx : x = a
      · subst hx
        rw [if_pos rfl]
        by_cases hv : v = unlistedByte
        · rw [if_pos hv, hv]
          exact Memory.read_of_below hbelow
        · rw [if_neg hv, Memory.read_cons, if_pos rfl]
      · rw [if_neg hx, Memory.read_cons, if_neg (Ne.symm hx)]
        by_cases hv : v = unlistedByte
        · rw [if_pos hv]
        · rw [if_neg hv, Memory.read_cons, if_neg (Ne.symm hx)]
    · rw [if_neg (by omega), if_neg (by omega), Memory.read_cons, Memory.read_cons, ih hm']
      by_cases hb : b = x
      · rw [if_pos hb, if_neg (by omega), if_pos hb]
      · rw [if_neg hb, if_neg hb]

/-- A write leaves every other address alone, in any list of entries. -/
theorem Memory.read_write_other (m : Memory) {a x : Nat} (v : Byte) (hx : x ≠ a) :
    Memory.read (Memory.write m a v) x = Memory.read m x := by
  induction m with
  | nil =>
    rw [Memory.write]
    by_cases hv : v = unlistedByte
    · rw [if_pos hv]
    · rw [if_neg hv, Memory.read_cons, if_neg (Ne.symm hx)]
  | cons c m ih =>
    obtain ⟨b, w⟩ := c
    rw [Memory.write]
    by_cases h1 : a < b
    · rw [if_pos h1]
      by_cases hv : v = unlistedByte
      · rw [if_pos hv]
      · rw [if_neg hv, Memory.read_cons, if_neg (Ne.symm hx)]
    · rw [if_neg h1]
      by_cases h2 : a = b
      · subst h2
        rw [if_pos rfl, Memory.read_cons, if_neg (Ne.symm hx)]
        by_cases hv : v = unlistedByte
        · rw [if_pos hv]
        · rw [if_neg hv, Memory.read_cons, if_neg (Ne.symm hx)]
      · rw [if_neg h2, Memory.read_cons, Memory.read_cons, ih]

/-- Writing a run of bytes leaves every address outside it alone, in any list of entries. -/
theorem Memory.read_writeBytes_other (m : Memory) (a : Nat) (bs : Text) {x : Nat}
    (hx : ¬ (a ≤ x ∧ x < a + bs.length)) : Memory.read (Memory.writeBytes m a bs) x = Memory.read m x := by
  induction bs generalizing m a with
  | nil => rfl
  | cons v vs ih =>
    rw [List.length_cons] at hx
    rw [Memory.writeBytes, ih _ _ (by omega), Memory.read_write_other m v (by omega)]

/-- A write lists no address but the written one and those listed before. -/
theorem Memory.mem_write {m : Memory} {a : Nat} {v : Byte} {c : Host.Cell} (hc : c ∈ Memory.write m a v) :
    (c = (a, v) ∧ v ≠ unlistedByte) ∨ c ∈ m := by
  induction m with
  | nil =>
    rw [Memory.write] at hc
    split_ifs at hc with hv
    · cases hc
    · exact .inl ⟨by simpa using hc, hv⟩
  | cons d m ih =>
    obtain ⟨b, w⟩ := d
    rw [Memory.write] at hc
    split_ifs at hc with h1 h2 h3 h4
    · exact .inr hc
    · rcases List.mem_cons.1 hc with rfl | hc
      · exact .inl ⟨rfl, h2⟩
      · exact .inr hc
    · exact .inr (by simp [hc])
    · rcases List.mem_cons.1 hc with rfl | hc
      · exact .inl ⟨rfl, h4⟩
      · exact .inr (by simp [hc])
    · rcases List.mem_cons.1 hc with rfl | hc
      · exact .inr (by simp)
      · rcases ih hc with h | h
        · exact .inl h
        · exact .inr (by simp [h])

/-- A write keeps the canonical form. -/
theorem Memory.write_wf {m : Memory} (hm : Memory.wf m) (a : Nat) (v : Byte) : Memory.wf (Memory.write m a v) := by
  refine ⟨?_, fun c hc => ?_⟩
  · induction m with
    | nil =>
      rw [Memory.write]
      split_ifs <;> simp
    | cons d m ih =>
      obtain ⟨b, w⟩ := d
      obtain ⟨hord, hne⟩ := hm
      have hcons := List.pairwise_cons.1 hord
      rw [Memory.write]
      split_ifs with h1 h2 h3 h4
      · exact hord
      · refine List.pairwise_cons.2 ⟨fun c hc => ?_, hord⟩
        rcases List.mem_cons.1 hc with rfl | hc
        · exact h1
        · exact lt_trans h1 (hcons.1 c hc)
      · exact hcons.2
      · subst h3
        exact List.pairwise_cons.2 hcons
      · refine List.pairwise_cons.2 ⟨fun c hc => ?_, ih ⟨hcons.2, fun c hc => hne c (by simp [hc])⟩⟩
        rcases Memory.mem_write hc with ⟨rfl, -⟩ | hc
        · show b < a
          omega
        · exact hcons.1 c hc
  · rcases Memory.mem_write hc with ⟨rfl, hv⟩ | hc
    · exact hv
    · exact hm.2 c hc

/-- Writing a run of bytes keeps the canonical form. -/
theorem Memory.writeBytes_wf {m : Memory} (hm : Memory.wf m) (a : Nat) (bs : Text) :
    Memory.wf (Memory.writeBytes m a bs) := by
  induction bs generalizing m a with
  | nil => exact hm
  | cons v vs ih => exact ih (Memory.write_wf hm a v) (a + 1)

/-- Read after writing a run of bytes: inside the run the byte written there, outside what was there before. -/
theorem Memory.read_writeBytes {m : Memory} (hm : Memory.wf m) (a : Nat) (bs : Text) (x : Nat) :
    Memory.read (Memory.writeBytes m a bs) x =
      if a ≤ x ∧ x < a + bs.length then bs.getD (x - a) 0 else Memory.read m x := by
  induction bs generalizing m a with
  | nil =>
    rw [Memory.writeBytes, if_neg (by simp)]
  | cons v vs ih =>
    rw [Memory.writeBytes, ih (Memory.write_wf hm a v), Memory.read_write hm]
    by_cases h1 : x = a
    · subst h1
      simp
    · by_cases h2 : a + 1 ≤ x ∧ x < a + 1 + vs.length
      · obtain ⟨k, rfl⟩ : ∃ k, x = a + 1 + k := ⟨x - (a + 1), by omega⟩
        have e1 : a + 1 + k - (a + 1) = k := by omega
        have e2 : a + 1 + k - a = k + 1 := by omega
        rw [if_pos h2, if_pos (by simp; omega), e1, e2, List.getD_cons_succ]
      · rw [if_neg h2, if_neg h1, if_neg]
        simp
        omega

/-- A write inside a bound lists no address past it. -/
theorem Memory.write_inRange {m : Memory} {n a : Nat} {v : Byte} (hm : ∀ c ∈ m, c.1 < n) (ha : a < n) :
    ∀ c ∈ Memory.write m a v, c.1 < n := fun c hc => by
  rcases Memory.mem_write hc with ⟨rfl, -⟩ | hc
  · exact ha
  · exact hm c hc

/-- Writing a run of bytes inside a bound lists no address past it. -/
theorem Memory.writeBytes_inRange {m : Memory} {n a : Nat} {bs : Text} (hm : ∀ c ∈ m, c.1 < n)
    (ha : bs = [] ∨ a + bs.length ≤ n) : ∀ c ∈ Memory.writeBytes m a bs, c.1 < n := by
  induction bs generalizing m a with
  | nil => exact hm
  | cons v vs ih =>
    have hlen : a + 1 + vs.length ≤ n := by
      rcases ha with h | h
      · cases h
      · simpa [Nat.add_assoc, Nat.add_comm 1] using h
    exact ih (Memory.write_inRange hm (by omega)) (.inr hlen)

@[simp] theorem Memory.readBytes_length (m : Memory) (a n : Nat) : (Memory.readBytes m a n).length = n := by
  induction n generalizing a with
  | zero => rfl
  | succ n ih => simp [Memory.readBytes, ih]

/-- The bytes read are one read each. -/
theorem Memory.readBytes_eq_map (m : Memory) (a n : Nat) :
    Memory.readBytes m a n = (List.range n).map fun i => Memory.read m (a + i) := by
  induction n generalizing a with
  | zero => rfl
  | succ n ih =>
    rw [Memory.readBytes, ih, List.range_succ_eq_map, List.map_cons, List.map_map]
    simp [Function.comp_def, Nat.add_assoc, Nat.add_comm 1]

/-- Power-on memory is in canonical form. -/
theorem Memory.reset_wf : Memory.wf State.reset.mem := by
  simp [State.reset, Memory.wf]

end Sys2Proof.Machine
end

