-- ==== Sys2Proof/Laws/Operands.lean ====
section
/-! SUPPORT. The laws of the operand forms: arrays over the symbols, bit strings, codes, the packed payload. -/

namespace Sys2Proof.Machine

/-! ## Arrays over the symbols -/

theorem symGet_symSet {α : Type} (x : Vector α 256) (s : Byte) (v : α) (s' : Byte) :
    symGet (symSet x s v) s' = if s' = s then v else symGet x s' := by
  by_cases h : s' = s
  · subst h
    simp [symGet, symSet]
  · have hne : s.toNat ≠ s'.toNat := fun e => h (BitVec.eq_of_toNat_eq e.symm)
    simp [symGet, symSet, h, hne]

@[simp] theorem symGet_replicate {α : Type} (v : α) (s : Byte) : symGet (Vector.replicate 256 v) s = v := by
  simp [symGet]

/-- Two arrays with the same value at every symbol are equal. -/
theorem symGet_ext {α : Type} {x y : Vector α 256} (h : ∀ s, symGet x s = symGet y s) : x = y := by
  refine Vector.ext fun i hi => ?_
  have := h (BitVec.ofNat 8 i)
  simpa [symGet, Nat.mod_eq_of_lt hi] using this

@[simp] theorem mem_symbols (s : Byte) : s ∈ symbols := by
  rw [symbols, List.mem_map]
  exact ⟨s.toNat, List.mem_range.2 s.isLt, by simp⟩

/-- The symbols ascend (00_scope.md R3). -/
theorem symbols_sorted : symbols.Pairwise fun s s' => s.toNat < s'.toNat := by
  rw [symbols, List.pairwise_map]
  refine (List.pairwise_lt_range).imp_of_mem fun {a b} ha hb hab => ?_
  rw [List.mem_range] at ha hb
  simpa [Nat.mod_eq_of_lt ha, Nat.mod_eq_of_lt hb] using hab

/-! ## Bit strings -/

theorem ceil8_mul_le (n : Nat) : n ≤ 8 * ceil8 n := by
  rw [ceil8]
  omega

theorem ceil8_mul_lt (n : Nat) : 8 * ceil8 n < n + 8 := by
  rw [ceil8]
  omega

theorem ceil8_mono {m n : Nat} (h : m ≤ n) : ceil8 m ≤ ceil8 n := by
  rw [ceil8, ceil8]
  omega

theorem bitsToNat_lt (bits : Bits) : bitsToNat bits < 2 ^ bits.length := by
  induction bits with
  | nil => simp [bitsToNat]
  | cons b bs ih =>
    have hb : b.toNat ≤ 1 := Bool.toNat_le b
    rw [bitsToNat, List.length_cons, Nat.pow_succ]
    omega

/-- Bit i of the number is `bits[i]`. -/
theorem testBit_bitsToNat (bits : Bits) (i : Nat) : (bitsToNat bits).testBit i = bits.getD i false := by
  induction bits generalizing i with
  | nil => simp [bitsToNat]
  | cons b bs ih =>
    have hb : b.toNat ≤ 1 := Bool.toNat_le b
    cases i with
    | zero =>
      rw [bitsToNat, List.getD_cons_zero, Nat.testBit_zero]
      cases b <;> simp
    | succ i =>
      rw [bitsToNat, List.getD_cons_succ, Nat.testBit_succ, ← ih]
      congr 1
      omega

theorem getLsbD_bitsToVec {bits : Bits} (h : bits.length ≤ 256) (i : Nat) :
    (bitsToVec bits).getLsbD i = bits.getD i false := by
  rw [bitsToVec, BitVec.getLsbD_ofNat, testBit_bitsToNat]
  by_cases hi : i < 256
  · simp [hi]
  · simp [hi, List.getElem?_eq_none (by omega : bits.length ≤ i)]

/-! ## The register map -/

/-- Outside 0x2000 to 0x2FFC the map does not depend on how the double row is read (log 9). -/
theorem regAt_low (m m' : HighMap) {off : Nat} (h : off < 0x2000 ∨ 0x3000 ≤ off) : regAt m off = regAt m' off := by
  have hh : ¬ (0x2000 ≤ off ∧ off < 0x3000) := by omega
  simp only [regAt, hh, if_false]

theorem regAt_high (m : HighMap) {off : Nat} (h : 0x2000 ≤ off) (h' : off < 0x3000) :
    regAt m off = highRegAt m off := by
  unfold regAt
  repeat rw [if_neg (by omega)]
  rw [if_pos ⟨h, h'⟩]

/-! ## Codes -/

@[simp] theorem code_length (t : CodeTable) (s : Byte) : (code t s).length = (symGet t.len s).toNat := by
  simp [code]

theorem recordCode_len (t : CodeTable) (e : Byte × Bits) (s : Byte) :
    symGet (recordCode t e).len s = if s = e.1 then BitVec.ofNat 8 e.2.length else symGet t.len s :=
  symGet_symSet _ _ _ _

theorem recordCode_vec (t : CodeTable) (e : Byte × Bits) (s : Byte) :
    symGet (recordCode t e).vec s = if s = e.1 then bitsToVec e.2 else symGet t.vec s :=
  symGet_symSet _ _ _ _

/-- Record stores the code it is given, and leaves the other symbols' (42_code_table.md R180). -/
theorem code_recordCode (t : CodeTable) (e : Byte × Bits) (h : e.2.length ≤ 255) (s : Byte) :
    code (recordCode t e) s = if s = e.1 then e.2 else code t s := by
  rw [code, recordCode_len, recordCode_vec]
  by_cases hs : s = e.1
  · simp only [hs, if_true]
    refine List.ext_getElem (by simp; omega) fun i h1 h2 => ?_
    rw [List.getElem_map, List.getElem_range, getLsbD_bitsToVec (by omega)]
    exact List.getD_eq_getElem _ _ h2
  · simp only [hs, if_false, code]

@[simp] theorem code_cleared (s : Byte) : code CodeTable.cleared s = [] := by
  simp [code, CodeTable.cleared]

/-- The present entries are the symbols with a code, each with it (10_state.md R60). -/
theorem mem_codeEntries {t : CodeTable} {e : Byte × Bits} :
    e ∈ codeEntries t ↔ symGet t.len e.1 ≠ 0 ∧ e.2 = code t e.1 := by
  obtain ⟨s, c⟩ := e
  simp only [codeEntries, List.mem_filterMap, mem_symbols, true_and]
  constructor
  · rintro ⟨s', h⟩
    split_ifs at h with h0
    simp only [Option.some.injEq, Prod.mk.injEq] at h
    obtain ⟨rfl, rfl⟩ := h
    exact ⟨h0, rfl⟩
  · rintro ⟨h0, rfl⟩
    exact ⟨s, if_neg h0⟩

/-! ## The packed payload -/

@[simp] theorem payloadBits_length (m : Memory) (p n : Nat) : (payloadBits m p n).length = n := by
  simp [payloadBits]

@[simp] theorem packedBytes_length (bits : Bits) : (packedBytes bits).length = ceil8 bits.length := by
  simp [packedBytes]

/-- Bit 7 - t of PackedByte(bits, j) is bit 8j + t of the payload, and 0 past its end (20_memory.md R87). -/
theorem packedByte_getLsbD (bits : Bits) (j t : Nat) (ht : t < 8) :
    (packedByte bits j).getLsbD (7 - t) = bits.getD (8 * j + t) false := by
  have key : ∀ b0 b1 b2 b3 b4 b5 b6 b7 : Bool, ∀ t < 8,
      (BitVec.ofNat 8 ([b0.toNat <<< 7, b1.toNat <<< 6, b2.toNat <<< 5, b3.toNat <<< 4, b4.toNat <<< 3,
        b5.toNat <<< 2, b6.toNat <<< 1, b7.toNat <<< 0].sum)).getLsbD (7 - t) =
      [b0, b1, b2, b3, b4, b5, b6, b7].getD t false := by decide
  have h := key (bits.getD (8 * j + 0) false) (bits.getD (8 * j + 1) false) (bits.getD (8 * j + 2) false)
    (bits.getD (8 * j + 3) false) (bits.getD (8 * j + 4) false) (bits.getD (8 * j + 5) false)
    (bits.getD (8 * j + 6) false) (bits.getD (8 * j + 7) false) t ht
  refine Eq.trans h ?_
  interval_cases t <;> rfl

/-- WritePacked then PayloadBit: the payload's bits come back, and the padding reads 0 (20_memory.md R86, R87). -/
theorem payloadBit_writePacked {m : Memory} (hm : Memory.wf m) (p : Nat) (bits : Bits) (i : Nat)
    (hi : i < 8 * ceil8 bits.length) :
    payloadBit (Memory.writeBytes m p (packedBytes bits)) p i = bits.getD i false := by
  have hj : i / 8 < ceil8 bits.length := by omega
  have e : 8 * (i / 8) + i % 8 = i := by omega
  rw [payloadBit, Memory.read_writeBytes hm, if_pos (by rw [packedBytes_length]; omega),
    Nat.add_sub_cancel_left, List.getD_eq_getElem _ _ (by rw [packedBytes_length]; exact hj)]
  simp only [packedBytes, List.getElem_map, List.getElem_range]
  rw [packedByte_getLsbD bits (i / 8) (i % 8) (by omega), e]

end Sys2Proof.Machine
end

