-- ==== Sys2Proof/Laws/State.lean ====
section
/-! SUPPORT. What each named update of the state leaves in each field: true by unfolding once, so that no later proof
unfolds a record update. -/

namespace Sys2Proof.Machine

/-! ## State.issue -/

@[simp] theorem State.issue_legacyTrunc (s : State) (v : Word) (d : Nat) :
    (s.issue v d).legacyTrunc = s.legacyTrunc := rfl
@[simp] theorem State.issue_irqEn (s : State) (v : Word) (d : Nat) :
    (s.issue v d).irqEn = s.irqEn := rfl
@[simp] theorem State.issue_done (s : State) (v : Word) (d : Nat) :
    (s.issue v d).done = false := rfl
@[simp] theorem State.issue_overrun (s : State) (v : Word) (d : Nat) :
    (s.issue v d).overrun = s.overrun := rfl
@[simp] theorem State.issue_treeValid (s : State) (v : Word) (d : Nat) :
    (s.issue v d).treeValid = s.treeValid := rfl
@[simp] theorem State.issue_tableValid (s : State) (v : Word) (d : Nat) :
    (s.issue v d).tableValid = s.tableValid := rfl
@[simp] theorem State.issue_err (s : State) (v : Word) (d : Nat) :
    (s.issue v d).err = s.err := rfl
@[simp] theorem State.issue_srcAddr (s : State) (v : Word) (d : Nat) :
    (s.issue v d).srcAddr = s.srcAddr := rfl
@[simp] theorem State.issue_srcLen (s : State) (v : Word) (d : Nat) :
    (s.issue v d).srcLen = s.srcLen := rfl
@[simp] theorem State.issue_dstAddr (s : State) (v : Word) (d : Nat) :
    (s.issue v d).dstAddr = s.dstAddr := rfl
@[simp] theorem State.issue_dstCap (s : State) (v : Word) (d : Nat) :
    (s.issue v d).dstCap = s.dstCap := rfl
@[simp] theorem State.issue_bitLen (s : State) (v : Word) (d : Nat) :
    (s.issue v d).bitLen = s.bitLen := rfl
@[simp] theorem State.issue_outLen (s : State) (v : Word) (d : Nat) :
    (s.issue v d).outLen = s.outLen := rfl
@[simp] theorem State.issue_freq (s : State) (v : Word) (d : Nat) :
    (s.issue v d).freq = s.freq := rfl
@[simp] theorem State.issue_tree (s : State) (v : Word) (d : Nat) :
    (s.issue v d).tree = s.tree := rfl
@[simp] theorem State.issue_table (s : State) (v : Word) (d : Nat) :
    (s.issue v d).table = s.table := rfl
@[simp] theorem State.issue_latched (s : State) (v : Word) (d : Nat) :
    (s.issue v d).latched = some v := rfl
@[simp] theorem State.issue_mem (s : State) (v : Word) (d : Nat) :
    (s.issue v d).mem = s.mem := rfl
@[simp] theorem State.issue_memSize (s : State) (v : Word) (d : Nat) :
    (s.issue v d).memSize = s.memSize := rfl
@[simp] theorem State.issue_highMap (s : State) (v : Word) (d : Nat) :
    (s.issue v d).highMap = s.highMap := rfl
@[simp] theorem State.issue_host (s : State) (v : Word) (d : Nat) :
    (s.issue v d).host = s.host := rfl
@[simp] theorem State.issue_recorded (s : State) (v : Word) (d : Nat) :
    (s.issue v d).recorded = s.recorded := rfl
@[simp] theorem State.issue_delay (s : State) (v : Word) (d : Nat) :
    (s.issue v d).delay = d := rfl
@[simp] theorem State.issue_draws (s : State) (v : Word) (d : Nat) :
    (s.issue v d).draws = s.draws := rfl

/-! ## State.commit -/

@[simp] theorem State.commit_legacyTrunc (s : State) (e : Err) (n : Word) :
    (s.commit e n).legacyTrunc = s.legacyTrunc := rfl
@[simp] theorem State.commit_irqEn (s : State) (e : Err) (n : Word) :
    (s.commit e n).irqEn = s.irqEn := rfl
@[simp] theorem State.commit_done (s : State) (e : Err) (n : Word) :
    (s.commit e n).done = true := rfl
@[simp] theorem State.commit_overrun (s : State) (e : Err) (n : Word) :
    (s.commit e n).overrun = s.overrun := rfl
@[simp] theorem State.commit_treeValid (s : State) (e : Err) (n : Word) :
    (s.commit e n).treeValid = s.treeValid := rfl
@[simp] theorem State.commit_tableValid (s : State) (e : Err) (n : Word) :
    (s.commit e n).tableValid = s.tableValid := rfl
@[simp] theorem State.commit_err (s : State) (e : Err) (n : Word) :
    (s.commit e n).err = e := rfl
@[simp] theorem State.commit_srcAddr (s : State) (e : Err) (n : Word) :
    (s.commit e n).srcAddr = s.srcAddr := rfl
@[simp] theorem State.commit_srcLen (s : State) (e : Err) (n : Word) :
    (s.commit e n).srcLen = s.srcLen := rfl
@[simp] theorem State.commit_dstAddr (s : State) (e : Err) (n : Word) :
    (s.commit e n).dstAddr = s.dstAddr := rfl
@[simp] theorem State.commit_dstCap (s : State) (e : Err) (n : Word) :
    (s.commit e n).dstCap = s.dstCap := rfl
@[simp] theorem State.commit_bitLen (s : State) (e : Err) (n : Word) :
    (s.commit e n).bitLen = s.bitLen := rfl
@[simp] theorem State.commit_outLen (s : State) (e : Err) (n : Word) :
    (s.commit e n).outLen = n := rfl
@[simp] theorem State.commit_freq (s : State) (e : Err) (n : Word) :
    (s.commit e n).freq = s.freq := rfl
@[simp] theorem State.commit_tree (s : State) (e : Err) (n : Word) :
    (s.commit e n).tree = s.tree := rfl
@[simp] theorem State.commit_table (s : State) (e : Err) (n : Word) :
    (s.commit e n).table = s.table := rfl
@[simp] theorem State.commit_latched (s : State) (e : Err) (n : Word) :
    (s.commit e n).latched = none := rfl
@[simp] theorem State.commit_mem (s : State) (e : Err) (n : Word) :
    (s.commit e n).mem = s.mem := rfl
@[simp] theorem State.commit_memSize (s : State) (e : Err) (n : Word) :
    (s.commit e n).memSize = s.memSize := rfl
@[simp] theorem State.commit_highMap (s : State) (e : Err) (n : Word) :
    (s.commit e n).highMap = s.highMap := rfl
@[simp] theorem State.commit_host (s : State) (e : Err) (n : Word) :
    (s.commit e n).host = s.host := rfl
@[simp] theorem State.commit_recorded (s : State) (e : Err) (n : Word) :
    (s.commit e n).recorded = s.recorded := rfl
@[simp] theorem State.commit_delay (s : State) (e : Err) (n : Word) :
    (s.commit e n).delay = 0 := rfl
@[simp] theorem State.commit_draws (s : State) (e : Err) (n : Word) :
    (s.commit e n).draws = s.draws := rfl

/-! ## State.complete -/

@[simp] theorem State.complete_legacyTrunc (s : State) (n : Word) :
    (s.complete n).legacyTrunc = s.legacyTrunc := rfl
@[simp] theorem State.complete_irqEn (s : State) (n : Word) :
    (s.complete n).irqEn = s.irqEn := rfl
@[simp] theorem State.complete_done (s : State) (n : Word) :
    (s.complete n).done = true := rfl
@[simp] theorem State.complete_overrun (s : State) (n : Word) :
    (s.complete n).overrun = s.overrun := rfl
@[simp] theorem State.complete_treeValid (s : State) (n : Word) :
    (s.complete n).treeValid = s.treeValid := rfl
@[simp] theorem State.complete_tableValid (s : State) (n : Word) :
    (s.complete n).tableValid = s.tableValid := rfl
@[simp] theorem State.complete_err (s : State) (n : Word) :
    (s.complete n).err = .ok := rfl
@[simp] theorem State.complete_srcAddr (s : State) (n : Word) :
    (s.complete n).srcAddr = s.srcAddr := rfl
@[simp] theorem State.complete_srcLen (s : State) (n : Word) :
    (s.complete n).srcLen = s.srcLen := rfl
@[simp] theorem State.complete_dstAddr (s : State) (n : Word) :
    (s.complete n).dstAddr = s.dstAddr := rfl
@[simp] theorem State.complete_dstCap (s : State) (n : Word) :
    (s.complete n).dstCap = s.dstCap := rfl
@[simp] theorem State.complete_bitLen (s : State) (n : Word) :
    (s.complete n).bitLen = s.bitLen := rfl
@[simp] theorem State.complete_outLen (s : State) (n : Word) :
    (s.complete n).outLen = n := rfl
@[simp] theorem State.complete_freq (s : State) (n : Word) :
    (s.complete n).freq = s.freq := rfl
@[simp] theorem State.complete_tree (s : State) (n : Word) :
    (s.complete n).tree = s.tree := rfl
@[simp] theorem State.complete_table (s : State) (n : Word) :
    (s.complete n).table = s.table := rfl
@[simp] theorem State.complete_latched (s : State) (n : Word) :
    (s.complete n).latched = none := rfl
@[simp] theorem State.complete_mem (s : State) (n : Word) :
    (s.complete n).mem = s.mem := rfl
@[simp] theorem State.complete_memSize (s : State) (n : Word) :
    (s.complete n).memSize = s.memSize := rfl
@[simp] theorem State.complete_highMap (s : State) (n : Word) :
    (s.complete n).highMap = s.highMap := rfl
@[simp] theorem State.complete_host (s : State) (n : Word) :
    (s.complete n).host = s.host := rfl
@[simp] theorem State.complete_recorded (s : State) (n : Word) :
    (s.complete n).recorded = s.recorded := rfl
@[simp] theorem State.complete_delay (s : State) (n : Word) :
    (s.complete n).delay = 0 := rfl
@[simp] theorem State.complete_draws (s : State) (n : Word) :
    (s.complete n).draws = s.draws := rfl

/-! ## State.fail -/

@[simp] theorem State.fail_legacyTrunc (s : State) (e : Err) :
    (s.fail e).legacyTrunc = s.legacyTrunc := rfl
@[simp] theorem State.fail_irqEn (s : State) (e : Err) :
    (s.fail e).irqEn = s.irqEn := rfl
@[simp] theorem State.fail_done (s : State) (e : Err) :
    (s.fail e).done = true := rfl
@[simp] theorem State.fail_overrun (s : State) (e : Err) :
    (s.fail e).overrun = s.overrun := rfl
@[simp] theorem State.fail_treeValid (s : State) (e : Err) :
    (s.fail e).treeValid = s.treeValid := rfl
@[simp] theorem State.fail_tableValid (s : State) (e : Err) :
    (s.fail e).tableValid = s.tableValid := rfl
@[simp] theorem State.fail_err (s : State) (e : Err) :
    (s.fail e).err = e := rfl
@[simp] theorem State.fail_srcAddr (s : State) (e : Err) :
    (s.fail e).srcAddr = s.srcAddr := rfl
@[simp] theorem State.fail_srcLen (s : State) (e : Err) :
    (s.fail e).srcLen = s.srcLen := rfl
@[simp] theorem State.fail_dstAddr (s : State) (e : Err) :
    (s.fail e).dstAddr = s.dstAddr := rfl
@[simp] theorem State.fail_dstCap (s : State) (e : Err) :
    (s.fail e).dstCap = s.dstCap := rfl
@[simp] theorem State.fail_bitLen (s : State) (e : Err) :
    (s.fail e).bitLen = s.bitLen := rfl
@[simp] theorem State.fail_outLen (s : State) (e : Err) :
    (s.fail e).outLen = 0 := rfl
@[simp] theorem State.fail_freq (s : State) (e : Err) :
    (s.fail e).freq = s.freq := rfl
@[simp] theorem State.fail_tree (s : State) (e : Err) :
    (s.fail e).tree = s.tree := rfl
@[simp] theorem State.fail_table (s : State) (e : Err) :
    (s.fail e).table = s.table := rfl
@[simp] theorem State.fail_latched (s : State) (e : Err) :
    (s.fail e).latched = none := rfl
@[simp] theorem State.fail_mem (s : State) (e : Err) :
    (s.fail e).mem = s.mem := rfl
@[simp] theorem State.fail_memSize (s : State) (e : Err) :
    (s.fail e).memSize = s.memSize := rfl
@[simp] theorem State.fail_highMap (s : State) (e : Err) :
    (s.fail e).highMap = s.highMap := rfl
@[simp] theorem State.fail_host (s : State) (e : Err) :
    (s.fail e).host = s.host := rfl
@[simp] theorem State.fail_recorded (s : State) (e : Err) :
    (s.fail e).recorded = s.recorded := rfl
@[simp] theorem State.fail_delay (s : State) (e : Err) :
    (s.fail e).delay = 0 := rfl
@[simp] theorem State.fail_draws (s : State) (e : Err) :
    (s.fail e).draws = s.draws := rfl

/-! ## State.setCtrl -/

@[simp] theorem State.setCtrl_legacyTrunc (s : State) (v : Word) :
    (s.setCtrl v).legacyTrunc = v.getLsbD 0 := rfl
@[simp] theorem State.setCtrl_irqEn (s : State) (v : Word) :
    (s.setCtrl v).irqEn = v.getLsbD 1 := rfl
@[simp] theorem State.setCtrl_done (s : State) (v : Word) :
    (s.setCtrl v).done = s.done := rfl
@[simp] theorem State.setCtrl_overrun (s : State) (v : Word) :
    (s.setCtrl v).overrun = s.overrun := rfl
@[simp] theorem State.setCtrl_treeValid (s : State) (v : Word) :
    (s.setCtrl v).treeValid = s.treeValid := rfl
@[simp] theorem State.setCtrl_tableValid (s : State) (v : Word) :
    (s.setCtrl v).tableValid = s.tableValid := rfl
@[simp] theorem State.setCtrl_err (s : State) (v : Word) :
    (s.setCtrl v).err = s.err := rfl
@[simp] theorem State.setCtrl_srcAddr (s : State) (v : Word) :
    (s.setCtrl v).srcAddr = s.srcAddr := rfl
@[simp] theorem State.setCtrl_srcLen (s : State) (v : Word) :
    (s.setCtrl v).srcLen = s.srcLen := rfl
@[simp] theorem State.setCtrl_dstAddr (s : State) (v : Word) :
    (s.setCtrl v).dstAddr = s.dstAddr := rfl
@[simp] theorem State.setCtrl_dstCap (s : State) (v : Word) :
    (s.setCtrl v).dstCap = s.dstCap := rfl
@[simp] theorem State.setCtrl_bitLen (s : State) (v : Word) :
    (s.setCtrl v).bitLen = s.bitLen := rfl
@[simp] theorem State.setCtrl_outLen (s : State) (v : Word) :
    (s.setCtrl v).outLen = s.outLen := rfl
@[simp] theorem State.setCtrl_freq (s : State) (v : Word) :
    (s.setCtrl v).freq = s.freq := rfl
@[simp] theorem State.setCtrl_tree (s : State) (v : Word) :
    (s.setCtrl v).tree = s.tree := rfl
@[simp] theorem State.setCtrl_table (s : State) (v : Word) :
    (s.setCtrl v).table = s.table := rfl
@[simp] theorem State.setCtrl_latched (s : State) (v : Word) :
    (s.setCtrl v).latched = s.latched := rfl
@[simp] theorem State.setCtrl_mem (s : State) (v : Word) :
    (s.setCtrl v).mem = s.mem := rfl
@[simp] theorem State.setCtrl_memSize (s : State) (v : Word) :
    (s.setCtrl v).memSize = s.memSize := rfl
@[simp] theorem State.setCtrl_highMap (s : State) (v : Word) :
    (s.setCtrl v).highMap = s.highMap := rfl
@[simp] theorem State.setCtrl_host (s : State) (v : Word) :
    (s.setCtrl v).host = s.host := rfl
@[simp] theorem State.setCtrl_recorded (s : State) (v : Word) :
    (s.setCtrl v).recorded = s.recorded := rfl
@[simp] theorem State.setCtrl_delay (s : State) (v : Word) :
    (s.setCtrl v).delay = s.delay := rfl
@[simp] theorem State.setCtrl_draws (s : State) (v : Word) :
    (s.setCtrl v).draws = s.draws := rfl

/-! ## State.ackStatus -/

@[simp] theorem State.ackStatus_legacyTrunc (s : State) (v : Word) :
    (s.ackStatus v).legacyTrunc = s.legacyTrunc := rfl
@[simp] theorem State.ackStatus_irqEn (s : State) (v : Word) :
    (s.ackStatus v).irqEn = s.irqEn := rfl
@[simp] theorem State.ackStatus_done (s : State) (v : Word) :
    (s.ackStatus v).done = (s.done && !v.getLsbD 1) := rfl
@[simp] theorem State.ackStatus_overrun (s : State) (v : Word) :
    (s.ackStatus v).overrun = (s.overrun && !v.getLsbD 2) := rfl
@[simp] theorem State.ackStatus_treeValid (s : State) (v : Word) :
    (s.ackStatus v).treeValid = s.treeValid := rfl
@[simp] theorem State.ackStatus_tableValid (s : State) (v : Word) :
    (s.ackStatus v).tableValid = s.tableValid := rfl
@[simp] theorem State.ackStatus_err (s : State) (v : Word) :
    (s.ackStatus v).err = s.err := rfl
@[simp] theorem State.ackStatus_srcAddr (s : State) (v : Word) :
    (s.ackStatus v).srcAddr = s.srcAddr := rfl
@[simp] theorem State.ackStatus_srcLen (s : State) (v : Word) :
    (s.ackStatus v).srcLen = s.srcLen := rfl
@[simp] theorem State.ackStatus_dstAddr (s : State) (v : Word) :
    (s.ackStatus v).dstAddr = s.dstAddr := rfl
@[simp] theorem State.ackStatus_dstCap (s : State) (v : Word) :
    (s.ackStatus v).dstCap = s.dstCap := rfl
@[simp] theorem State.ackStatus_bitLen (s : State) (v : Word) :
    (s.ackStatus v).bitLen = s.bitLen := rfl
@[simp] theorem State.ackStatus_outLen (s : State) (v : Word) :
    (s.ackStatus v).outLen = s.outLen := rfl
@[simp] theorem State.ackStatus_freq (s : State) (v : Word) :
    (s.ackStatus v).freq = s.freq := rfl
@[simp] theorem State.ackStatus_tree (s : State) (v : Word) :
    (s.ackStatus v).tree = s.tree := rfl
@[simp] theorem State.ackStatus_table (s : State) (v : Word) :
    (s.ackStatus v).table = s.table := rfl
@[simp] theorem State.ackStatus_latched (s : State) (v : Word) :
    (s.ackStatus v).latched = s.latched := rfl
@[simp] theorem State.ackStatus_mem (s : State) (v : Word) :
    (s.ackStatus v).mem = s.mem := rfl
@[simp] theorem State.ackStatus_memSize (s : State) (v : Word) :
    (s.ackStatus v).memSize = s.memSize := rfl
@[simp] theorem State.ackStatus_highMap (s : State) (v : Word) :
    (s.ackStatus v).highMap = s.highMap := rfl
@[simp] theorem State.ackStatus_host (s : State) (v : Word) :
    (s.ackStatus v).host = s.host := rfl
@[simp] theorem State.ackStatus_recorded (s : State) (v : Word) :
    (s.ackStatus v).recorded = s.recorded := rfl
@[simp] theorem State.ackStatus_delay (s : State) (v : Word) :
    (s.ackStatus v).delay = s.delay := rfl
@[simp] theorem State.ackStatus_draws (s : State) (v : Word) :
    (s.ackStatus v).draws = s.draws := rfl

/-! ## State.issueFree -/

@[simp] theorem State.issueFree_legacyTrunc (s : State) (v : Word) :
    (s.issueFree v).legacyTrunc = s.legacyTrunc := rfl
@[simp] theorem State.issueFree_irqEn (s : State) (v : Word) :
    (s.issueFree v).irqEn = s.irqEn := rfl
@[simp] theorem State.issueFree_done (s : State) (v : Word) :
    (s.issueFree v).done = false := rfl
@[simp] theorem State.issueFree_overrun (s : State) (v : Word) :
    (s.issueFree v).overrun = s.overrun := rfl
@[simp] theorem State.issueFree_treeValid (s : State) (v : Word) :
    (s.issueFree v).treeValid = s.treeValid := rfl
@[simp] theorem State.issueFree_tableValid (s : State) (v : Word) :
    (s.issueFree v).tableValid = s.tableValid := rfl
@[simp] theorem State.issueFree_err (s : State) (v : Word) :
    (s.issueFree v).err = s.err := rfl
@[simp] theorem State.issueFree_srcAddr (s : State) (v : Word) :
    (s.issueFree v).srcAddr = s.srcAddr := rfl
@[simp] theorem State.issueFree_srcLen (s : State) (v : Word) :
    (s.issueFree v).srcLen = s.srcLen := rfl
@[simp] theorem State.issueFree_dstAddr (s : State) (v : Word) :
    (s.issueFree v).dstAddr = s.dstAddr := rfl
@[simp] theorem State.issueFree_dstCap (s : State) (v : Word) :
    (s.issueFree v).dstCap = s.dstCap := rfl
@[simp] theorem State.issueFree_bitLen (s : State) (v : Word) :
    (s.issueFree v).bitLen = s.bitLen := rfl
@[simp] theorem State.issueFree_outLen (s : State) (v : Word) :
    (s.issueFree v).outLen = s.outLen := rfl
@[simp] theorem State.issueFree_freq (s : State) (v : Word) :
    (s.issueFree v).freq = s.freq := rfl
@[simp] theorem State.issueFree_tree (s : State) (v : Word) :
    (s.issueFree v).tree = s.tree := rfl
@[simp] theorem State.issueFree_table (s : State) (v : Word) :
    (s.issueFree v).table = s.table := rfl
@[simp] theorem State.issueFree_latched (s : State) (v : Word) :
    (s.issueFree v).latched = some v := rfl
@[simp] theorem State.issueFree_mem (s : State) (v : Word) :
    (s.issueFree v).mem = s.mem := rfl
@[simp] theorem State.issueFree_memSize (s : State) (v : Word) :
    (s.issueFree v).memSize = s.memSize := rfl
@[simp] theorem State.issueFree_highMap (s : State) (v : Word) :
    (s.issueFree v).highMap = s.highMap := rfl
@[simp] theorem State.issueFree_host (s : State) (v : Word) :
    (s.issueFree v).host = s.host := rfl
@[simp] theorem State.issueFree_recorded (s : State) (v : Word) :
    (s.issueFree v).recorded = s.recorded := rfl
@[simp] theorem State.issueFree_delay (s : State) (v : Word) :
    (s.issueFree v).delay = Config.freeDelay s.draws := rfl
@[simp] theorem State.issueFree_draws (s : State) (v : Word) :
    (s.issueFree v).draws = s.draws + 1 := rfl

/-! ## State.scramble and State.failData: every field but MEM and the draw counter -/

@[simp] theorem State.scramble_legacyTrunc (s : State) (w : Option Window) :
    (s.scramble w).legacyTrunc = s.legacyTrunc := by
  cases w <;> rfl
@[simp] theorem State.scramble_irqEn (s : State) (w : Option Window) :
    (s.scramble w).irqEn = s.irqEn := by
  cases w <;> rfl
@[simp] theorem State.scramble_done (s : State) (w : Option Window) :
    (s.scramble w).done = s.done := by
  cases w <;> rfl
@[simp] theorem State.scramble_overrun (s : State) (w : Option Window) :
    (s.scramble w).overrun = s.overrun := by
  cases w <;> rfl
@[simp] theorem State.scramble_treeValid (s : State) (w : Option Window) :
    (s.scramble w).treeValid = s.treeValid := by
  cases w <;> rfl
@[simp] theorem State.scramble_tableValid (s : State) (w : Option Window) :
    (s.scramble w).tableValid = s.tableValid := by
  cases w <;> rfl
@[simp] theorem State.scramble_err (s : State) (w : Option Window) :
    (s.scramble w).err = s.err := by
  cases w <;> rfl
@[simp] theorem State.scramble_srcAddr (s : State) (w : Option Window) :
    (s.scramble w).srcAddr = s.srcAddr := by
  cases w <;> rfl
@[simp] theorem State.scramble_srcLen (s : State) (w : Option Window) :
    (s.scramble w).srcLen = s.srcLen := by
  cases w <;> rfl
@[simp] theorem State.scramble_dstAddr (s : State) (w : Option Window) :
    (s.scramble w).dstAddr = s.dstAddr := by
  cases w <;> rfl
@[simp] theorem State.scramble_dstCap (s : State) (w : Option Window) :
    (s.scramble w).dstCap = s.dstCap := by
  cases w <;> rfl
@[simp] theorem State.scramble_bitLen (s : State) (w : Option Window) :
    (s.scramble w).bitLen = s.bitLen := by
  cases w <;> rfl
@[simp] theorem State.scramble_outLen (s : State) (w : Option Window) :
    (s.scramble w).outLen = s.outLen := by
  cases w <;> rfl
@[simp] theorem State.scramble_freq (s : State) (w : Option Window) :
    (s.scramble w).freq = s.freq := by
  cases w <;> rfl
@[simp] theorem State.scramble_tree (s : State) (w : Option Window) :
    (s.scramble w).tree = s.tree := by
  cases w <;> rfl
@[simp] theorem State.scramble_table (s : State) (w : Option Window) :
    (s.scramble w).table = s.table := by
  cases w <;> rfl
@[simp] theorem State.scramble_latched (s : State) (w : Option Window) :
    (s.scramble w).latched = s.latched := by
  cases w <;> rfl
@[simp] theorem State.scramble_memSize (s : State) (w : Option Window) :
    (s.scramble w).memSize = s.memSize := by
  cases w <;> rfl
@[simp] theorem State.scramble_highMap (s : State) (w : Option Window) :
    (s.scramble w).highMap = s.highMap := by
  cases w <;> rfl
@[simp] theorem State.scramble_host (s : State) (w : Option Window) :
    (s.scramble w).host = s.host := by
  cases w <;> rfl
@[simp] theorem State.scramble_recorded (s : State) (w : Option Window) :
    (s.scramble w).recorded = s.recorded := by
  cases w <;> rfl
@[simp] theorem State.scramble_delay (s : State) (w : Option Window) :
    (s.scramble w).delay = s.delay := by
  cases w <;> rfl
@[simp] theorem State.scramble_none (s : State) : s.scramble none = s := rfl

@[simp] theorem State.failData_legacyTrunc (s : State) (e : Err) (w : Option Window) :
    (s.failData e w).legacyTrunc = s.legacyTrunc := by
  simp [State.failData]
@[simp] theorem State.failData_irqEn (s : State) (e : Err) (w : Option Window) :
    (s.failData e w).irqEn = s.irqEn := by
  simp [State.failData]
@[simp] theorem State.failData_done (s : State) (e : Err) (w : Option Window) :
    (s.failData e w).done = true := rfl
@[simp] theorem State.failData_overrun (s : State) (e : Err) (w : Option Window) :
    (s.failData e w).overrun = s.overrun := by
  simp [State.failData]
@[simp] theorem State.failData_treeValid (s : State) (e : Err) (w : Option Window) :
    (s.failData e w).treeValid = s.treeValid := by
  simp [State.failData]
@[simp] theorem State.failData_tableValid (s : State) (e : Err) (w : Option Window) :
    (s.failData e w).tableValid = s.tableValid := by
  simp [State.failData]
@[simp] theorem State.failData_err (s : State) (e : Err) (w : Option Window) :
    (s.failData e w).err = e := rfl
@[simp] theorem State.failData_srcAddr (s : State) (e : Err) (w : Option Window) :
    (s.failData e w).srcAddr = s.srcAddr := by
  simp [State.failData]
@[simp] theorem State.failData_srcLen (s : State) (e : Err) (w : Option Window) :
    (s.failData e w).srcLen = s.srcLen := by
  simp [State.failData]
@[simp] theorem State.failData_dstAddr (s : State) (e : Err) (w : Option Window) :
    (s.failData e w).dstAddr = s.dstAddr := by
  simp [State.failData]
@[simp] theorem State.failData_dstCap (s : State) (e : Err) (w : Option Window) :
    (s.failData e w).dstCap = s.dstCap := by
  simp [State.failData]
@[simp] theorem State.failData_bitLen (s : State) (e : Err) (w : Option Window) :
    (s.failData e w).bitLen = s.bitLen := by
  simp [State.failData]
@[simp] theorem State.failData_outLen (s : State) (e : Err) (w : Option Window) :
    (s.failData e w).outLen = 0 := rfl
@[simp] theorem State.failData_freq (s : State) (e : Err) (w : Option Window) :
    (s.failData e w).freq = s.freq := by
  simp [State.failData]
@[simp] theorem State.failData_tree (s : State) (e : Err) (w : Option Window) :
    (s.failData e w).tree = s.tree := by
  simp [State.failData]
@[simp] theorem State.failData_table (s : State) (e : Err) (w : Option Window) :
    (s.failData e w).table = s.table := by
  simp [State.failData]
@[simp] theorem State.failData_latched (s : State) (e : Err) (w : Option Window) :
    (s.failData e w).latched = none := rfl
@[simp] theorem State.failData_mem (s : State) (e : Err) (w : Option Window) :
    (s.failData e w).mem = (s.scramble w).mem := rfl
@[simp] theorem State.failData_memSize (s : State) (e : Err) (w : Option Window) :
    (s.failData e w).memSize = s.memSize := by
  simp [State.failData]
@[simp] theorem State.failData_highMap (s : State) (e : Err) (w : Option Window) :
    (s.failData e w).highMap = s.highMap := by
  simp [State.failData]
@[simp] theorem State.failData_host (s : State) (e : Err) (w : Option Window) :
    (s.failData e w).host = s.host := by
  simp [State.failData]
@[simp] theorem State.failData_recorded (s : State) (e : Err) (w : Option Window) :
    (s.failData e w).recorded = s.recorded := by
  simp [State.failData]
@[simp] theorem State.failData_delay (s : State) (e : Err) (w : Option Window) :
    (s.failData e w).delay = 0 := rfl
@[simp] theorem State.failData_draws (s : State) (e : Err) (w : Option Window) :
    (s.failData e w).draws = (s.scramble w).draws := rfl

theorem State.busy_eq_isSome (s : State) : s.busy = s.latched.isSome := rfl

@[simp] theorem State.issue_busy (s : State) (v : Word) (d : Nat) : (s.issue v d).busy = true := rfl
@[simp] theorem State.commit_busy (s : State) (e : Err) (n : Word) : (s.commit e n).busy = false := rfl
@[simp] theorem State.complete_busy (s : State) (n : Word) : (s.complete n).busy = false := rfl
@[simp] theorem State.fail_busy (s : State) (e : Err) : (s.fail e).busy = false := rfl
@[simp] theorem State.failData_busy (s : State) (e : Err) (w : Option Window) :
    (s.failData e w).busy = false := rfl

/-- A lost write changes STATUS.OVERRUN alone; any other write is what it would be (10_state.md R39). -/
theorem State.guardedWrite_of_busy {s : State} (h : s.busy = true) (t : State) :
    s.guardedWrite t = { s with overrun := true } := by
  simp [State.guardedWrite, h]

theorem State.guardedWrite_of_idle {s : State} (h : s.busy = false) (t : State) : s.guardedWrite t = t := by
  simp [State.guardedWrite, h]

end Sys2Proof.Machine
end

