-- ==== Sys2Proof/Laws/Ops.lean ====
section
/-! SUPPORT. What each shared operation can do, said once: the window checks, the free draws, and the frame every
command runs in. -/

namespace Sys2Proof.Machine

/-! ## Windows -/

theorem windowBad_eq_false {n : Nat} {w : Option Window} :
    windowBad n w = false ↔ ∀ x ∈ w, x.Valid n := by
  cases w with
  | none => simp [windowBad]
  | some w =>
    rw [windowBad, Bool.not_eq_false', decide_eq_true_iff]
    exact ⟨fun h x hx => Option.some.inj hx ▸ h, fun h => h w rfl⟩

theorem windowsOverlap_eq_false {s d : Option Window} :
    windowsOverlap s d = false ↔ ∀ x ∈ s, ∀ y ∈ d, ¬ x.Overlap y := by
  cases s with
  | none => cases d <;> simp [windowsOverlap]
  | some s =>
    cases d with
    | none => simp [windowsOverlap]
    | some d =>
      rw [windowsOverlap, decide_eq_false_iff_not]
      exact ⟨fun h x hx y hy => Option.some.inj hx ▸ Option.some.inj hy ▸ h, fun h => h s rfl d rfl⟩

/-- CheckWindows passes exactly when every window is valid and the two do not overlap (40_control.md R139). -/
theorem checkWindows_eq_none {n : Nat} {s d : Option Window} :
    checkWindows n s d = none ↔
      (∀ x ∈ s, x.Valid n) ∧ (∀ y ∈ d, y.Valid n) ∧ ∀ x ∈ s, ∀ y ∈ d, ¬ x.Overlap y := by
  rw [← windowBad_eq_false, ← windowBad_eq_false, ← windowsOverlap_eq_false, checkWindows]
  cases windowBad n s <;> cases windowBad n d <;> cases windowsOverlap s d <;> simp

/-- The only error CheckWindows raises is ADDRESS_FAULT (60_exceptions.md R288). -/
theorem checkWindows_eq_some {n : Nat} {s d : Option Window} {e : Err} (h : checkWindows n s d = some e) :
    e = .addressFault := by
  rw [checkWindows] at h
  split_ifs at h <;> simp_all

@[simp] theorem checkWindows_none_none (n : Nat) : checkWindows n none none = none := rfl

/-! ## Free draws -/

theorem State.scramble_mem (s : State) (w : Window) :
    (s.scramble (some w)).mem = Memory.writeBytes s.mem w.addr
      ((List.range (w.clipped s.memSize)).map fun j => Config.freeByte s.draws (w.addr + j)) := rfl

/-- Free draws touch no byte outside the window. -/
theorem State.scramble_read (s : State) {w : Option Window} {a : Nat}
    (ha : ∀ x ∈ w, ¬ x.Contains a) : Memory.read (s.scramble w).mem a = Memory.read s.mem a := by
  cases w with
  | none => rfl
  | some w =>
    rw [State.scramble_mem, Memory.read_writeBytes_other]
    have h := ha w rfl
    simp only [Window.Contains, Window.clipped, List.length_map, List.length_range] at h ⊢
    omega

theorem State.scramble_wf {s : State} (hm : Memory.wf s.mem) (w : Option Window) :
    Memory.wf (s.scramble w).mem := by
  cases w with
  | none => exact hm
  | some w => exact Memory.writeBytes_wf hm _ _

theorem State.scramble_inRange {s : State} (hm : ∀ c ∈ s.mem, c.1 < s.memSize) (w : Option Window) :
    ∀ c ∈ (s.scramble w).mem, c.1 < s.memSize := by
  cases w with
  | none => exact hm
  | some w =>
    refine Memory.writeBytes_inRange hm ?_
    rcases Nat.eq_zero_or_pos (w.clipped s.memSize) with h | h
    · exact .inl (by simp [h])
    · right
      simp only [List.length_map, List.length_range, Window.clipped] at h ⊢
      omega

/-! ## The frame of a command (40_control.md R132) -/

/-- Every command completes: the frame always answers a next state. -/
theorem runCommand_next (s : State) (pre : Option Err) (src dst : Option Window)
    (body : State → Except Err (State × Word)) : ∃ t, runCommand s pre src dst body = .next t := ⟨_, rfl⟩

/-- What the frame answers: the failure commit of a precheck, of a window check, of the data phase, or the success
commit of what the body publishes. -/
theorem runCommand_cases {s t : State} {pre : Option Err} {src dst : Option Window}
    {body : State → Except Err (State × Word)} (h : runCommand s pre src dst body = .next t) :
    (∃ e, pre = some e ∧ t = s.fail e) ∨
    (pre = none ∧ checkWindows s.memSize src dst = some .addressFault ∧ t = s.fail .addressFault) ∨
    (pre = none ∧ checkWindows s.memSize src dst = none ∧ ∃ e, body s = .error e ∧ t = s.failData e dst) ∨
    (pre = none ∧ checkWindows s.memSize src dst = none ∧ ∃ u n, body s = .ok (u, n) ∧ t = u.complete n) := by
  injection h with h
  cases pre with
  | some e => exact .inl ⟨e, rfl, h.symm⟩
  | none =>
    cases hc : checkWindows s.memSize src dst with
    | some e =>
      obtain rfl := checkWindows_eq_some hc
      simp only [hc] at h
      exact .inr (.inl ⟨rfl, rfl, h.symm⟩)
    | none =>
      simp only [hc] at h
      cases hb : body s with
      | error e =>
        simp only [hb] at h
        exact .inr (.inr (.inl ⟨rfl, rfl, e, rfl, h.symm⟩))
      | ok r =>
        obtain ⟨u, n⟩ := r
        simp only [hb] at h
        exact .inr (.inr (.inr ⟨rfl, rfl, u, n, rfl, h.symm⟩))

/-- A failed precheck ends the command before the windows are looked at (60_exceptions.md R289). -/
theorem runCommand_precheck (s : State) (e : Err) (src dst : Option Window)
    (body : State → Except Err (State × Word)) :
    runCommand s (some e) src dst body = .next (s.fail e) := rfl

/-- A failed window check ends the command before the data phase (60_exceptions.md R289). -/
theorem runCommand_windows {s : State} {src dst : Option Window} {e : Err}
    (h : checkWindows s.memSize src dst = some e) (body : State → Except Err (State × Word)) :
    runCommand s none src dst body = .next (s.fail .addressFault) := by
  obtain rfl := checkWindows_eq_some h
  simp only [runCommand, h]

/-- An error of the data phase (40_control.md R134). -/
theorem runCommand_error {s : State} {src dst : Option Window} {body : State → Except Err (State × Word)} {e : Err}
    (hw : checkWindows s.memSize src dst = none) (h : body s = .error e) :
    runCommand s none src dst body = .next (s.failData e dst) := by
  simp only [runCommand, hw, h]

/-- A successful data phase (40_control.md R133). -/
theorem runCommand_ok {s t : State} {src dst : Option Window} {body : State → Except Err (State × Word)} {n : Word}
    (hw : checkWindows s.memSize src dst = none) (h : body s = .ok (t, n)) :
    runCommand s none src dst body = .next (t.complete n) := by
  simp only [runCommand, hw, h]

end Sys2Proof.Machine
end

