-- ==== Sys2Proof/Laws/Commands.lean ====
section
/-! SUPPORT. What a command can do, said once for all nine: exec is the shared frame around a precheck and a body, the
body's frame, and what each loop answers. -/

namespace Sys2Proof.Machine

/-! ## exec is the frame of 40_control.md R132 -/

/-- The Precheck of each command. -/
def precheckOf (s : State) : Instr → Option Err
  | .nop | .clear | .count | .build | .parse => none
  | .derive => needTree s
  | .encode | .decode | .serialize => needTable s

/-- The Body of each command. -/
def bodyOf : Instr → State → Except Err (State × Word)
  | .nop => nopBody
  | .clear => clearBody
  | .count => countBody
  | .build => buildBody
  | .derive => deriveBody
  | .encode => encodeBody
  | .decode => decodeBody
  | .serialize => serializeBody
  | .parse => parseBody

theorem exec_eq_runCommand (i : Instr) (s : State) :
    exec i s = runCommand s (precheckOf s i) (srcWindow s i) (dstWindow s i) (bodyOf i) := by
  cases i <;> rfl

/-- The inversion lemma of exec: which commit it ended in (40_control.md R132 to R134). -/
theorem exec_cases {i : Instr} {s t : State} (h : exec i s = .next t) :
    (∃ e, precheckOf s i = some e ∧ t = s.fail e) ∨
    (precheckOf s i = none ∧ checkWindows s.memSize (srcWindow s i) (dstWindow s i) = some .addressFault ∧
      t = s.fail .addressFault) ∨
    (precheckOf s i = none ∧ checkWindows s.memSize (srcWindow s i) (dstWindow s i) = none ∧
      ∃ e, bodyOf i s = .error e ∧ t = s.failData e (dstWindow s i)) ∨
    (precheckOf s i = none ∧ checkWindows s.memSize (srcWindow s i) (dstWindow s i) = none ∧
      ∃ u n, bodyOf i s = .ok (u, n) ∧ t = u.complete n) :=
  runCommand_cases (exec_eq_runCommand i s ▸ h)

/-- A precheck raises NOT_READY and nothing else (60_exceptions.md R286). -/
theorem precheckOf_eq_some {s : State} {i : Instr} {e : Err} (h : precheckOf s i = some e) : e = .notReady := by
  cases i <;> simp only [precheckOf, needTree, needTable, reduceCtorEq] at h <;> split_ifs at h <;>
    exact (Option.some.inj h).symm

/-! ## What a body publishes -/

/-- No body touches CTRL, OVERRUN, the four operand registers, the control state or the host's side
(30_encoding.md R106). -/
theorem bodyOf_frame {i : Instr} {s u : State} {n : Word} (h : bodyOf i s = .ok (u, n)) :
    u.legacyTrunc = s.legacyTrunc ∧ u.irqEn = s.irqEn ∧ u.overrun = s.overrun ∧
    u.srcAddr = s.srcAddr ∧ u.srcLen = s.srcLen ∧ u.dstAddr = s.dstAddr ∧ u.dstCap = s.dstCap ∧
    u.host = s.host ∧ u.recorded = s.recorded ∧ u.memSize = s.memSize ∧ u.highMap = s.highMap ∧ u.draws = s.draws := by
  cases i <;>
    simp only [bodyOf, nopBody, clearBody, countBody, buildBody, deriveBody, encodeBody, decodeBody, serializeBody,
      parseBody] at h <;>
    (repeat' split at h) <;>
    first
      | (cases h; done)
      | (cases h; simp)

/-! ## What the loops answer -/

/-- A successful ENCODE loop has appended the codes in order, and the whole fits (43_codec.md R200). -/
theorem encodeLoop_ok {t : CodeTable} {cap : Nat} {bits r : Bits} {input : Text}
    (h : encodeLoop t cap bits input = .ok r) :
    r = bits ++ input.flatMap (code t) ∧
    (input = [] ∨ (r.length ≤ 2 ^ 32 - 1 ∧ ceil8 r.length ≤ cap)) := by
  induction input generalizing bits with
  | nil =>
    rw [encodeLoop] at h
    cases h
    simp
  | cons x xs ih =>
    rw [encodeLoop] at h
    split_ifs at h with h0
    dsimp only at h
    split_ifs at h with h1
    obtain ⟨hr, hfit⟩ := ih h
    refine ⟨by rw [hr]; simp, .inr ?_⟩
    rcases hfit with rfl | hfit
    · have hlen : r.length = bits.length + (symGet t.len x).toNat := by simp [hr]
      rw [hlen]
      omega
    · exact hfit

/-- A successful DECODE loop has put out at most DST_CAP symbols (43_codec.md R210). -/
theorem decodeLoop_ok {entries : List (Byte × Bits)} {cap : Nat} {buf buf' : Bits} {out out' : Text} {bits : Bits}
    (hout : out.length ≤ cap) (h : decodeLoop entries cap buf out bits = .ok (buf', out')) : out'.length ≤ cap := by
  induction bits generalizing buf out with
  | nil =>
    rw [decodeLoop] at h
    cases h
    exact hout
  | cons b bs ih =>
    rw [decodeLoop] at h
    split at h
    · exact ih hout h
    · split_ifs at h with hc
      refine ih ?_ h
      rw [List.length_append, List.length_singleton]
      omega

/-- A successful payload loop of PARSE has appended one bit per character, and the whole fits (44_persistence.md
R253). -/
theorem parsePayload_ok {cap : Nat} {bits r : Bits} {A : Text} (h : parsePayload cap bits A = .ok r) :
    r = bits ++ A.map (· == char1) ∧ (∀ c ∈ A, isBitChar c = true) ∧ (A = [] ∨ ceil8 r.length ≤ cap) := by
  induction A generalizing bits with
  | nil =>
    rw [parsePayload] at h
    cases h
    simp
  | cons x xs ih =>
    rw [parsePayload] at h
    split_ifs at h with h0 h1
    obtain ⟨hr, hx, hfit⟩ := ih h
    refine ⟨by rw [hr]; simp, ?_, .inr ?_⟩
    · intro c hc
      rcases List.mem_cons.1 hc with rfl | hc
      · simpa using h0
      · exact hx c hc
    · rcases hfit with rfl | hfit
      · have hlen : r.length = bits.length + 1 := by simp [hr]
        rw [hlen]
        omega
      · exact hfit

/-- One round of the merge loop: the first extracted, the second extracted, the new node, and the rest of the loop
(41_tree_builder.md R157). -/
theorem mergeLoop_step (fuel : Nat) (N : List Node) (q q' : Nat) (Q : List Nat) :
    mergeLoop (fuel + 1) N (q :: q' :: Q) =
      let a := minKey N q (q' :: Q)
      let rest := (q :: q' :: Q).erase a
      let b := minKey N (rest.headD 0) rest.tail
      mergeLoop fuel
        (N ++ [.internal (BitVec.ofNat 9 a) (BitVec.ofNat 9 b) (weightAt N a + weightAt N b)])
        (rest.erase b ++ [N.length]) := rfl

/-- The minimum key is in the queue. -/
theorem minKey_mem (N : List Node) (q : Nat) (Q : List Nat) : minKey N q Q ∈ q :: Q := by
  induction Q generalizing q with
  | nil => simp [minKey]
  | cons x xs ih =>
    rw [minKey, List.foldl_cons]
    split_ifs
    · have h := ih x
      rw [minKey] at h
      exact List.mem_cons_of_mem q h
    · have h := ih q
      rw [minKey] at h
      rcases List.mem_cons.1 h with h | h
      · rw [h]
        exact List.mem_cons_self
      · exact List.mem_cons_of_mem q (List.mem_cons_of_mem x h)

end Sys2Proof.Machine
end

