-- ==== Sys2Proof/Laws/PerInstr.lean ====
section
/-! SUPPORT. Statements about every instruction as syntax, one lemma for each constructor. -/

namespace Sys2Proof.Laws

/-- The command word of an instruction has RSV = 0, an opcode of the map, and the instruction is well formed
(30_encoding.md R100, R103). -/
def CommandWord.Statement (i : Instr) : Prop :=
  reservedClear (encode i) = true ∧ opcodeKnown (encode i) = true ∧ i.wellFormed = true

theorem CommandWord.nop : CommandWord.Statement .nop := by
  refine ⟨?_, ?_, rfl⟩ <;> decide

theorem CommandWord.clear : CommandWord.Statement .clear := by
  refine ⟨?_, ?_, rfl⟩ <;> decide

theorem CommandWord.count : CommandWord.Statement .count := by
  refine ⟨?_, ?_, rfl⟩ <;> decide

theorem CommandWord.build : CommandWord.Statement .build := by
  refine ⟨?_, ?_, rfl⟩ <;> decide

theorem CommandWord.derive : CommandWord.Statement .derive := by
  refine ⟨?_, ?_, rfl⟩ <;> decide

theorem CommandWord.encode : CommandWord.Statement .encode := by
  refine ⟨?_, ?_, rfl⟩ <;> decide

theorem CommandWord.decode : CommandWord.Statement .decode := by
  refine ⟨?_, ?_, rfl⟩ <;> decide

theorem CommandWord.serialize : CommandWord.Statement .serialize := by
  refine ⟨?_, ?_, rfl⟩ <;> decide

theorem CommandWord.parse : CommandWord.Statement .parse := by
  refine ⟨?_, ?_, rfl⟩ <;> decide

end Sys2Proof.Laws
end

