-- ==== Sys2Proof/Laws/Step.lean ====
section
/-! SUPPORT. The step, agent by agent, and what a host step leaves alone. -/

namespace Sys2Proof.Machine

theorem step_engine {s : State} {v : Word} (h : nextAgent s = .engine v) : step s = execute v s := by
  simp only [step, h]

theorem step_host {s : State} {x : HostStep} {rest : List HostStep} (h : nextAgent s = .host x rest) :
    step s = hostStep { s with host := rest, delay := s.delay - 1 } x := by
  simp only [step, h, hostTurn]

theorem step_idle {s : State} (h : nextAgent s = .idle) : step s = .next s := by
  simp only [step, h]

/-- What decides who moves. -/
theorem nextAgent_cases (s : State) :
    (∃ v, nextAgent s = .engine v ∧ s.latched = some v ∧ (s.delay = 0 ∨ s.host = [])) ∨
    (∃ h rest, nextAgent s = .host h rest ∧ s.host = h :: rest ∧ (s.latched = none ∨ s.delay ≠ 0)) ∨
    (nextAgent s = .idle ∧ s.latched = none ∧ s.host = []) := by
  unfold nextAgent
  cases s.latched with
  | none =>
    cases s.host with
    | nil => exact .inr (.inr ⟨rfl, rfl, rfl⟩)
    | cons h rest => exact .inr (.inl ⟨h, rest, rfl, rfl, .inl rfl⟩)
  | some v =>
    cases s.host with
    | nil => exact .inl ⟨v, rfl, rfl, .inr rfl⟩
    | cons h rest =>
      by_cases hd : s.delay = 0
      · exact .inl ⟨v, if_pos hd, rfl, .inl hd⟩
      · exact .inr (.inl ⟨h, rest, if_neg hd, rfl, .inr hd⟩)

theorem execute_of_ok {v : Word} {i : Instr} (h : decode v = .ok i) (s : State) : execute v s = exec i s := by
  simp only [execute, h]

theorem execute_of_error {v : Word} {e : Illegal} (h : decode v = .error e) (s : State) :
    execute v s = .next (s.fail .illegalCommand) := by
  simp only [execute, h, execIllegal]

/-- A word placed by withFetchWord is the next thing the engine runs. -/
theorem nextAgent_withFetchWord (s : State) (nbits w : Nat) :
    nextAgent (s.withFetchWord nbits w) = .engine (BitVec.ofNat 32 (w % 2 ^ nbits)) := by
  rcases nextAgent_cases (s.withFetchWord nbits w) with ⟨v, h, hv, -⟩ | ⟨x, rest, -, -, h⟩ | ⟨-, h, -⟩
  · rw [h]
    exact congrArg Agent.engine (Option.some.inj hv).symm
  · simp [State.withFetchWord] at h
  · simp [State.withFetchWord] at h

/-- A register read changes the draw counter alone (20_memory.md R94). -/
theorem readReg_state (s : State) (r : Reg) :
    (readReg s r).2 = s ∨ (readReg s r).2 = { s with draws := s.draws + 1 } := by
  rw [readReg]
  split_ifs
  · exact .inr rfl
  · exact .inl rfl

/-- A recorded register read changes what the host recorded and the draw counter alone. -/
theorem State.recordReg_eq (s : State) (off : Nat) (r : Reg) :
    ∃ v d, s.recordReg off r = { s with recorded := .reg off v :: s.recorded, draws := d } := by
  rcases readReg_state s r with h | h
  · exact ⟨(readReg s r).1, s.draws, by rw [State.recordReg, h]⟩
  · exact ⟨(readReg s r).1, s.draws + 1, by rw [State.recordReg, h]⟩

/-- What a register write leaves alone, whatever the register: the tree, the table, MEM, the results of commands and
the host's side (10_state.md R38, R39, R55, R60). -/
theorem writeReg_frame (s : State) (r : Reg) (v : Word) :
    (writeReg s r v).tree = s.tree ∧ (writeReg s r v).table = s.table ∧
    (writeReg s r v).treeValid = s.treeValid ∧ (writeReg s r v).tableValid = s.tableValid ∧
    (writeReg s r v).mem = s.mem ∧ (writeReg s r v).memSize = s.memSize ∧
    (writeReg s r v).highMap = s.highMap ∧
    (writeReg s r v).err = s.err ∧ (writeReg s r v).outLen = s.outLen ∧
    (writeReg s r v).host = s.host ∧ (writeReg s r v).recorded = s.recorded := by
  cases r <;> cases hb : s.busy <;> simp [writeReg, State.guardedWrite, hb]

/-- A register read that gives the current value: while BUSY = 0, or of a register R40 names (10_state.md R40). -/
theorem State.recordReg_value {s : State} {r : Reg} (hr : s.busy = false ∨ readsWhileBusy r = true) (off : Nat) :
    s.recordReg off r = { s with recorded := .reg off (regValue s r) :: s.recorded } := by
  have hb : (s.busy && !readsWhileBusy r) = false := by
    rcases hr with hr | hr <;> simp [hr]
  simp [State.recordReg, readReg, hb]

theorem hostStep_rd {s : State} {off : Nat} (h : regAccessOk off 4)
    (hr : s.busy = false ∨ readsWhileBusy (regAt s.highMap off) = true) :
    hostStep s (.rd off 4) =
      .next { s with recorded := .reg off (regValue s (regAt s.highMap off)) :: s.recorded } := by
  rw [hostStep, if_pos h, State.recordReg_value hr]

theorem hostStep_rdReg {s : State} {r : Reg} (hr : s.busy = false ∨ readsWhileBusy r = true) :
    hostStep s (.rdReg r) = .next { s with recorded := .reg (regOffset r) (regValue s r) :: s.recorded } := by
  rw [hostStep, State.recordReg_value hr]

theorem hostStep_wr {s : State} {off : Nat} (h : regAccessOk off 4) (v : Word) :
    hostStep s (.wr off 4 v) = .next (writeReg s (regAt s.highMap off) v) := by
  simp [hostStep, h]

/-- No register write sets DONE (10_state.md R23). -/
theorem writeReg_done {s : State} (hs : s.done = false) (r : Reg) (v : Word) : (writeReg s r v).done = false := by
  cases r <;> simp only [writeReg, State.guardedWrite] <;> first | exact hs | (split <;> simp [hs]) | simp [hs]

/-- Reset leaves every register at its reset value (70_reset_and_hazards.md R310). -/
theorem State.resetSignal_eq (s : State) :
    s.resetSignal = { State.reset with
      mem := (s.scramble s.activeDst).mem
      memSize := s.memSize
      highMap := s.highMap
      host := s.host
      recorded := s.recorded
      draws := (s.scramble s.activeDst).draws } := by
  simp [State.resetSignal]

end Sys2Proof.Machine
end

