-- ==== Sys2Proof/Tests/Slice0.lean ====
section
/-! SUPPORT. Tests: the spec's own examples and vectors (95_test_vectors.md, named by their ids) on single steps, and for
each statement a concrete witness that meets its hypotheses. -/

set_option Elab.async false

namespace Sys2Proof.Tests

open Sys2Proof Sys2Proof.Machine

/-! ## Helpers -/

/-- The state a step answers; power-on for any other outcome. -/
def nextOf : Host.Outcome State Fault Refusal → State
  | .next t => t
  | .fault _ => State.reset
  | .refused _ => State.reset

/-- The step answered a next state. -/
def isNext : Host.Outcome State Fault Refusal → Bool
  | .next _ => true
  | .fault _ => false
  | .refused _ => false

/-- The fault a step ended in. -/
def faultOf : Host.Outcome State Fault Refusal → Option Fault
  | .next _ => none
  | .fault f => some f
  | .refused _ => none

/-- Power-on with MEM_SIZE = 0x10000, as 95_test_vectors.md's conventions have it. -/
def base : State := { State.reset with memSize := 0x10000 }

/-- `base` with bytes in MEM and the four window registers. -/
def withMem (at_ : Nat) (bytes : Text) (src len dst cap : Word) : State :=
  { base with
    mem := Memory.writeBytes [] at_ bytes
    srcAddr := src
    srcLen := len
    dstAddr := dst
    dstCap := cap }

/-- The same with a code table. -/
def withTable (s : State) (E : List (Byte × Bits)) : State := { s with table := tableOf E, tableValid := true }

/-- The same with FREQ entries. -/
def withFreq (s : State) (l : List (Byte × Word)) : State :=
  { s with freq := l.foldl (fun f e => symSet f e.1 e.2) s.freq }

/-- The table of vector B-4: a = 0, b = 110, c = 100, d = 101, r = 111. -/
def tableB4 : List (Byte × Bits) :=
  [(97, [false]), (98, [true, true, false]), (99, [true, false, false]), (100, [true, false, true]),
    (114, [true, true, true])]

/-- "abracadabra". -/
def abracadabra : Text := [97, 98, 114, 97, 99, 97, 100, 97, 98, 114, 97]

/-- A two-symbol table: a = 0, b = 1. -/
def tableAB : List (Byte × Bits) := [(97, [false]), (98, [true])]

/-- The table of L1.7: x = 01, y = 1. -/
def tableXY : List (Byte × Bits) := [(120, [false, true]), (121, [true])]

/-- The table of vector S-8: a = 0. -/
def tableA : List (Byte × Bits) := [(97, [false])]

theorem codeEntries_tableAB : codeEntries (tableOf tableAB) = tableAB := by
  simp only [codeEntries, tableAB, tableOf, List.foldl_cons, List.foldl_nil, recordCode_len, CodeTable.cleared,
    symGet_replicate]
  decide +kernel

theorem codeEntries_tableXY : codeEntries (tableOf tableXY) = tableXY := by
  simp only [codeEntries, tableXY, tableOf, List.foldl_cons, List.foldl_nil, recordCode_len, CodeTable.cleared,
    symGet_replicate]
  decide +kernel

theorem codeEntries_tableA : codeEntries (tableOf tableA) = tableA := by
  simp only [codeEntries, tableA, tableOf, List.foldl_cons, List.foldl_nil, recordCode_len, CodeTable.cleared,
    symGet_replicate]
  decide +kernel

theorem tableLines_tableA : tableLines (tableOf tableA) = tableA := by
  simp only [tableLines, tableA, tableOf, List.foldl_cons, List.foldl_nil, recordCode_len, CodeTable.cleared,
    symGet_replicate]
  decide +kernel

theorem noStrayBits_tableAB : NoStrayBits (tableOf tableAB) := by
  intro s _
  simp only [tableAB, tableOf, List.foldl_cons, List.foldl_nil, recordCode_len, recordCode_vec, CodeTable.cleared,
    symGet_replicate]
  split_ifs <;> decide

theorem noStrayBits_tableA : NoStrayBits (tableOf tableA) := by
  intro s _
  simp only [tableA, tableOf, List.foldl_cons, List.foldl_nil, recordCode_len, recordCode_vec, CodeTable.cleared,
    symGet_replicate]
  split_ifs <;> decide

theorem noStrayBits_cleared : NoStrayBits CodeTable.cleared := by
  intro s _
  simp [CodeTable.cleared]

/-- The tree of vector B-7 (a:3 b:1): the leaves a and b, and the node 2 = (1, 0, 4). -/
def tree3 : Tree where
  node := ((Tree.cleared.node.set 0 (.leaf 97 3)).set 1 (.leaf 98 1)).set 2 (.internal 1 0 4)
  count := 3
  root := 2
  weight := 4

/-- The tree of vector B-2 (a:1): one leaf. -/
def tree1 : Tree where
  node := Tree.cleared.node.set 0 (.leaf 97 1)
  count := 1
  root := 0
  weight := 1

/-- The state after BUILD of vector B-7. -/
def treeB7 : State := { withFreq base [(97, 3), (98, 1)] with tree := tree3, treeValid := true }

/-- The state after BUILD of vector B-2. -/
def treeB2 : State := { withFreq base [(97, 1)] with tree := tree1, treeValid := true }

theorem tree3_at (k : Nat) : tree3.at k =
    if k = 2 then .internal 1 0 4 else if k = 1 then .leaf 98 1 else if k = 0 then .leaf 97 3 else .empty := by
  simp only [tree3, Tree.at, Tree.cleared, Vector.getElem?_set, Vector.getElem?_replicate]
  split_ifs <;> first | rfl | omega

theorem tree1_at (k : Nat) : tree1.at k = if k = 0 then .leaf 97 1 else .empty := by
  simp only [tree1, Tree.at, Tree.cleared, Vector.getElem?_set, Vector.getElem?_replicate]
  split_ifs <;> first | rfl | omega

theorem tree3_shape : TreeShape tree3 2 := by
  simp only [TreeShape, tree3_at, Node.linkedBelow]
  decide +kernel

theorem tree1_shape : TreeShape tree1 1 := by
  simp only [TreeShape, tree1_at, Node.linkedBelow]
  decide +kernel

theorem treeB7_ok : TreeOk treeB7 := ⟨fun _ => ⟨tree3_shape, by decide +kernel⟩, fun h => (nomatch h)⟩

theorem treeB2_ok : TreeOk treeB2 := ⟨fun _ => ⟨tree1_shape, by decide +kernel⟩, fun h => (nomatch h)⟩

/-! ## Well-formedness: each check refuses an ill-formed term -/

theorem test_reserved_field_refused : reservedClear 0x00000111 = false := by decide
theorem test_unknown_opcode_refused : opcodeKnown 0x00000013 = false := by decide
theorem test_illegal_words_K5 :
    [0x00000013, 0x00000022, 0x00000032, 0x00000100, 0xFFFFFFFF].all (fun v => !legalWord v) = true := by decide
theorem test_subword_access_refused : ¬ regAccessOk 0x008 2 := by decide
theorem test_misaligned_access_refused : ¬ regAccessOk 0x002 4 := by decide
theorem test_outside_access_refused : ¬ regAccessOk 0x4000 4 := by decide

/-! ## Decoding (30_encoding.md R103, written bit by bit) -/

theorem test_decode_clear : decode 0b00000000000000000000000000000001 = .ok .clear := by decide
theorem test_decode_count : decode 0b00000000000000000000000000010000 = .ok .count := by decide
theorem test_decode_derive : decode 0b00000000000000000000000000010010 = .ok .derive := by decide
theorem test_decode_decode : decode 0b00000000000000000000000000100001 = .ok .decode := by decide
theorem test_decode_serialize : decode 0b00000000000000000000000000110000 = .ok .serialize := by decide
theorem test_decode_K4 : decode 0x00000111 = .error .reservedField := by decide
theorem test_decode_table_word : decodeTableWord 32 0x31 = some .parse := by decide
theorem test_decode_table_illegal : decodeTableWord 32 0x02 = none := by decide

/-! ## Commands -/

/-- K-1. -/
theorem test_nop_K1 :
    (fun t : State => (t.err, t.outLen, statusWord t)) (nextOf (step (base.withFetchWord 32 0x00))) =
      (.ok, 0, 0x02) := by decide +kernel

/-- K-2 in small: a count, a tree and a table are gone, and BIT_LEN stays. -/
theorem test_clear_K2 :
    (fun t : State => (statusWord t, freqN t.freq, tableN t.table, t.tree.count, t.bitLen))
      (nextOf (exec .clear { withTable treeB7 tableAB with bitLen := 23 })) = (0x02, 0, 0, 0, 23) := by
  decide +kernel

/-- N-2. -/
theorem test_count_N2 :
    (fun t : State => (t.err, symGet t.freq 0, symGet t.freq 10, symGet t.freq 255, freqN t.freq))
      (nextOf (exec .count (withMem 0 [0x00, 0x0A, 0x0A, 0xFF] 0 4 0 0))) = (.ok, 1, 2, 1, 3) := by decide +kernel

/-- N-6: the window runs past MEM_SIZE. -/
theorem test_count_N6 : (nextOf (exec .count (withMem 0 [] 0xFFFF 2 0 0))).err = .addressFault := by decide +kernel

/-- B-6: the leaf of index 2 is taken before the node of index 3 of the same weight. -/
theorem test_build_B6 :
    (fun t : State => (t.tree.at 3, t.tree.at 4, t.tree.root, t.tree.weight))
      (nextOf (exec .build (withFreq base [(97, 1), (98, 1), (99, 2)]))) =
      (.internal 0 1 2, .internal 2 3 4, 4, 4) := by decide +kernel

/-- B-11: the sum is 2^32. -/
theorem test_build_B11 :
    (nextOf (exec .build (withFreq base [(0, 0xFFFFFFFF), (1, 1)]))).err = .capacityExceeded := by decide +kernel

/-- B-7: b = 0, a = 1. -/
theorem test_derive_B7 :
    (fun t : State => (code t.table 97, code t.table 98, tableN t.table)) (nextOf (exec .derive treeB7)) =
      ([true], [false], 2) := by decide +kernel

/-- B-2: the single leaf gets "0". -/
theorem test_derive_B2 :
    (fun t : State => (code t.table 97, tableN t.table)) (nextOf (exec .derive treeB2)) = ([false], 1) := by
  decide +kernel

/-- E-1. -/
theorem test_encode_E1 :
    (fun t : State => (t.err, t.bitLen, t.outLen, bytesAt t.mem 0x200 3))
      (nextOf (exec .encode (withTable (withMem 0x100 abracadabra 0x100 11 0x200 16) tableB4))) =
      (.ok, 23, 3, [0x6E, 0x8A, 0xDC]) := by decide +kernel

/-- E-6: UNKNOWN_SYMBOL is tested before the capacity. -/
theorem test_encode_E6 :
    (nextOf (exec .encode (withTable (withMem 0x180 [122, 97] 0x180 2 0x200 0) tableB4))).err = .unknownSymbol := by
  decide +kernel

/-- D-1. -/
theorem test_decode_D1 :
    (fun t : State => (t.err, t.outLen, bytesAt t.mem 0x300 11))
      (nextOf (exec .decode
        { withTable (withMem 0x200 [0x6E, 0x8A, 0xDC] 0x200 0 0x300 11) tableB4 with bitLen := 23 })) =
      (.ok, 11, abracadabra) := by decide +kernel

/-- D-14: leftover bits fail when LEGACY_TRUNC = 0 and are dropped when it is 1. -/
theorem test_decode_D14 :
    [false, true].map (fun legacy => (nextOf (exec .decode
        { withTable (withMem 0x40 [0x40] 0x40 0 0x80 4) tableXY with bitLen := 3, legacyTrunc := legacy })).err) =
      [.truncatedStream, .ok] := by decide +kernel

/-- S-8: "97 0\n===\n0000". -/
theorem test_serialize_S8 :
    (fun t : State => (t.err, t.outLen, bytesAt t.mem 0x20 13))
      (nextOf (exec .serialize
        { withTable (withMem 0x10 [] 0x10 0 0x20 13) [(97, [false])] with bitLen := 4 })) =
      (.ok, 13, [0x39, 0x37, 0x20, 0x30, 0x0A, 0x3D, 0x3D, 0x3D, 0x0A, 0x30, 0x30, 0x30, 0x30]) := by
  decide +kernel

/-- S-7: symbol 10 is written "10", and the lines ascend. -/
theorem test_serialize_S7 :
    (nextOf (exec .serialize (withTable (withMem 0 [] 0x200 0 0 100)
        [(255, [true, true]), (0, [true, false]), (10, [false])]))).outLen = 21 := by decide +kernel

/-- P-15: "120 01\n121 1\n===\n010". -/
theorem test_parse_P15 :
    (fun t : State => (t.err, code t.table 120, code t.table 121, tableN t.table, t.bitLen, t.outLen,
        Memory.read t.mem 0x1000))
      (nextOf (exec .parse (withMem 0
        [0x31, 0x32, 0x30, 0x20, 0x30, 0x31, 0x0A, 0x31, 0x32, 0x31, 0x20, 0x31, 0x0A, 0x3D, 0x3D, 0x3D, 0x0A, 0x30,
          0x31, 0x30] 0 20 0x1000 16))) = (.ok, [false, true], [true], 2, 3, 1, 0x40) := by decide +kernel

/-- P-5 and P-8: the sentinel without "\n", and a leading zero. -/
theorem test_parse_P5_P8 :
    [[0x39, 0x37, 0x20, 0x30, 0x0A, 0x3D, 0x3D, 0x3D], [0x30, 0x39, 0x37, 0x20, 0x30, 0x0A, 0x3D, 0x3D, 0x3D, 0x0A]].map
      (fun A : Text => (nextOf (exec .parse (withMem 0 A 0 (BitVec.ofNat 32 A.length) 0x1000 16))).err) =
      [.malformedArtifact, .malformedArtifact] := by decide +kernel

/-! ## Illegal words, the host port, the busy hazard -/

/-- K-3. -/
theorem test_illegal_K3 :
    (fun t : State => (t.err, t.outLen, statusWord t)) (nextOf (step (base.withFetchWord 32 0x02))) =
      (.illegalCommand, 0, 0x02) := by decide +kernel

/-- K-14: CTRL's reserved bits read 0. -/
theorem test_ctrl_K14 :
    regValue (nextOf (hostStep base (.wr 0x008 4 0xFFFFFFFF))) .ctrl = 0x00000003 := by decide +kernel

/-- K-16. -/
theorem test_bad_access_K16 :
    [HostStep.wr 0x008 2 0, .rd 0x4000 4, .rd 0x002 4].map (fun h => faultOf (hostStep base h)) =
      [some .hostBadAccess, some .hostBadAccess, some .hostBadAccess] := by decide +kernel

/-- K-8: a write after COUNT was issued, when the engine's step comes first (i) and when the write does (ii). -/
theorem test_busy_K8 :
    [0, 1].map (fun d =>
      let t := nextOf (step { base.issue 0x10 d with host := [hostWr .srcLen 5] })
      let u := nextOf (step t)
      (u.srcLen, u.overrun, u.err)) = [(5, false, .ok), (0, true, .ok)] := by decide +kernel

/-- B-7's tree in the node words (10_state.md R56): 2 = (1, 0, 4). -/
theorem test_node_words :
    (nextOf (hostStep treeB7 (.rd 0x2010 4))).recorded = [.reg 0x2010 0x40000001] := by decide +kernel

/-- P5's CODE_VEC word of f = 1100: bits 0 and 1. -/
theorem test_code_vec_P5 :
    (nextOf (hostStep (withTable base [(102, [true, true, false, false])]) (.rd 0x1CC0 4))).recorded =
      [.reg 0x1CC0 0x3] := by decide +kernel

/-- R61's offset formula for s = 200 and the code 1100, where the upper map is CODE_VEC's, and the same offset where it
is NODE's: 0x2900 is NODE[288], an empty slot. -/
theorem test_code_vec_high :
    [HighMap.codeVec, .node].map (fun m =>
      (nextOf (hostStep { withTable base [(200, [true, true, false, false])] with highMap := m } (.rd 0x2900 4))).recorded) =
      [[.reg 0x2900 0x3], [.reg 0x2900 0]] := by decide +kernel

/-- R297: from one state the host reads a node and the code vector of a symbol above 127, by name. -/
theorem test_named_readback :
    [Reg.nodeWord0 2, .codeVec 200 0].map (fun r =>
      (nextOf (hostStep (withTable treeB7 [(200, [true, true, false, false])]) (hostRd r))).recorded) =
      [[.reg 0x2010 0x40000001], [.reg 0x2900 0x3]] := by decide +kernel

/-- A race: a host read inside COUNT's window while it is in flight (20_memory.md R91). -/
theorem test_race :
    faultOf (hostStep ((withMem 0 [1, 2] 0 2 0 0).issue 0x10 3) (.memRd 1)) = some .hostRace := by decide +kernel

/-! ## Witnesses: concrete states and operands that meet the hypotheses of each statement -/

theorem test_witness_OpcodeMapWords : decode 0x31 = .ok .parse := by decide

theorem test_witness_WindowsMeanTheirBytes :
    Instr.derive ∈ [Instr.nop, .clear, .build, .derive] ∧ Instr.parse ∈ [Instr.encode, .decode, .serialize, .parse] ∧
    Instr.count ∈ [Instr.nop, .clear, .count, .build, .derive] ∧ (⟨0xFFFF, 1⟩ : Window).Valid 0x10000 ∧
    (⟨0xFFFF, 1⟩ : Window).Contains 0xFFFF := by decide

theorem test_witness_RegisterMapUnambiguous_codeVec :
    (∀ s k, Reg.codeVec 255 7 = .codeVec s k → s.toNat < 128 ∨ HighMap.codeVec = .codeVec) ∧
    ∀ k, Reg.codeVec 255 7 = .nodeWord0 k ∨ Reg.codeVec 255 7 = .nodeWord1 k → k.toNat ≤ 510 ∧ HighMap.codeVec = .node := by
  refine ⟨fun _ _ _ => .inr rfl, fun k h => ?_⟩
  rcases h with h | h <;> cases h

theorem test_witness_RegisterMapUnambiguous_node :
    (∀ s k, Reg.nodeWord1 510 = .codeVec s k → s.toNat < 128 ∨ HighMap.node = .codeVec) ∧
    ∀ k, Reg.nodeWord1 510 = .nodeWord0 k ∨ Reg.nodeWord1 510 = .nodeWord1 k → k.toNat ≤ 510 ∧ HighMap.node = .node := by
  refine ⟨fun s k h => ?_, fun k h => ?_⟩
  · cases h
  · rcases h with h | h
    · cases h
    · cases h
      decide

theorem test_witness_StepRunsDecodedCommand :
    (base.issue 0x10 0).latched = some 0x10 ∧ decode 0x10 = .ok .count ∧
      ((base.issue 0x10 0).delay = 0 ∨ (base.issue 0x10 0).host = []) := by
  refine ⟨rfl, by decide, .inl rfl⟩

theorem test_witness_IllegalWordCompletes :
    ((0x111 : Word).toNat / 256 ≠ 0 ∨
      (0x111 : Word).toNat % 256 ∉ [0x00, 0x01, 0x10, 0x11, 0x12, 0x20, 0x21, 0x30, 0x31]) ∧
    (base.issue 0x111 7).latched = some 0x111 ∧
      ((base.issue 0x111 7).delay = 0 ∨ (base.issue 0x111 7).host = []) := by
  refine ⟨by decide, rfl, .inr rfl⟩

theorem test_witness_IllegalWordCompletes_op :
    ((0x32 : Word).toNat / 256 ≠ 0 ∨
      (0x32 : Word).toNat % 256 ∉ [0x00, 0x01, 0x10, 0x11, 0x12, 0x20, 0x21, 0x30, 0x31]) ∧
    (base.issue 0x32 0).latched = some 0x32 ∧ (base.issue 0x32 0).delay = 0 := by
  refine ⟨by decide, rfl, rfl⟩

theorem test_witness_NotReadyComesFirst :
    base.treeValid = false ∧ Instr.serialize ∈ [Instr.encode, .decode, .serialize] ∧ base.tableValid = false := by
  decide +kernel

theorem test_witness_NotReadyComesFirst_converse :
    ∃ t, exec .derive base = .next t ∧ t.err = .notReady := ⟨_, rfl, by decide +kernel⟩

theorem test_witness_AddressFaultComesNext_source :
    (Instr.count = .derive → base.treeValid = true) ∧
    (Instr.count ∈ [Instr.encode, .decode, .serialize] → base.tableValid = true) ∧
    ¬ WindowsFit (withMem 0 [] 0xFFFF 2 0 0) .count := by
  refine ⟨fun h => (nomatch h), fun h => absurd h (by decide), fun h => ?_⟩
  exact absurd (h.1 _ rfl) (by decide +kernel)

theorem test_witness_AddressFaultComesNext_overlap :
    (withTable (withMem 0x100 abracadabra 0x100 11 0x105 4) tableB4).tableValid = true ∧
    ¬ WindowsFit (withTable (withMem 0x100 abracadabra 0x100 11 0x105 4) tableB4) .encode := by
  refine ⟨rfl, fun h => ?_⟩
  exact absurd (h.2.2 _ rfl _ rfl) (by decide +kernel)

theorem test_witness_AddressFaultComesNext_converse :
    ∃ t, exec .count (withMem 0 [] 0xFFFF 2 0 0) = .next t ∧ t.err = .addressFault := ⟨_, rfl, by decide +kernel⟩

theorem test_witness_FailureCommit_early : ∃ t, execute 0x20 base = .next t ∧ t.err ≠ .ok ∧
    t.err ∈ [Err.illegalCommand, .notReady, .addressFault] := ⟨_, rfl, by decide +kernel, by decide +kernel⟩

theorem test_witness_FailureCommit_data :
    ∃ t, execute 0x20 (withTable (withMem 0x180 [122, 97] 0x180 2 0x200 4) tableB4) = .next t ∧ t.err ≠ .ok ∧
      ∀ i w, decode 0x20 = .ok i →
        dstWindow (withTable (withMem 0x180 [122, 97] 0x180 2 0x200 4) tableB4) i = some w → ¬ w.Contains 0x204 := by
  refine ⟨_, rfl, by decide +kernel, fun i w hi h => ?_⟩
  have hi' : i = .encode := Except.ok.inj (hi.symm.trans decode_encode_word)
  subst hi'
  cases h
  decide +kernel

theorem test_witness_CommandsWriteTheirColumnOnly : ∃ t, exec .nop base = .next t := ⟨_, rfl⟩

theorem test_witness_MemOnlyThroughWindows_writes :
    ∃ t, exec .encode (withTable (withMem 0x100 abracadabra 0x100 11 0x200 3) tableB4) = .next t ∧ t.err = .ok ∧
      ∀ w, dstWindow (withTable (withMem 0x100 abracadabra 0x100 11 0x200 3) tableB4) .encode = some w →
        ¬ w.Contains 0x203 := by
  refine ⟨_, rfl, by decide +kernel, fun w h => ?_⟩
  cases h
  decide +kernel

theorem test_witness_MemOnlyThroughWindows_reads :
    (∀ w, srcWindow (withMem 0 [7] 0 1 0 0) .count = some w → ∀ a, w.Contains a →
      Memory.read [(0, 7), (9, 9)] a = Memory.read (withMem 0 [7] 0 1 0 0).mem a) ∧
    Memory.wf (withMem 0 [7] 0 1 0 0).mem ∧ Memory.wf [(0, 7), (9, 9)] ∧
    ∃ t, exec .count (withMem 0 [7] 0 1 0 0) = .next t := by
  refine ⟨fun w h a ha => ?_, by decide +kernel, by decide +kernel, _, rfl⟩
  cases h
  have h0 : a = 0 := by
    have := ha.2
    simp only [withMem] at this
    change a < 0 + 1 at this
    omega
  subst h0
  decide +kernel

theorem test_witness_CountCompletes :
    (withMem 0 [0x00, 0x0A, 0x0A, 0xFF] 0 4 0 0).srcBytesWindow.Valid 0x10000 ∧
    (withMem 0xFFFF [0x71] 0xFFFF 1 0 0).srcBytesWindow.Valid 0x10000 ∧
    (withMem 0 [] 0xFFFFFFFF 0 0 0).srcBytesWindow.Valid 0x10000 ∧
    ¬ (withMem 0 [] 0xFFFF 2 0 0).srcBytesWindow.Valid 0x10000 := by decide +kernel

theorem test_witness_BuildCompletes :
    freqN (withFreq base [(97, 3), (98, 1)]).freq = 2 ∧ freqSum (withFreq base [(97, 3), (98, 1)]).freq ≤ 2 ^ 32 - 1 := by
  decide +kernel

theorem test_witness_BuildCompletes_limit :
    freqN (withFreq base [(0, 0xFFFFFFFE), (1, 1)]).freq = 2 ∧
    freqSum (withFreq base [(0, 0xFFFFFFFE), (1, 1)]).freq = 2 ^ 32 - 1 := by decide +kernel

theorem test_witness_BuildMergesMinimumKeys :
    ∃ t, exec .build (withFreq base [(97, 3), (98, 1)]) = .next t ∧ t.err = .ok ∧
      0 + 1 < freqN (withFreq base [(97, 3), (98, 1)]).freq := ⟨_, rfl, by decide +kernel, by decide +kernel⟩

theorem test_witness_BuildErrors_empty : ∀ sym, symGet base.freq sym = 0 := fun sym => by
  simp [base, State.reset]

theorem test_witness_BuildErrors_sum :
    symGet (withFreq base [(0, 0xFFFFFFFF), (1, 1)]).freq 1 ≠ 0 ∧
    2 ^ 32 - 1 < freqSum (withFreq base [(0, 0xFFFFFFFF), (1, 1)]).freq := by decide +kernel

theorem test_witness_BuildErrors_converse :
    ∃ t, exec .build base = .next t ∧ t.err = .invalidInput := ⟨_, rfl, by decide +kernel⟩

theorem test_witness_DeriveRecordsPaths_internal :
    treeB7.treeValid = true ∧ TreeOk treeB7 ∧ treeB7.tree.at treeB7.tree.root.toNat = .internal 1 0 4 :=
  ⟨rfl, treeB7_ok, by decide +kernel⟩

theorem test_witness_DeriveRecordsPaths_leaf :
    treeB2.treeValid = true ∧ TreeOk treeB2 ∧ treeB2.tree.at treeB2.tree.root.toNat = .leaf 97 1 :=
  ⟨rfl, treeB2_ok, by decide +kernel⟩

theorem test_witness_DeriveGuarantees :
    treeB7.treeValid = true ∧ TreeOk treeB7 ∧ (∃ t, exec .derive treeB7 = .next t) ∧ 2 ≤ treeB7.tree.leafCount ∧
      treeB2.tree.leafCount = 1 := by
  refine ⟨rfl, treeB7_ok, ⟨_, rfl⟩, by decide +kernel, by decide +kernel⟩

/-- ENCODE of "ab" by a = 0, b = 1 with the exact capacity. -/
def encodeAB : State := withTable (withMem 0 [97, 98] 0 2 0x10 1) tableAB

theorem encodeAB_tableOk : TableOk encodeAB :=
  ⟨noStrayBits_tableAB, fun _ => ⟨by decide +kernel, codeEntries_tableAB.symm ▸ (by decide : PrefixFree tableAB)⟩,
    fun h => (nomatch h)⟩

theorem encodeAB_windows : WindowsFit encodeAB .encode := by
  refine ⟨fun w h => ?_, fun w h => ?_, fun w h w' h' => ?_⟩
  · cases h
    decide +kernel
  · cases h
    decide +kernel
  · cases h
    cases h'
    decide +kernel

theorem test_witness_EncodeCompletes :
    Memory.wf encodeAB.mem ∧ encodeAB.tableValid = true ∧ WindowsFit encodeAB .encode ∧
    (∀ x ∈ encodeAB.input, symGet encodeAB.table.len x ≠ 0) ∧
    [false, true] = codesOf encodeAB.table encodeAB.input ∧ ceil8 [false, true].length ≤ encodeAB.dstCap.toNat :=
  ⟨by decide +kernel, rfl, encodeAB_windows, by decide +kernel, by decide +kernel, by decide +kernel⟩

/-- ENCODE of "az" and of "a" where nothing fits (vectors E-4, E-5). -/
def encodeAZ (cap : Word) : State := withTable (withMem 0 [97, 122] 0 2 0x10 cap) tableAB

theorem encodeAZ_windows : WindowsFit (encodeAZ 4) .encode ∧ WindowsFit (encodeAZ 0) .encode := by
  refine ⟨⟨fun w h => ?_, fun w h => ?_, fun w h w' h' => ?_⟩, fun w h => ?_, fun w h => ?_, fun w h w' h' => ?_⟩ <;>
    cases h <;> first | (cases h'; decide +kernel) | decide +kernel

theorem test_witness_EncodeFirstErrorWins_unknown :
    (encodeAZ 4).tableValid = true ∧ WindowsFit (encodeAZ 4) .encode ∧
    (encodeAZ 4).input = [97] ++ 122 :: [] ∧ (∀ y ∈ ([97] : Text), symGet (encodeAZ 4).table.len y ≠ 0) ∧
    (codesOf (encodeAZ 4).table [97]).length ≤ 2 ^ 32 - 1 ∧
    ceil8 (codesOf (encodeAZ 4).table [97]).length ≤ (encodeAZ 4).dstCap.toNat ∧
    symGet (encodeAZ 4).table.len 122 = 0 :=
  ⟨rfl, encodeAZ_windows.1, by decide +kernel, by decide +kernel, by decide +kernel, by decide +kernel,
    by decide +kernel⟩

theorem test_witness_EncodeFirstErrorWins_capacity :
    (encodeAZ 0).tableValid = true ∧ WindowsFit (encodeAZ 0) .encode ∧
    (encodeAZ 0).input = [] ++ 97 :: [122] ∧
    (codesOf (encodeAZ 0).table []).length ≤ 2 ^ 32 - 1 ∧
    ceil8 (codesOf (encodeAZ 0).table []).length ≤ (encodeAZ 0).dstCap.toNat ∧
    symGet (encodeAZ 0).table.len 97 ≠ 0 ∧
    (encodeAZ 0).dstCap.toNat < ceil8 (codesOf (encodeAZ 0).table ([] ++ [97])).length :=
  ⟨rfl, encodeAZ_windows.2, by decide +kernel, by decide +kernel, by decide +kernel, by decide +kernel,
    by decide +kernel⟩

/-- DECODE of 010 under x = 01, y = 1 (L1.7). -/
def decodeXY (cap : Word) (legacy : Bool) : State :=
  { withTable (withMem 0x40 [0x40] 0x40 0 0x80 cap) tableXY with bitLen := 3, legacyTrunc := legacy }

theorem decodeXY_entries (cap : Word) (legacy : Bool) : codeEntries (decodeXY cap legacy).table = tableXY :=
  codeEntries_tableXY

theorem decodeXY_windows :
    WindowsFit (decodeXY 4 true) .decode ∧ WindowsFit (decodeXY 4 false) .decode ∧
      WindowsFit (decodeXY 0 false) .decode := by
  refine ⟨⟨fun w h => ?_, fun w h => ?_, fun w h w' h' => ?_⟩, ⟨fun w h => ?_, fun w h => ?_, fun w h w' h' => ?_⟩,
      fun w h => ?_, fun w h => ?_, fun w h w' h' => ?_⟩ <;>
    cases h <;> first | (cases h'; decide +kernel) | decide +kernel

theorem test_witness_DecodeCompletes :
    Memory.wf (decodeXY 4 true).mem ∧ (decodeXY 4 true).tableValid = true ∧
    PrefixFree (codeEntries (decodeXY 4 true).table) ∧ WindowsFit (decodeXY 4 true) .decode ∧
    payloadBits (decodeXY 4 true).mem (decodeXY 4 true).srcAddr.toNat (decodeXY 4 true).bitLen.toNat =
      codesOf (decodeXY 4 true).table [120] ++ [false] ∧
    (∀ x ∈ ([120] : Text), symGet (decodeXY 4 true).table.len x ≠ 0) ∧
    (∀ e ∈ codeEntries (decodeXY 4 true).table, ¬ e.2 <+: [false]) ∧
    (([false] : Bits) = [] ∨ (decodeXY 4 true).legacyTrunc = true) ∧
    ([120] : Text).length ≤ (decodeXY 4 true).dstCap.toNat :=
  ⟨by decide +kernel, rfl, by rw [decodeXY_entries]; decide, decodeXY_windows.1, by decide +kernel,
    by decide +kernel, by rw [decodeXY_entries]; decide, .inr rfl, by decide +kernel⟩

theorem test_witness_DecodeErrors_truncated :
    (decodeXY 4 false).tableValid = true ∧ PrefixFree (codeEntries (decodeXY 4 false).table) ∧
    WindowsFit (decodeXY 4 false) .decode ∧
    payloadBits (decodeXY 4 false).mem (decodeXY 4 false).srcAddr.toNat (decodeXY 4 false).bitLen.toNat =
      codesOf (decodeXY 4 false).table [120] ++ [false] ∧
    (∀ x ∈ ([120] : Text), symGet (decodeXY 4 false).table.len x ≠ 0) ∧
    (∀ e ∈ codeEntries (decodeXY 4 false).table, ¬ e.2 <+: [false]) ∧ ([false] : Bits) ≠ [] ∧
    (decodeXY 4 false).legacyTrunc = false ∧ ([120] : Text).length ≤ (decodeXY 4 false).dstCap.toNat :=
  ⟨rfl, by rw [decodeXY_entries]; decide, decodeXY_windows.2.1, by decide +kernel,
    by decide +kernel, by rw [decodeXY_entries]; decide, by decide, rfl, by decide +kernel⟩

theorem test_witness_DecodeErrors_capacity :
    (decodeXY 0 false).tableValid = true ∧ PrefixFree (codeEntries (decodeXY 0 false).table) ∧
    WindowsFit (decodeXY 0 false) .decode ∧
    payloadBits (decodeXY 0 false).mem (decodeXY 0 false).srcAddr.toNat (decodeXY 0 false).bitLen.toNat =
      codesOf (decodeXY 0 false).table ([] ++ [120]) ++ [false] ∧
    (∀ y ∈ ([] ++ [120] : Text), symGet (decodeXY 0 false).table.len y ≠ 0) ∧
    ([] : Text).length = (decodeXY 0 false).dstCap.toNat :=
  ⟨rfl, by rw [decodeXY_entries]; decide, decodeXY_windows.2.2, by decide +kernel, by decide +kernel,
    by decide +kernel⟩

/-- SERIALIZE of a = 0 and the payload 0000 (vector S-8), 13 bytes. -/
def serializeA (cap : Word) : State :=
  { withTable (withMem 0x10 [] 0x10 0 0x20 cap) tableA with bitLen := 4 }

theorem serializeA_lines (cap : Word) : tableLines (serializeA cap).table = tableA := tableLines_tableA

theorem serializeA_tableOk : TableOk (serializeA 13) :=
  ⟨noStrayBits_tableA, fun _ => ⟨by decide +kernel, codeEntries_tableA.symm ▸ (by decide : PrefixFree tableA)⟩,
    fun h => (nomatch h)⟩

theorem serializeA_windows : WindowsFit (serializeA 13) .serialize ∧ WindowsFit (serializeA 12) .serialize := by
  refine ⟨⟨fun w h => ?_, fun w h => ?_, fun w h w' h' => ?_⟩, fun w h => ?_, fun w h => ?_, fun w h w' h' => ?_⟩ <;>
    cases h <;> first | (cases h'; decide +kernel) | decide +kernel

theorem test_witness_SerializeCompletes_fits :
    Memory.wf (serializeA 13).mem ∧ (serializeA 13).tableValid = true ∧ WindowsFit (serializeA 13) .serialize ∧
    (artifactText (tableLines (serializeA 13).table)
      (payloadBits (serializeA 13).mem (serializeA 13).srcAddr.toNat (serializeA 13).bitLen.toNat)).length ≤
      (serializeA 13).dstCap.toNat := 
  ⟨by decide +kernel, rfl, serializeA_windows.1, by rw [serializeA_lines]; decide +kernel⟩

theorem test_witness_SerializeCompletes_capacity :
    Memory.wf (serializeA 12).mem ∧ (serializeA 12).tableValid = true ∧ WindowsFit (serializeA 12) .serialize ∧
    (serializeA 12).dstCap.toNat < (artifactText (tableLines (serializeA 12).table)
      (payloadBits (serializeA 12).mem (serializeA 12).srcAddr.toNat (serializeA 12).bitLen.toNat)).length :=
  ⟨by decide +kernel, rfl, serializeA_windows.2, by rw [serializeA_lines]; decide +kernel⟩

/-- PARSE of "98 1\n97 0\n===\n01" (vector P-14), with more bytes in MEM than the window has. -/
def parseBA (len cap : Word) : State :=
  withMem 0 [0x39, 0x38, 0x20, 0x31, 0x0A, 0x39, 0x37, 0x20, 0x30, 0x0A, 0x3D, 0x3D, 0x3D, 0x0A, 0x30, 0x31, 0x78]
    0 len 0x1000 cap

theorem parseBA_windows (len cap : Word) (hl : len.toNat ≤ 17) (hc : cap.toNat ≤ 16) :
    WindowsFit (parseBA len cap) .parse := by
  refine ⟨fun w hw => ?_, fun w hw => ?_, fun w hw w' hw' => ?_⟩
  · cases hw
    refine .inr ?_
    change 0 + len.toNat ≤ 0x10000
    omega
  · cases hw
    refine .inr ?_
    change 0x1000 + cap.toNat ≤ 0x10000
    omega
  · cases hw
    cases hw'
    rintro ⟨-, -, h3⟩
    change max 0 0x1000 < min (0 + len.toNat) (0x1000 + cap.toNat) at h3
    omega

/-- The lines of P-14, in the artifact's order. -/
def linesBA : List (Byte × Bits) := [(98, [true]), (97, [false])]

theorem test_witness_ParseCompletes :
    Memory.wf (parseBA 16 1).mem ∧ WindowsFit (parseBA 16 1) .parse ∧ LinesOk linesBA ∧
    (parseBA 16 1).input = artifactText linesBA [false, true] ∧
    ceil8 [false, true].length ≤ (parseBA 16 1).dstCap.toNat :=
  ⟨by decide +kernel, parseBA_windows 16 1 (by decide) (by decide), by decide, by decide +kernel, by decide +kernel⟩

/-- The line accepted at its limits: the last symbol, one code bit, a rest that is not a line. -/
theorem test_witness_ParseLineExact :
    parseLine (lineText (255, [true]) ++ [0x3D]) = .ok (255, [true], [0x3D]) := by decide +kernel

theorem test_witness_ParseRejects :
    WindowsFit (parseBA 0 16) .parse ∧ ceil8 (parseBA 0 16).srcLen.toNat ≤ (parseBA 0 16).dstCap.toNat ∧
    ¬ ∃ E payload, LinesOk E ∧ (parseBA 0 16).input = artifactText E payload := by
  refine ⟨parseBA_windows 0 16 (by decide) (by decide), by decide +kernel, ?_⟩
  rintro ⟨E, payload, -, h⟩
  have h0 : (parseBA 0 16).input = [] := rfl
  rw [h0, artifactText] at h
  simp at h

/-- R251's artifact of table lines only, and P-11's equal codes before a payload bit, both with DST_CAP = 0. -/
theorem test_parse_table_errors_small_cap :
    [([0x39, 0x37, 0x20, 0x30, 0x0A], 0),
      ([0x39, 0x37, 0x20, 0x30, 0x0A, 0x39, 0x38, 0x20, 0x30, 0x0A, 0x3D, 0x3D, 0x3D, 0x0A, 0x30], 0)].map
      (fun A : Text × Word => (nextOf (exec .parse
        (withMem 0 A.1 0 (BitVec.ofNat 32 A.1.length) 0x1000 A.2))).err) =
      [.malformedArtifact, .malformedArtifact] := by decide +kernel

theorem test_witness_ParseRejects_table :
    WindowsFit (parseBA 0 0) .parse ∧
    ¬ ∃ E rest, LinesOk E ∧ (parseBA 0 0).input = E.flatMap lineText ++ [0x3D, 0x3D, 0x3D, 0x0A] ++ rest := by
  refine ⟨parseBA_windows 0 0 (by decide) (by decide), ?_⟩
  rintro ⟨E, rest, -, h⟩
  have h0 : (parseBA 0 0).input = [] := rfl
  rw [h0] at h
  simp at h

theorem test_witness_ParsePayloadErrors_character :
    WindowsFit (parseBA 17 1) .parse ∧ LinesOk linesBA ∧
    (parseBA 17 1).input = artifactText linesBA [false, true] ++ 0x78 :: [] ∧
    ceil8 [false, true].length ≤ (parseBA 17 1).dstCap.toNat :=
  ⟨parseBA_windows 17 1 (by decide) (by decide), by decide, by decide +kernel, by decide +kernel⟩

theorem test_witness_ParsePayloadErrors_capacity :
    WindowsFit (parseBA 16 0) .parse ∧ LinesOk linesBA ∧
    (parseBA 16 0).input = artifactText linesBA [] ++ 0x30 :: [0x31] ∧
    ceil8 ([] : Bits).length ≤ (parseBA 16 0).dstCap.toNat ∧
    (parseBA 16 0).dstCap.toNat < ceil8 (([] : Bits).length + 1) :=
  ⟨parseBA_windows 16 0 (by decide) (by decide), by decide, by decide +kernel, by decide +kernel, by decide +kernel⟩

theorem test_witness_OnlyBuildClearResetChangeTree :
    ∃ t, step (treeB7.withFetchWord 32 0x01) = .next t ∧ t.tree ≠ (treeB7.withFetchWord 32 0x01).tree :=
  ⟨_, rfl, fun h => absurd (congrArg Tree.count h) (by decide +kernel)⟩

theorem test_witness_OnlyDeriveParseClearResetChangeTable :
    ∃ t, step (treeB7.withFetchWord 32 0x12) = .next t ∧ t.table ≠ (treeB7.withFetchWord 32 0x12).table :=
  ⟨_, rfl, fun h => absurd (congrArg tableN h) (by decide +kernel)⟩

theorem test_witness_OnlyCommitOrResetChangesResult :
    ∃ t, step (base.withFetchWord 32 0x12) = .next t ∧ t.err ≠ (base.withFetchWord 32 0x12).err :=
  ⟨_, rfl, by decide +kernel⟩

theorem test_witness_BusyWritesSetOverrun :
    (base.issue 0x10 3).busy = true ∧ (0x028 ∈ [0x014, 0x008, 0x018, 0x01C, 0x020, 0x024, 0x028]) ∧
      ∃ k < 256, 0x7FC = 0x400 + 4 * k := ⟨rfl, by decide, 255, by decide, rfl⟩

theorem test_witness_RegisterReads_named :
    (base.issue 0x10 3).busy = true ∧
      Reg.dstCap ∈ [Reg.id, .ctrl, .status, .err, .cmd, .srcAddr, .srcLen, .dstAddr, .dstCap] := by decide +kernel

theorem test_witness_RegisterReads :
    0x3FFC % 4 = 0 ∧ 0x3FFC < 0x4000 ∧ base.busy = false ∧
      0x024 ∈ [0x000, 0x008, 0x00C, 0x010, 0x014, 0x018, 0x01C, 0x020, 0x024] := by decide +kernel

theorem test_witness_OperandWritesStore : base.busy = false := rfl

theorem test_witness_FreqWriteStores : treeB7.busy = false ∧ ∃ t, exec .count treeB7 = .next t := ⟨rfl, _, rfl⟩

theorem test_witness_RegisterValues : treeB7.busy = false := rfl

/-- STATUS reads 1 in bit 0 while a command is in flight (10_state.md R23, R40). -/
theorem test_status_while_busy :
    (nextOf (hostStep (base.issue 0x10 3) (.rd 0x00C 4))).recorded = [.reg 0x00C 0x1] := by decide +kernel

theorem test_witness_DerivedCounts : treeB7.busy = false := rfl

theorem test_witness_ErrorsPerCommand : decode 0x02 = .error .unknownOpcode := by decide

theorem test_witness_CtrlAndStatusWrites : base.busy = false := rfl

theorem test_witness_ReadOnlyAndReserved :
    0x2FF8 % 4 = 0 ∧ 0x2FF8 < 0x4000 ∧ 0x2FF8 ∉ [0x014, 0x008, 0x00C, 0x018, 0x01C, 0x020, 0x024, 0x028] ∧
      ¬ (0x400 ≤ 0x2FF8 ∧ 0x2FF8 < 0x800) ∧ (base.highMap = .node ∧ 0x2FF8 ≤ 0x2FF8 ∧ 0x2FF8 < 0x3000) := by
  decide +kernel

theorem test_witness_BadHostAccessFaults : (4 ≠ 4 ∨ 0x002 % 4 ≠ 0 ∨ 0x4000 ≤ 0x002) := by decide

theorem test_witness_BadHostAccessFaults_mem : base.memSize ≤ 0x10000 := by decide

theorem test_witness_OnlyHostAccessesFault :
    step { base with host := [.rd 0x4000 4] } = .fault .hostBadAccess := rfl

theorem test_witness_HostMemAccess_race :
    Memory.wf ((withMem 0 [1, 2] 0 2 0 0).issue 0x10 3).mem ∧ 1 < ((withMem 0 [1, 2] 0 2 0 0).issue 0x10 3).memSize ∧
    ∃ c i w, ((withMem 0 [1, 2] 0 2 0 0).issue 0x10 3).latched = some c ∧ decode c = .ok i ∧
      (srcWindow ((withMem 0 [1, 2] 0 2 0 0).issue 0x10 3) i = some w ∨
        dstWindow ((withMem 0 [1, 2] 0 2 0 0).issue 0x10 3) i = some w) ∧ w.Contains 1 :=
  ⟨by decide +kernel, by decide +kernel, 0x10, .count, _, rfl, by decide, .inl rfl, by decide +kernel⟩

theorem test_witness_HostMemAccess_outside :
    Memory.wf ((withMem 0 [1, 2] 0 2 0 0).issue 0x10 3).mem ∧ 2 < ((withMem 0 [1, 2] 0 2 0 0).issue 0x10 3).memSize ∧
    ∀ c i w, ((withMem 0 [1, 2] 0 2 0 0).issue 0x10 3).latched = some c → decode c = .ok i →
      srcWindow ((withMem 0 [1, 2] 0 2 0 0).issue 0x10 3) i = some w ∨
        dstWindow ((withMem 0 [1, 2] 0 2 0 0).issue 0x10 3) i = some w → ¬ w.Contains 2 := by
  refine ⟨by decide +kernel, by decide +kernel, fun c i w hc hd hw => ?_⟩
  cases hc
  have hi : i = .count := Except.ok.inj (hd.symm.trans decode_count_word)
  subst hi
  rcases hw with h | h
  · cases h
    decide +kernel
  · cases h

theorem test_witness_IssueLatchesTheWord : base.busy = false := rfl

theorem test_witness_ResetSignal :
    ∀ v i w, (encodeAB.issue 0x20 3).latched = some v → decode v = .ok i →
      dstWindow (encodeAB.issue 0x20 3) i = some w → ¬ w.Contains 0x11 := by
  intro v i w hv hd hw
  cases hv
  have hi : i = .encode := Except.ok.inj (hd.symm.trans decode_encode_word)
  subst hi
  cases hw
  decide +kernel

theorem test_witness_ResetReads : 0x3FFC % 4 = 0 ∧ 0x3FFC < 0x4000 := by decide

theorem test_witness_InterruptLine :
    (∃ t, execute 0x00 { base with irqEn := true } = .next t) ∧
    ((0x2 : Word).getLsbD 1 = true ∧ ∃ t, hostStep base (.wr 0x00C 4 0x2) = .next t) ∧
    (base.busy = false ∧ ∃ t, hostStep base (.wr 0x014 4 0) = .next t) ∧
    (base.busy = false ∧ (1 : Word).getLsbD 1 = false ∧ ∃ t, hostStep base (.wr 0x008 4 1) = .next t) ∧
    ((base.issue 0x00 0).done = false ∧ ∃ t, step (base.issue 0x00 0) = .next t ∧ t.done = true) :=
  ⟨⟨_, rfl⟩, ⟨by decide, _, rfl⟩, ⟨rfl, _, rfl⟩, ⟨rfl, by decide, _, rfl⟩, rfl, _, rfl, rfl⟩

theorem test_witness_NodeReadback :
    treeB7.busy = false ∧ treeB7.highMap = .node ∧ (510 : NodeIdx).toNat ≤ 510 ∧ treeB7.tree.at 510 = .empty ∧ treeB7.tree.at 0 = .leaf 97 3 ∧
      treeB7.tree.at 2 = .internal 1 0 4 := by
  decide +kernel

theorem test_witness_CodeVecReadback :
    encodeAB.busy = false ∧ NoStrayBits encodeAB.table ∧ (98 : Byte).toNat < 128 :=
  ⟨rfl, noStrayBits_tableAB, by decide⟩

theorem test_witness_CodeVecReadback_high :
    ({ encodeAB with highMap := .codeVec } : State).busy = false ∧
    NoStrayBits ({ encodeAB with highMap := .codeVec } : State).table ∧
    ({ encodeAB with highMap := .codeVec } : State).highMap = .codeVec :=
  ⟨rfl, noStrayBits_tableAB, rfl⟩

theorem test_witness_StepKeepsMemory :
    MemOk (encodeAB.withFetchWord 32 0x20) ∧ ∃ t, step (encodeAB.withFetchWord 32 0x20) = .next t :=
  ⟨by decide +kernel, _, rfl⟩

theorem test_witness_StepKeepsTree :
    TreeOk (treeB7.withFetchWord 32 0x11) ∧ ∃ t, step (treeB7.withFetchWord 32 0x11) = .next t :=
  ⟨treeB7_ok, _, rfl⟩

theorem test_witness_StepKeepsTable :
    TreeOk (treeB7.withFetchWord 32 0x12) ∧ TableOk (treeB7.withFetchWord 32 0x12) ∧
      ∃ t, step (treeB7.withFetchWord 32 0x12) = .next t :=
  ⟨treeB7_ok, ⟨noStrayBits_cleared, fun h => (nomatch h), fun _ => rfl⟩, _, rfl⟩

theorem test_witness_StepKeepsBusyDone :
    BusyOk (base.withFetchWord 32 0x00) ∧ ∃ t, step (base.withFetchWord 32 0x00) = .next t :=
  ⟨by decide +kernel, _, rfl⟩

theorem test_witness_EngineStepNotDisabled :
    ({ base.issue 0x10 2 with host := [hostCmd 1] } : State).latched = some 0x10 ∧
    ∃ t, step { base.issue 0x10 2 with host := [hostCmd 1] } = .next t := ⟨rfl, _, rfl⟩

theorem test_witness_CodecRoundTrip :
    Memory.wf encodeAB.mem ∧ encodeAB.tableValid = true ∧ TableOk encodeAB ∧ WindowsFit encodeAB .encode ∧
    (∀ x ∈ encodeAB.input, symGet encodeAB.table.len x ≠ 0) ∧
    [false, true] = codesOf encodeAB.table encodeAB.input ∧ ceil8 [false, true].length ≤ encodeAB.dstCap.toNat ∧
    Window.Valid ⟨(0x20 : Word).toNat, (2 : Word).toNat⟩ encodeAB.memSize ∧
    ¬ Window.Overlap ⟨encodeAB.dstAddr.toNat, ceil8 [false, true].length⟩ ⟨(0x20 : Word).toNat, (2 : Word).toNat⟩ ∧
    encodeAB.srcLen.toNat ≤ (2 : Word).toNat :=
  ⟨by decide +kernel, rfl, encodeAB_tableOk, encodeAB_windows, by decide +kernel, by decide +kernel,
    by decide +kernel, by decide +kernel, by decide +kernel, by decide +kernel⟩

theorem test_witness_ArtifactRoundTrip :
    Memory.wf (serializeA 13).mem ∧ (serializeA 13).tableValid = true ∧ TableOk (serializeA 13) ∧
    WindowsFit (serializeA 13) .serialize ∧
    (artifactText (tableLines (serializeA 13).table)
      (payloadBits (serializeA 13).mem (serializeA 13).srcAddr.toNat (serializeA 13).bitLen.toNat)).length = 13 ∧
    13 ≤ (serializeA 13).dstCap.toNat ∧
    Window.Valid ⟨(0x40 : Word).toNat, (1 : Word).toNat⟩ (serializeA 13).memSize ∧
    ¬ Window.Overlap ⟨(serializeA 13).dstAddr.toNat, 13⟩ ⟨(0x40 : Word).toNat, (1 : Word).toNat⟩ ∧
    ceil8 (serializeA 13).bitLen.toNat ≤ (1 : Word).toNat :=
  ⟨by decide +kernel, rfl, serializeA_tableOk, serializeA_windows.1, by rw [serializeA_lines]; decide +kernel, by decide +kernel,
    by decide +kernel, by decide +kernel, by decide +kernel⟩

theorem test_witness_PipelineCodesItsInput :
    (withMem 0 [97, 98, 97] 0 3 0 0).srcBytesWindow.Valid 0x10000 ∧ (withMem 0 [97, 98, 97] 0 3 0 0).input ≠ [] := by
  decide +kernel

theorem test_witness_BuildIsOptimal :
    2 ≤ freqN treeB7.freq ∧
    (∃ b, exec .build treeB7 = .next b ∧ b.err = .ok ∧ ∃ c, exec .derive b = .next c) ∧
    (BinTree.node (.leaf 98) (.leaf 97)).leaves.Perm (symbols.filter fun x => symGet treeB7.freq x ≠ 0) := by
  exact ⟨by decide +kernel, ⟨_, rfl, by decide +kernel, _, rfl⟩, by decide +kernel⟩

end Sys2Proof.Tests
end

/-! PROOF. The register file seen from the host (10_state.md): which register a guarded offset names, what a write to it
does, and what the derived counts read. -/

namespace Sys2Proof.Machine

/-! ## Writes of CMD, CTRL, the operand registers and FREQ; COUNT -/

/-- The offset of FREQ[s] names FREQ[s], whichever row the upper map follows (10_state.md R20). -/
theorem regAt_freq (m : HighMap) (sym : Byte) : regAt m (0x400 + 4 * sym.toNat) = .freq sym := by
  have hlt : sym.toNat < 256 := sym.isLt
  have hidx : (0x400 + 4 * sym.toNat - 0x400) / 4 = sym.toNat := by omega
  unfold regAt
  repeat rw [if_neg (by omega)]
  rw [if_pos (by omega), hidx, BitVec.ofNat_toNat, BitVec.setWidth_eq]

theorem regAccessOk_freq (sym : Byte) : regAccessOk (0x400 + 4 * sym.toNat) 4 := by
  have hlt : sym.toNat < 256 := sym.isLt
  rw [regAccessOk, Config.regSpace]
  omega

/-- The registers whose write is lost while BUSY = 1: CMD, CTRL, the operand registers and FREQ (10_state.md R39). -/
def Reg.isGuarded : Reg → Bool
  | .cmd | .ctrl | .srcAddr | .srcLen | .dstAddr | .dstCap | .bitLen | .freq _ => true
  | .id | .status | .err | .outLen | .freqN | .tableN | .maxLen | .nodeCount | .rootIdx | .rootWeight => false
  | .codeLen _ | .codeVec _ _ | .nodeWord0 _ | .nodeWord1 _ | .reserved => false

/-- A write of a guarded register while BUSY = 1 sets OVERRUN and changes nothing else (10_state.md R39). -/
theorem writeReg_of_busy {s : State} (hb : s.busy = true) {r : Reg} (hr : r.isGuarded = true) (v : Word) :
    writeReg s r v = { s with overrun := true } := by
  cases r with
  | cmd | ctrl | srcAddr | srcLen | dstAddr | dstCap | bitLen | freq => exact State.guardedWrite_of_busy hb _
  | _ => cases hr

/-- The offsets R39 lists are aligned, inside REG, and name the guarded registers (10_state.md R20). -/
theorem regAt_isGuarded (m : HighMap) {off : Nat}
    (h : off ∈ [0x014, 0x008, 0x018, 0x01C, 0x020, 0x024, 0x028] ∨ ∃ k < 256, off = 0x400 + 4 * k) :
    regAccessOk off 4 ∧ (regAt m off).isGuarded = true := by
  rcases h with h | ⟨k, hk, rfl⟩
  · simp only [List.mem_cons, List.not_mem_nil, or_false] at h
    rcases h with rfl | rfl | rfl | rfl | rfl | rfl | rfl <;> exact ⟨by decide, rfl⟩
  · have hsym : (BitVec.ofNat 8 k).toNat = k := by rw [BitVec.toNat_ofNat, Nat.mod_eq_of_lt hk]
    rw [← hsym, regAt_freq]
    exact ⟨regAccessOk_freq _, rfl⟩

/-- A write of FREQ[s] while BUSY = 0 is the array update alone (10_state.md R50). -/
theorem writeReg_freq {s : State} (hb : s.busy = false) (sym : Byte) (v : Word) :
    writeReg s (.freq sym) v = { s with freq := symSet s.freq sym v } :=
  State.guardedWrite_of_idle hb _

/-- COUNT ends in an address fault or publishes the counts of its source window, and nothing else
(41_tree_builder.md R150). -/
theorem exec_count_cases {s t : State} (h : exec .count s = .next t) :
    t = s.fail .addressFault ∨ t = { s with freq := countSymbols s.srcBytes }.complete 0 := by
  rcases exec_cases h with ⟨e, hpre, -⟩ | ⟨-, -, ht⟩ | ⟨-, -, e, hbody, -⟩ | ⟨-, -, u, n, hbody, ht⟩
  · cases hpre
  · exact .inl ht
  · cases hbody
  · cases hbody
    exact .inr ht

/-! ## FREQ_N, TABLE_N and MAX_LEN -/

/-- The array read symbol by symbol, ascending, is the array. -/
theorem map_symGet_symbols {α : Type} (x : Vector α 256) : symbols.map (symGet x) = x.toList := by
  refine List.ext_getElem (by simp [symbols]) fun i h₁ h₂ => ?_
  have hi : i < 256 := by simpa using h₂
  simp [symbols, symGet, Nat.mod_eq_of_lt hi]

/-- Counting the entries of an array is counting the symbols whose entry qualifies. -/
theorem countP_toList_eq_length_filter {α : Type} (p : α → Bool) (x : Vector α 256) :
    x.toList.countP p = (symbols.filter fun s => p (symGet x s)).length := by
  rw [← map_symGet_symbols, List.countP_map, List.countP_eq_length_filter]
  rfl

/-- FREQ_N counts the symbols with a count (10_state.md R32). -/
theorem freqN_eq_length_filter (f : Vector Word 256) :
    freqN f = (symbols.filter fun s => symGet f s ≠ 0).length :=
  countP_toList_eq_length_filter _ f

/-- TABLE_N counts the symbols with a code (10_state.md R33). -/
theorem tableN_eq_length_filter (t : CodeTable) :
    tableN t = (symbols.filter fun s => symGet t.len s ≠ 0).length :=
  countP_toList_eq_length_filter _ t.len

theorem freqN_le (f : Vector Word 256) : freqN f ≤ 256 := by
  simpa [freqN] using List.countP_le_length (p := (· ≠ 0)) (l := f.toList)

theorem tableN_le (t : CodeTable) : tableN t ≤ 256 := by
  simpa [tableN] using List.countP_le_length (p := (· ≠ 0)) (l := t.len.toList)

/-- MAX_LEN is the greatest element of 0 and the code lengths (10_state.md R34). -/
theorem maxLen_eq_max? (t : CodeTable) :
    (0 :: symbols.map fun s => (symGet t.len s).toNat).max? = some (maxLen t) := by
  rw [List.max?_cons', maxLen, ← map_symGet_symbols, List.foldl_map, List.foldl_map]

/-- No code is longer than MAX_LEN (10_state.md R34). -/
theorem symGet_len_le_maxLen (t : CodeTable) (s : Byte) : (symGet t.len s).toNat ≤ maxLen t := by
  obtain ⟨-, hmax⟩ := List.max?_eq_some_iff.1 (maxLen_eq_max? t)
  exact hmax _ (List.mem_cons_of_mem _ (List.mem_map_of_mem (mem_symbols s)))

/-- MAX_LEN is 0 or the length of some code (10_state.md R34). -/
theorem maxLen_eq_zero_or_exists (t : CodeTable) :
    maxLen t = 0 ∨ ∃ s, (symGet t.len s).toNat = maxLen t := by
  obtain ⟨hmem, -⟩ := List.max?_eq_some_iff.1 (maxLen_eq_max? t)
  rcases List.mem_cons.1 hmem with h0 | hmem
  · exact .inl h0
  · obtain ⟨s, -, hs⟩ := List.mem_map.1 hmem
    exact .inr ⟨s, hs⟩

theorem maxLen_lt (t : CodeTable) : maxLen t < 256 := by
  rcases maxLen_eq_zero_or_exists t with h0 | ⟨s, hs⟩
  · omega
  · exact hs ▸ (symGet t.len s).isLt

/-- A register value of at most 256 is read back as the number it was made from. -/
theorem toNat_ofNat_word {n : Nat} (h : n ≤ 256) : (BitVec.ofNat 32 n).toNat = n := by
  rw [BitVec.toNat_ofNat, Nat.mod_eq_of_lt (by omega)]

/-! ## The obligations -/

/-- Settles O34: the offset names a guarded register, whose write is lost while BUSY = 1. -/
theorem busyWritesSetOverrun : Obligations.BusyWritesSetOverrun := by
  intro s off v hb hoff
  obtain ⟨hacc, hguard⟩ := regAt_isGuarded s.highMap hoff
  rw [hostStep_wr hacc, writeReg_of_busy hb hguard]

/-- Settles O38: the FREQ write is one array update, and COUNT's commit carries the tree and the code table over. -/
theorem freqWriteStores : Obligations.FreqWriteStores := by
  refine ⟨fun s sym v hb => ⟨symSet s.freq sym v, ?_, symGet_symSet s.freq sym v⟩, fun s t h => ?_⟩
  · rw [hostStep_wr (regAccessOk_freq sym), regAt_freq, writeReg_freq hb]
  · rcases exec_count_cases h with rfl | rfl <;> simp

/-- Settles O50: the three registers read freqN, tableN and maxLen, all small enough for a register. -/
theorem derivedCounts : Obligations.DerivedCounts := by
  intro s hb
  have hmax : (BitVec.ofNat 32 (maxLen s.table)).toNat = maxLen s.table := toNat_ofNat_word (maxLen_lt s.table).le
  refine ⟨BitVec.ofNat 32 (freqN s.freq), BitVec.ofNat 32 (tableN s.table), BitVec.ofNat 32 (maxLen s.table),
    ⟨hostStep_rd (by decide) (.inl hb), ?_⟩, ⟨hostStep_rd (by decide) (.inl hb), ?_⟩,
    hostStep_rd (by decide) (.inl hb), fun x => ?_, ?_⟩
  · rw [toNat_ofNat_word (freqN_le s.freq), freqN_eq_length_filter]
  · rw [toNat_ofNat_word (tableN_le s.table), tableN_eq_length_filter]
  · rw [hmax]
    exact symGet_len_le_maxLen s.table x
  · rw [hmax]
    exact (maxLen_eq_zero_or_exists s.table).imp_left (congrArg (BitVec.ofNat 32))

end Sys2Proof.Machine

/-! PROOF. Host accesses to MEM (20_memory.md): the windows of the command in flight, and the two outcomes of an access
to an address that exists. -/

namespace Sys2Proof.Machine

/-! ## The windows of the command in flight -/

/-- The active source window is the one the latched word's command has (20_memory.md R82). -/
theorem State.activeSrc_eq_some {s : State} {w : Window} :
    s.activeSrc = some w ↔ ∃ c i, s.latched = some c ∧ decode c = .ok i ∧ srcWindow s i = some w := by
  unfold State.activeSrc
  cases s.latched with
  | none => simp
  | some c => cases hd : decode c <;> simp [hd]

/-- The active destination window is the one the latched word's command has (20_memory.md R82). -/
theorem State.activeDst_eq_some {s : State} {w : Window} :
    s.activeDst = some w ↔ ∃ c i, s.latched = some c ∧ decode c = .ok i ∧ dstWindow s i = some w := by
  unfold State.activeDst
  cases s.latched with
  | none => simp
  | some c => cases hd : decode c <;> simp [hd]

/-- An address is in an active window exactly when the command in flight has a window that contains it
(20_memory.md R91). -/
theorem State.inActiveWindow_iff {s : State} {a : Nat} :
    s.inActiveWindow a = true ↔
      ∃ c i w, s.latched = some c ∧ decode c = .ok i ∧ (srcWindow s i = some w ∨ dstWindow s i = some w) ∧
        w.Contains a := by
  simp only [State.inActiveWindow, Bool.or_eq_true, Option.any_eq_true, decide_eq_true_eq]
  constructor
  · rintro (⟨w, hw, ha⟩ | ⟨w, hw, ha⟩)
    · obtain ⟨c, i, hc, hd, hsrc⟩ := State.activeSrc_eq_some.1 hw
      exact ⟨c, i, w, hc, hd, .inl hsrc, ha⟩
    · obtain ⟨c, i, hc, hd, hdst⟩ := State.activeDst_eq_some.1 hw
      exact ⟨c, i, w, hc, hd, .inr hdst, ha⟩
  · rintro ⟨c, i, w, hc, hd, hsrc | hdst, ha⟩
    · exact .inl ⟨w, State.activeSrc_eq_some.2 ⟨c, i, hc, hd, hsrc⟩, ha⟩
    · exact .inr ⟨w, State.activeDst_eq_some.2 ⟨c, i, hc, hd, hdst⟩, ha⟩

/-! ## A MEM access to an address that exists -/

/-- Inside an active window both accesses race (20_memory.md R91). -/
theorem hostStep_mem_race {s : State} {a : Nat} (ha : a < s.memSize) (hin : s.inActiveWindow a = true) (v : Byte) :
    hostStep s (.memRd a) = .fault .hostRace ∧ hostStep s (.memWr a v) = .fault .hostRace := by
  constructor <;> rw [hostStep, if_neg (by omega), if_pos hin]

/-- Outside the active windows a read records the byte (20_memory.md R90). -/
theorem hostStep_memRd {s : State} {a : Nat} (ha : a < s.memSize) (hout : ¬ s.inActiveWindow a = true) :
    hostStep s (.memRd a) = .next { s with recorded := .byte a (Memory.read s.mem a) :: s.recorded } := by
  rw [hostStep, if_neg (by omega), if_neg hout]

/-- Outside the active windows a write stores the byte (20_memory.md R90). -/
theorem hostStep_memWr {s : State} {a : Nat} (ha : a < s.memSize) (hout : ¬ s.inActiveWindow a = true) (v : Byte) :
    hostStep s (.memWr a v) = .next { s with mem := Memory.write s.mem a v } := by
  rw [hostStep, if_neg (by omega), if_neg hout]

/-! ## The obligation -/

/-- Settles O43: `inActiveWindow` is membership in a window of the command in flight, and it decides between the race
and the ordinary access, whose store is one byte of MEM. -/
theorem hostMemAccess : Obligations.HostMemAccess := by
  intro s a v hm ha
  refine ⟨fun hin => hostStep_mem_race ha (State.inActiveWindow_iff.2 hin) v, fun hno => ?_⟩
  have hout : ¬ s.inActiveWindow a = true := by
    rw [State.inActiveWindow_iff]
    rintro ⟨c, i, w, hc, hd, hw, hcontains⟩
    exact hno c i w hc hd hw hcontains
  exact ⟨hostStep_memRd ha hout, _, hostStep_memWr ha hout v, Memory.read_write hm a v⟩

end Sys2Proof.Machine

/-! PROOF. The decoder (30_encoding.md): a word that decodes is the command word of its command, and there are nine
command words. -/

namespace Sys2Proof

/-- An opcode found in the map is the one its row gives (30_encoding.md R103). -/
theorem eq_opcodeOf_of_instrOfOpcode {op : BitVec 8} {i : Instr} (h : instrOfOpcode op = some i) :
    op = opcodeOf i := by
  unfold instrOfOpcode at h
  split_ifs at h <;> cases h <;> assumption

/-- A word that decodes has RSV = 0, and its OP is the command's (30_encoding.md R101). -/
theorem fields_of_decode_eq_ok {v : Word} {i : Instr} (h : decode v = .ok i) :
    v.extractLsb' 8 24 = 0 ∧ v.extractLsb' 0 8 = opcodeOf i := by
  unfold decode at h
  split at h
  next hrsv =>
    cases hop : instrOfOpcode (v.extractLsb' 0 8) with
    | none => simp [hop] at h
    | some j =>
      obtain rfl : j = i := by simpa [hop] using h
      exact ⟨hrsv, eq_opcodeOf_of_instrOfOpcode hop⟩
  next => cases h

/-- A command word is its RSV field above its OP field (30_encoding.md R100). -/
theorem extract_append_extract (v : Word) : v.extractLsb' 8 24 ++ v.extractLsb' 0 8 = v :=
  (BitVec.extractLsb'_append_extractLsb'_eq_extractLsb' rfl).trans BitVec.extractLsb'_eq_self

/-- A word that decodes is the whole command word of its command (30_encoding.md R103). -/
theorem eq_encode_of_decode_eq_ok {v : Word} {i : Instr} (h : decode v = .ok i) : v = encode i := by
  obtain ⟨hrsv, hop⟩ := fields_of_decode_eq_ok h
  rw [← extract_append_extract v, hrsv, hop]
  rfl

/-- The command words are the nine of the command-word column (30_encoding.md R103). -/
theorem encode_mem_commandWords (i : Instr) :
    encode i ∈ ([0x00000000, 0x00000001, 0x00000010, 0x00000011, 0x00000012, 0x00000020, 0x00000021, 0x00000030,
      0x00000031] : List Word) := by
  cases i <;> decide

/-- Settles O1: the nine words decode by the model's own lemmas, and a word that decodes is the command word of its
command. -/
theorem opcodeMapWords : Obligations.OpcodeMapWords :=
  ⟨decode_nop_word, decode_clear_word, decode_count_word, decode_build_word, decode_derive_word, decode_encode_word,
    decode_decode_word, decode_serialize_word, decode_parse_word,
    fun _ i h => eq_encode_of_decode_eq_ok h ▸ encode_mem_commandWords i⟩

end Sys2Proof

/-! PROOF. Commands and their commits (40_control.md): an illegal word, NOP and CLEAR, and what a failed command leaves
unchanged. -/

namespace Sys2Proof.Machine

/-! ## When the engine moves -/

/-- A latched word is the next thing the engine runs once its delay is over or no host step is left (40_control.md
R130; log 4). -/
theorem nextAgent_eq_engine {s : State} {v : Word} (hv : s.latched = some v) (hdue : s.delay = 0 ∨ s.host = []) :
    nextAgent s = .engine v := by
  rcases nextAgent_cases s with ⟨w, h, hw, -⟩ | ⟨x, rest, -, hhost, hwait⟩ | ⟨-, hidle, -⟩
  · rw [h, ← Option.some.inj (hw.symm.trans hv)]
  · exact absurd (hdue.resolve_right (by simp [hhost])) (hwait.resolve_left (by simp [hv]))
  · cases hidle.symm.trans hv

/-- A due engine step is Execute of the latched word (40_control.md R132). -/
theorem step_eq_execute {s : State} {v : Word} (hv : s.latched = some v) (hdue : s.delay = 0 ∨ s.host = []) :
    step s = execute v s :=
  step_engine (nextAgent_eq_engine hv hdue)

/-! ## The failure commit as `committed` writes it -/

theorem State.fail_eq_committed (s : State) (e : Err) : s.fail e = committed s e 0 := rfl

/-! ## Illegal words -/

/-- The fields of a command word, by arithmetic: RSV = 0 and OP in the map (30_encoding.md R100, R103). -/
theorem encode_fields (i : Instr) :
    (encode i).toNat / 256 = 0 ∧
      (encode i).toNat % 256 ∈ [0x00, 0x01, 0x10, 0x11, 0x12, 0x20, 0x21, 0x30, 0x31] := by
  cases i <;> decide

/-- A word with RSV ≠ 0 or with OP outside the map decodes to no command (30_encoding.md R104). -/
theorem decode_eq_error_of_fields {v : Word}
    (h : v.toNat / 256 ≠ 0 ∨ v.toNat % 256 ∉ [0x00, 0x01, 0x10, 0x11, 0x12, 0x20, 0x21, 0x30, 0x31]) :
    ∃ e, decode v = .error e := by
  cases hd : decode v with
  | error e => exact ⟨e, rfl⟩
  | ok i =>
    obtain rfl := eq_encode_of_decode_eq_ok hd
    obtain ⟨hrsv, hop⟩ := encode_fields i
    exact absurd h (not_or.2 ⟨not_not.2 hrsv, not_not.2 hop⟩)

/-! ## The empty tree and the empty code table -/

@[simp] theorem Tree.at_cleared (k : Nat) : Tree.cleared.at k = .empty := by
  by_cases hk : k < 511
  · simp [Tree.at, Tree.cleared, hk]
  · simp [Tree.at, Tree.cleared, Nat.le_of_not_lt hk]

@[simp] theorem symGet_cleared_len (sym : Byte) : symGet CodeTable.cleared.len sym = 0 := symGet_replicate 0 sym

@[simp] theorem symGet_cleared_vec (sym : Byte) : symGet CodeTable.cleared.vec sym = 0 := symGet_replicate 0 sym

/-! ## The errors of the data phase -/

/-- The ENCODE loop raises UNKNOWN_SYMBOL or CAPACITY_EXCEEDED only (43_codec.md R200). -/
theorem encodeLoop_error {t : CodeTable} {cap : Nat} {bits : Bits} {input : Text} {e : Err}
    (h : encodeLoop t cap bits input = .error e) : e = .unknownSymbol ∨ e = .capacityExceeded := by
  induction input generalizing bits with
  | nil => cases h
  | cons x xs ih =>
    rw [encodeLoop] at h
    dsimp only at h
    split_ifs at h
    · cases h
      exact .inl rfl
    · cases h
      exact .inr rfl
    · exact ih h

/-- The DECODE loop raises CAPACITY_EXCEEDED only (43_codec.md R210). -/
theorem decodeLoop_error {entries : List (Byte × Bits)} {cap : Nat} {buf : Bits} {out : Text} {bits : Bits} {e : Err}
    (h : decodeLoop entries cap buf out bits = .error e) : e = .capacityExceeded := by
  induction bits generalizing buf out with
  | nil => cases h
  | cons b bs ih =>
    rw [decodeLoop] at h
    split at h
    · exact ih h
    · split_ifs at h
      · cases h
        rfl
      · exact ih h

/-- The code half of a table line raises MALFORMED_ARTIFACT only (44_persistence.md R252). -/
theorem parseCode_error {A : Text} {e : Err} (h : parseCode A = .error e) : e = .malformedArtifact := by
  cases A with
  | nil =>
    cases h
    rfl
  | cons c rest =>
    rw [parseCode] at h
    dsimp only at h
    split_ifs at h
    iterate 3
      · cases h
        rfl
    split at h
    next =>
      cases h
      rfl
    next =>
      split_ifs at h
      cases h
      rfl

/-- A table line raises MALFORMED_ARTIFACT only (44_persistence.md R252). -/
theorem parseLine_error {A : Text} {e : Err} (h : parseLine A = .error e) : e = .malformedArtifact := by
  unfold parseLine at h
  dsimp only at h
  split_ifs at h
  iterate 4
    · cases h
      rfl
  split at h
  next hcode =>
    cases h
    exact parseCode_error hcode
  next => cases h

/-- The table part of PARSE raises MALFORMED_ARTIFACT only (44_persistence.md R250). -/
theorem parseTable_error {fuel : Nat} {A : Text} {E : List (Byte × Bits)} {e : Err}
    (h : parseTable fuel A E = .error e) : e = .malformedArtifact := by
  induction fuel generalizing A E with
  | zero =>
    cases h
    rfl
  | succ fuel ih =>
    rw [parseTable] at h
    split_ifs at h
    split at h
    next hline =>
      cases h
      exact parseLine_error hline
    next =>
      split_ifs at h
      · cases h
        rfl
      · exact ih h

/-- The payload part of PARSE raises MALFORMED_ARTIFACT or CAPACITY_EXCEEDED only (44_persistence.md R250, R253). -/
theorem parsePayload_error {cap : Nat} {bits : Bits} {A : Text} {e : Err}
    (h : parsePayload cap bits A = .error e) : e = .malformedArtifact ∨ e = .capacityExceeded := by
  induction A generalizing bits with
  | nil => cases h
  | cons x xs ih =>
    rw [parsePayload] at h
    split_ifs at h
    · cases h
      exact .inl rfl
    · cases h
      exact .inr rfl
    · exact ih h

/-- The errors the Body of a command can raise (60_exceptions.md R280, R289). -/
def dataErrorsOf : Instr → List Err
  | .nop | .clear | .count | .derive => []
  | .build => [.invalidInput, .capacityExceeded]
  | .encode => [.unknownSymbol, .capacityExceeded]
  | .decode => [.truncatedStream, .capacityExceeded]
  | .serialize => [.capacityExceeded]
  | .parse => [.malformedArtifact, .capacityExceeded]

theorem buildBody_error {s : State} {e : Err} (h : buildBody s = .error e) : e ∈ dataErrorsOf .build := by
  unfold buildBody at h
  split_ifs at h <;> cases h <;> simp [dataErrorsOf]

theorem encodeBody_error {s : State} {e : Err} (h : encodeBody s = .error e) : e ∈ dataErrorsOf .encode := by
  unfold encodeBody at h
  split at h
  next hloop =>
    cases h
    simpa [dataErrorsOf] using encodeLoop_error hloop
  next => cases h

theorem decodeBody_error {s : State} {e : Err} (h : decodeBody s = .error e) : e ∈ dataErrorsOf .decode := by
  unfold decodeBody at h
  split at h
  next hloop =>
    cases h
    simp [dataErrorsOf, decodeLoop_error hloop]
  next =>
    split_ifs at h
    cases h
    simp [dataErrorsOf]

theorem serializeBody_error {s : State} {e : Err} (h : serializeBody s = .error e) :
    e ∈ dataErrorsOf .serialize := by
  unfold serializeBody at h
  dsimp only at h
  split_ifs at h
  cases h
  simp [dataErrorsOf]

theorem parseBody_error {s : State} {e : Err} (h : parseBody s = .error e) : e ∈ dataErrorsOf .parse := by
  unfold parseBody at h
  dsimp only at h
  split at h
  next htable =>
    cases h
    simp [dataErrorsOf, parseTable_error htable]
  next =>
    split_ifs at h
    · cases h
      simp [dataErrorsOf]
    split at h
    next hpayload =>
      cases h
      simpa [dataErrorsOf] using parsePayload_error hpayload
    next => cases h

/-- A Body raises the errors of its command's row only (60_exceptions.md R280). -/
theorem bodyOf_error {i : Instr} {s : State} {e : Err} (h : bodyOf i s = .error e) : e ∈ dataErrorsOf i := by
  cases i with
  | nop | clear | count | derive => cases h
  | build => exact buildBody_error h
  | encode => exact encodeBody_error h
  | decode => exact decodeBody_error h
  | serialize => exact serializeBody_error h
  | parse => exact parseBody_error h

/-- The errors raised before the data phase are never raised in it (60_exceptions.md R289). -/
theorem not_early_of_mem_dataErrorsOf {i : Instr} :
    ∀ e ∈ dataErrorsOf i, e ∉ [.illegalCommand, .notReady, .addressFault] := by
  cases i <;> decide

/-! ## What a failed command did -/

/-- What a failure commit sets and what it leaves alone, MEM aside (40_control.md R134). -/
theorem State.failData_frame (s : State) (e : Err) (w : Option Window) :
    (s.failData e w).outLen = 0 ∧ (s.failData e w).latched = none ∧ (s.failData e w).done = true ∧
      SameStores s (s.failData e w) ∧ SameControl s (s.failData e w) ∧ SameHostSide s (s.failData e w) := by
  simp [SameStores, SameControl, SameHostSide]

/-- A command that fails ends in the failure commit of an error raised before the data phase, or in the one of an error
its Body raised (40_control.md R134). -/
theorem exec_failed {i : Instr} {s t : State} (h : exec i s = .next t) (hfail : t.err ≠ .ok) :
    (∃ e, t = s.fail e) ∨ ∃ e ∈ dataErrorsOf i, t = s.failData e (dstWindow s i) := by
  rcases exec_cases h with ⟨e, -, ht⟩ | ⟨-, -, ht⟩ | ⟨-, -, e, hbody, ht⟩ | ⟨-, -, u, n, -, rfl⟩
  · exact .inl ⟨e, ht⟩
  · exact .inl ⟨.addressFault, ht⟩
  · exact .inr ⟨e, bodyOf_error hbody, ht⟩
  · exact absurd (State.complete_err u n) hfail

/-- The same of a command word, which fails before the data phase when it is illegal (40_control.md R138). -/
theorem execute_failed {v : Word} {s t : State} (h : execute v s = .next t) (hfail : t.err ≠ .ok) :
    (∃ e, t = s.fail e) ∨
      ∃ i, decode v = .ok i ∧ ∃ e ∈ dataErrorsOf i, t = s.failData e (dstWindow s i) := by
  cases hd : decode v with
  | error x =>
    rw [execute_of_error hd] at h
    injection h with h
    exact .inl ⟨.illegalCommand, h.symm⟩
  | ok i =>
    rw [execute_of_ok hd] at h
    exact (exec_failed h hfail).imp_right fun hdata => ⟨i, rfl, hdata⟩

/-! ## The obligations -/

/-- Settles O10: both failure commits have one frame; the early one leaves MEM, and the data-phase one draws bytes in
the destination window only, with an error that is never an early one. -/
theorem failureCommit : Obligations.FailureCommit := by
  intro s t v h hfail
  rcases execute_failed h hfail with ⟨e, rfl⟩ | ⟨i, hd, e, he, rfl⟩
  · obtain ⟨hout, hidle, hdone, hstores, hcontrol, hhost⟩ := s.failData_frame e none
    exact ⟨hout, hidle, hdone, hstores, hcontrol, hhost, fun _ _ => rfl, fun _ => rfl⟩
  · obtain ⟨hout, hidle, hdone, hstores, hcontrol, hhost⟩ := s.failData_frame e (dstWindow s i)
    exact ⟨hout, hidle, hdone, hstores, hcontrol, hhost, fun a ha => s.scramble_read fun w hw => ha i w hd hw,
      fun hearly => absurd hearly (not_early_of_mem_dataErrorsOf e he)⟩

/-- Settles O6: such a word decodes to no command, and the due engine step is the failure commit alone. -/
theorem illegalWordCompletes : Obligations.IllegalWordCompletes := by
  intro s v hfields hv hdue
  obtain ⟨e, hd⟩ := decode_eq_error_of_fields hfields
  rw [step_eq_execute hv hdue, execute_of_error hd, State.fail_eq_committed]

/-- Settles O14: NOP has no window to check, and its Body publishes the state as it is. -/
theorem nopCompletes : Obligations.NopCompletes := fun s =>
  (exec_eq_runCommand .nop s).trans (runCommand_ok (checkWindows_none_none s.memSize) rfl)

/-- Settles O15: CLEAR has no window to check, and its Body publishes the empty FREQ, tree and code table. -/
theorem clearCompletes : Obligations.ClearCompletes := by
  intro s
  have hexec : exec .clear s = .next (committed
      { s with freq := Vector.replicate 256 0, tree := .cleared, table := .cleared, treeValid := false,
               tableValid := false } .ok 0) :=
    (exec_eq_runCommand .clear s).trans (runCommand_ok (checkWindows_none_none s.memSize) rfl)
  exact ⟨_, _, _, hexec, fun sym => ⟨symGet_replicate 0 sym, symGet_cleared_len sym, symGet_cleared_vec sym⟩,
    Tree.at_cleared, rfl, rfl, rfl⟩

end Sys2Proof.Machine

/-! PROOF. COUNT (41_tree_builder.md R150): the pass over the source window counts every symbol. -/

namespace Sys2Proof.Machine

/-- One pass adds to each entry the number of times its symbol stands in the input (41_tree_builder.md R150). -/
theorem symGet_foldl_countSymbol (input : Text) (f : Vector Word 256) (sym : Byte) :
    symGet (input.foldl countSymbol f) sym = symGet f sym + BitVec.ofNat 32 (input.count sym) := by
  induction input generalizing f with
  | nil => simp
  | cons x xs ih =>
    rw [List.foldl_cons, ih, countSymbol, symGet_symSet, List.count_cons]
    by_cases hx : sym = x
    · subst hx
      simp [BitVec.ofNat_add, add_assoc, add_left_comm, add_comm]
    · simp [hx, Ne.symm hx]

/-- No count overflows: an input of fewer than 2^32 symbols is counted exactly (41_tree_builder.md R150). -/
theorem toNat_symGet_countSymbols {input : Text} (h : input.length < 2 ^ 32) (sym : Byte) :
    (symGet (countSymbols input) sym).toNat = input.count sym := by
  have hle : input.count sym ≤ input.length := List.count_le_length
  rw [countSymbols, symGet_foldl_countSymbol, symGet_replicate, zero_add, BitVec.toNat_ofNat,
    Nat.mod_eq_of_lt (by omega)]

/-- The bytes COUNT, ENCODE and PARSE read are the input (20_memory.md R84). -/
theorem State.srcBytes_eq_input (s : State) : s.srcBytes = s.input :=
  Memory.readBytes_eq_map s.mem s.srcAddr.toNat s.srcLen.toNat

theorem State.input_length_lt (s : State) : s.input.length < 2 ^ 32 := by
  rw [State.input, bytesAt, List.length_map, List.length_range]
  exact s.srcLen.isLt

/-- COUNT's window check is the validity of its source window: it has no destination (40_control.md R139). -/
theorem checkWindows_source {n : Nat} {w : Window} : checkWindows n (some w) none = none ↔ w.Valid n := by
  simp [checkWindows_eq_none]

/-- Settles O16: the window check decides, and the pass counts without overflow since SRC_LEN fits a register. -/
theorem countCompletes : Obligations.CountCompletes := by
  intro s
  constructor
  · intro hvalid
    refine ⟨countSymbols s.srcBytes, ?_, fun sym => ?_⟩
    · exact (exec_eq_runCommand .count s).trans (runCommand_ok (checkWindows_source.2 hvalid) rfl)
    · rw [State.srcBytes_eq_input, toNat_symGet_countSymbols s.input_length_lt]
  · intro hinvalid
    obtain ⟨e, he⟩ := Option.ne_none_iff_exists'.1 (mt checkWindows_source.1 hinvalid)
    exact (exec_eq_runCommand .count s).trans (runCommand_windows he countBody)

end Sys2Proof.Machine

/-! PROOF. BUILD (41_tree_builder.md): the minimum key of a queue, one merge, the merge loop's invariant, and what the
published tree holds. -/

namespace Sys2Proof.Machine

/-! ## The minimum key (R156) -/

/-- The key order is lexicographic in weight and index (R156). -/
theorem keyLess_iff {N : List Node} {q q' : Nat} :
    keyLess N q q' = true ↔ (weightAt N q).toNat < (weightAt N q').toNat ∨
      ((weightAt N q).toNat = (weightAt N q').toNat ∧ q < q') := by
  simp [keyLess, BitVec.lt_def, BitVec.toNat_inj]

theorem not_keyLess_trans {N : List Node} {x y z : Nat} (hxy : ¬ keyLess N y x) (hyz : ¬ keyLess N z y) :
    ¬ keyLess N z x := by
  rw [keyLess_iff] at *
  omega

/-- No item of the queue comes before MinKey (R156). -/
theorem not_keyLess_minKey {N : List Node} {q x : Nat} {Q : List Nat} (hx : x ∈ q :: Q) :
    ¬ keyLess N x (minKey N q Q) := by
  induction Q generalizing q x with
  | nil =>
    rw [List.mem_singleton.1 hx, minKey, List.foldl_nil, keyLess_iff]
    omega
  | cons y Q ih =>
    have hstep : minKey N q (y :: Q) = minKey N (if keyLess N y q then y else q) Q := rfl
    have hkept : ¬ keyLess N q (if keyLess N y q then y else q) ∧ ¬ keyLess N y (if keyLess N y q then y else q) := by
      split_ifs with h <;> simp only [keyLess_iff] at h ⊢ <;> omega
    rw [hstep]
    rcases List.mem_cons.1 hx with rfl | hx
    · exact not_keyLess_trans (ih List.mem_cons_self) hkept.1
    rcases List.mem_cons.1 hx with rfl | hx
    · exact not_keyLess_trans (ih List.mem_cons_self) hkept.2
    · exact ih (List.mem_cons_of_mem _ hx)

/-- MinKey comes before every other item of the queue (R156). -/
theorem keyLess_minKey {N : List Node} {q x : Nat} {Q : List Nat} (hx : x ∈ q :: Q) (hne : x ≠ minKey N q Q) :
    keyLess N (minKey N q Q) x := by
  have h := not_keyLess_minKey (N := N) hx
  rw [keyLess_iff] at h ⊢
  omega

/-! ## One merge (R157) -/

/-- Merge number i of a tree of n leaves, as R157 describes it: the node at n + i has the two minimum-key items of the
queue as its children, in that order, and the sum of their weights. -/
def MergesAt (t : Tree) (n i : Nat) : Prop :=
  ∃ l r w, t.at (n + i) = .internal l r w ∧ IsMinKey t (InQueue t n i) l.toNat ∧
    IsMinKey t (fun q => InQueue t n i q ∧ q ≠ l.toNat) r.toNat ∧
    w.toNat = (t.at l.toNat).weight.toNat + (t.at r.toNat).weight.toNat

/-- Before the first merge the queue is the leaves (R151). -/
theorem inQueue_zero {t : Tree} {n q : Nat} : InQueue t n 0 q ↔ q < n := by
  simp [InQueue]

/-- A merge takes its two children out of the queue and puts its node in (R157). -/
theorem inQueue_succ {t : Tree} {n i q : Nat} (hprev : ∀ j < i, MergesAt t n j) {l r : NodeIdx} {w : Word}
    (hnode : t.at (n + i) = .internal l r w) (hl : l.toNat < n + i) (hr : r.toNat < n + i) :
    InQueue t n (i + 1) q ↔ q = n + i ∨ (InQueue t n i q ∧ q ≠ l.toNat ∧ q ≠ r.toNat) := by
  have hlast : (t.at (n + i)).hasChild q = false ↔ q ≠ l.toNat ∧ q ≠ r.toNat := by
    rw [hnode, Node.hasChild, Bool.or_eq_false_iff, beq_eq_false_iff_ne, beq_eq_false_iff_ne, ne_comm,
      ne_comm (a := r.toNat)]
  have hfresh : ∀ j < i, (t.at (n + j)).hasChild (n + i) = false := fun j hj => by
    obtain ⟨l', r', w', hnode', ⟨⟨hl', -⟩, -⟩, ⟨⟨⟨hr', -⟩, -⟩, -⟩, -⟩ := hprev j hj
    simp only [hnode', Node.hasChild, Bool.or_eq_false_iff, beq_eq_false_iff_ne]
    omega
  simp only [InQueue, Nat.forall_lt_succ_right, hlast]
  constructor
  · rintro ⟨hq, hold, hne⟩
    by_cases hqi : q = n + i
    · exact .inl hqi
    · exact .inr ⟨⟨by omega, hold⟩, hne⟩
  · rintro (rfl | ⟨⟨hq, hold⟩, hne⟩)
    · exact ⟨by omega, hfresh, by omega, by omega⟩
    · exact ⟨by omega, hold, hne⟩

/-! ## The merge loop (R151, R157) -/

/-- Where the merge loop stands before merge number i of the n leaves of a tree it goes on to make: the arena so far
is the tree's beginning, the list is the queue, and the weights in it cannot overflow. -/
structure MergeLoopInv (t : Tree) (n i : Nat) (N : List Node) (Q : List Nat) : Prop where
  merges : ∀ j < i, MergesAt t n j
  arena_length : N.length = n + i
  arena : ∀ k < N.length, t.at k = N.getD k .empty
  queue_length : Q.length + i = n
  queue_nodup : Q.Nodup
  queue : ∀ q, q ∈ Q ↔ InQueue t n i q
  weights : (Q.map fun q => (t.at q).weight.toNat).sum ≤ 2 ^ 32 - 1

/-- The loop only appends to the arena. -/
theorem prefix_mergeLoop (fuel : Nat) (N : List Node) (Q : List Nat) : N <+: (mergeLoop fuel N Q).1 := by
  induction fuel generalizing N Q with
  | zero => exact List.prefix_rfl
  | succ fuel ih =>
    match Q with
    | [] | [_] => exact List.prefix_rfl
    | q :: q' :: Q =>
      rw [mergeLoop_step]
      exact (List.prefix_append N _).trans (ih _ _)

theorem getD_mergeLoop (fuel : Nat) {N : List Node} (Q : List Nat) {k : Nat} (hk : k < N.length) :
    (mergeLoop fuel N Q).1.getD k .empty = N.getD k .empty := by
  obtain ⟨R, hR⟩ := prefix_mergeLoop fuel N Q
  rw [← hR, List.getD_append _ _ _ _ hk]

section
variable {t : Tree} {n i : Nat} {N : List Node} {Q : List Nat}

theorem MergeLoopInv.lt_of_mem (h : MergeLoopInv t n i N Q) {q : Nat} (hq : q ∈ Q) : q < n + i :=
  ((h.queue q).1 hq).1

/-- The weights the loop compares are the tree's. -/
theorem MergeLoopInv.weightAt_eq (h : MergeLoopInv t n i N Q) {q : Nat} (hq : q ∈ Q) :
    weightAt N q = (t.at q).weight := by
  rw [weightAt, h.arena q (h.arena_length ▸ h.lt_of_mem hq)]

/-- MinKey of a part of the queue is the minimum-key item of that part in the tree (R156). -/
theorem MergeLoopInv.isMinKey (h : MergeLoopInv t n i N Q) {x : Nat} {P : List Nat} (hsub : x :: P ⊆ Q) :
    IsMinKey t (· ∈ x :: P) (minKey N x P) := by
  refine ⟨minKey_mem N x P, fun q hq hne => ?_⟩
  have hless := keyLess_iff.1 (keyLess_minKey hq hne)
  rwa [h.weightAt_eq (hsub (minKey_mem N x P)), h.weightAt_eq (hsub hq)] at hless

/-- Every item of the queue fits a node index (10_state.md R55). -/
theorem MergeLoopInv.toNat_ofNat_idx (h : MergeLoopInv t n i N Q) (hn : n ≤ 256) {q : Nat} (hq : q ∈ Q) :
    (BitVec.ofNat 9 q).toNat = q := by
  have hlt := h.lt_of_mem hq
  have hlen := h.queue_length
  rw [BitVec.toNat_ofNat, Nat.mod_eq_of_lt (by omega)]

/-- What is left of the queue after both extractions (R157). -/
theorem MergeLoopInv.mem_rest (h : MergeLoopInv t n i N Q) {a b q : Nat} :
    q ∈ (Q.erase a).erase b ↔ InQueue t n i q ∧ q ≠ a ∧ q ≠ b := by
  rw [(h.queue_nodup.erase a).mem_erase_iff, h.queue_nodup.mem_erase_iff, h.queue]
  tauto

section
variable (h : MergeLoopInv t n i N Q) {a b : Nat} (ha : a ∈ Q) (hb : b ∈ Q.erase a)
include h ha hb

/-- The weight in the queue is that of the two extracted items and of the rest. -/
theorem MergeLoopInv.weights_split :
    (t.at a).weight.toNat + ((t.at b).weight.toNat +
      (((Q.erase a).erase b).map fun q => (t.at q).weight.toNat).sum) ≤ 2 ^ 32 - 1 := by
  have hperm : Q.Perm (a :: b :: (Q.erase a).erase b) :=
    (List.perm_cons_erase ha).trans ((List.perm_cons_erase hb).cons a)
  have hweights := h.weights
  rwa [(hperm.map _).sum_eq, List.map_cons, List.map_cons, List.sum_cons, List.sum_cons] at hweights

/-- The new node's weight does not overflow (R157). -/
theorem MergeLoopInv.toNat_weight_merged :
    (weightAt N a + weightAt N b).toNat = (t.at a).weight.toNat + (t.at b).weight.toNat := by
  have hweights := h.weights_split ha hb
  rw [h.weightAt_eq ha, h.weightAt_eq (List.mem_of_mem_erase hb), BitVec.toNat_add, Nat.mod_eq_of_lt (by omega)]
end

section
variable (h : MergeLoopInv t n i N Q) (hn : n ≤ 256) {a b : Nat} (ha : IsMinKey t (· ∈ Q) a)
  (hb : IsMinKey t (· ∈ Q.erase a) b)
  (hnode : t.at (n + i) = .internal (BitVec.ofNat 9 a) (BitVec.ofNat 9 b) (weightAt N a + weightAt N b))
include h hn ha hb hnode

/-- A node made of the two minimum-key items is merge number i (R157). -/
theorem MergeLoopInv.mergesAt : MergesAt t n i := by
  obtain ⟨hba, hbQ⟩ := h.queue_nodup.mem_erase_iff.1 hb.1
  refine ⟨_, _, _, hnode, ?_, ?_, ?_⟩ <;> rw [h.toNat_ofNat_idx hn ha.1]
  · exact ⟨(h.queue a).1 ha.1, fun q hq => ha.2 q ((h.queue q).2 hq)⟩
  · rw [h.toNat_ofNat_idx hn hbQ]
    refine ⟨⟨(h.queue b).1 hbQ, hba⟩, fun q ⟨hq, hqa⟩ => hb.2 q ?_⟩
    exact h.queue_nodup.mem_erase_iff.2 ⟨hqa, (h.queue q).2 hq⟩
  · rw [h.toNat_ofNat_idx hn hbQ, h.toNat_weight_merged ha.1 hb.1]

/-- One round of the loop keeps the invariant (R157). -/
theorem MergeLoopInv.round :
    MergeLoopInv t n (i + 1)
      (N ++ [.internal (BitVec.ofNat 9 a) (BitVec.ofNat 9 b) (weightAt N a + weightAt N b)])
      ((Q.erase a).erase b ++ [N.length]) := by
  have hbQ : b ∈ Q := List.mem_of_mem_erase hb.1
  constructor
  case merges =>
    intro j hj
    rcases Nat.lt_succ_iff_lt_or_eq.1 hj with hj | rfl
    · exact h.merges j hj
    · exact h.mergesAt hn ha hb hnode
  case arena_length =>
    rw [List.length_append, h.arena_length, List.length_singleton, Nat.add_assoc]
  case arena =>
    intro k hk
    rw [List.length_append, List.length_singleton] at hk
    rcases Nat.lt_succ_iff_lt_or_eq.1 hk with hk | rfl
    · rw [h.arena k hk, List.getD_append _ _ _ _ hk]
    · rw [List.getD_append_right _ _ _ _ le_rfl, Nat.sub_self, List.getD_cons_zero, h.arena_length, hnode]
  case queue_length =>
    have hlen := List.length_erase_add_one ha.1
    have hlen' := List.length_erase_add_one hb.1
    have hqlen := h.queue_length
    rw [List.length_append, List.length_singleton]
    omega
  case queue_nodup =>
    refine List.nodup_append.2 ⟨(h.queue_nodup.erase a).erase b, List.nodup_singleton _, fun q hq q' hq' => ?_⟩
    obtain ⟨⟨hlt, -⟩, -⟩ := h.mem_rest.1 hq
    rw [List.mem_singleton.1 hq', h.arena_length]
    exact hlt.ne
  case queue =>
    intro q
    have hidxa := h.toNat_ofNat_idx hn ha.1
    have hidxb := h.toNat_ofNat_idx hn hbQ
    rw [inQueue_succ h.merges hnode (hidxa.symm ▸ h.lt_of_mem ha.1) (hidxb.symm ▸ h.lt_of_mem hbQ),
      List.mem_append, List.mem_singleton, h.mem_rest, hidxa, hidxb, h.arena_length, or_comm]
  case weights =>
    have hweights := h.weights_split ha.1 hb.1
    rw [List.map_append, List.sum_append, List.map_singleton, List.sum_singleton, h.arena_length, hnode,
      Node.weight, h.toNat_weight_merged ha.1 hb.1]
    omega
end

/-- From the invariant on, the loop makes every merge that is left and ends with the root alone in the queue (R157). -/
theorem MergeLoopInv.finish {fuel : Nat} (h : MergeLoopInv t n i N Q) (hn : n ≤ 256) (hi : i < n)
    (hfuel : Q.length ≤ fuel) (ht : ∀ k < 511, t.at k = (mergeLoop fuel N Q).1.getD k .empty) :
    (∀ j, j + 1 < n → MergesAt t n j) ∧
    ∀ q, InQueue t n (n - 1) q ↔ q = (mergeLoop fuel N Q).2.headD 0 := by
  induction fuel generalizing i N Q with
  | zero =>
    have := h.queue_length
    omega
  | succ fuel ih =>
    have hqlen := h.queue_length
    match Q with
    | [] =>
      rw [List.length_nil] at hqlen
      omega
    | [q] =>
      obtain rfl : n = i + 1 := by
        rw [List.length_singleton] at hqlen
        omega
      exact ⟨fun j hj => h.merges j (by omega), fun x => (h.queue x).symm.trans List.mem_singleton⟩
    | q :: q' :: Q =>
      rw [mergeLoop_step] at ht ⊢
      dsimp only at ht ⊢
      rw [List.length_cons, List.length_cons] at hqlen hfuel
      have ha := h.isMinKey (List.Subset.refl (q :: q' :: Q))
      generalize minKey N q (q' :: Q) = a at *
      have hlen : ((q :: q' :: Q).erase a).length = Q.length + 1 := List.length_erase_of_mem ha.1
      obtain ⟨x, P, hrest⟩ := List.exists_cons_of_length_eq_add_one hlen
      have hb := h.isMinKey (hrest ▸ List.erase_subset (a := a))
      rw [← hrest] at hb
      rw [hrest, List.headD_cons, List.tail_cons] at ht ⊢
      rw [← hrest] at ht ⊢
      generalize minKey N x P = b at *
      have hnode := ht (n + i) (by omega)
      rw [getD_mergeLoop _ _ (by rw [List.length_append, h.arena_length, List.length_singleton]; omega),
        ← h.arena_length, List.getD_append_right _ _ _ _ le_rfl, Nat.sub_self, List.getD_cons_zero,
        h.arena_length] at hnode
      refine ih (h.round hn ha hb hnode) (by omega) ?_ ht
      rw [List.length_append, List.length_singleton, List.length_erase_of_mem hb.1, hlen]
      omega
end

/-! ## The tree BUILD publishes -/

/-- A slot of an arena that holds the nodes of a list (R155). -/
theorem arenaOf_getElem? (N : List Node) {k : Nat} (hk : k < 511) : (arenaOf N)[k]? = some (N.getD k .empty) := by
  simp [arenaOf, hk]

/-- The alphabet's size is FREQ_N (10_state.md R32). -/
theorem alphabet_length (f : Vector Word 256) : (alphabet f).length = freqN f :=
  (freqN_eq_length_filter f).symm

/-- Symbols outside the alphabet have count 0, so the sum of FREQ is the sum over the alphabet. -/
theorem sum_alphabet (f : Vector Word 256) : ((alphabet f).map fun s => (symGet f s).toNat).sum = freqSum f := by
  rw [freqSum, ← map_symGet_symbols, List.map_map, alphabet]
  induction symbols with
  | nil => rfl
  | cons x xs ih =>
    by_cases hx : symGet f x = 0
    · rw [List.filter_cons_of_neg (by simp [hx]), ih]
      simp [hx]
    · rw [List.filter_cons_of_pos (by simpa using hx), List.map_cons, List.sum_cons, ih]
      rfl

/-- The published arena is the merge loop's (R158). -/
theorem buildTree_at {f : Vector Word 256} {k : Nat} (hk : k < 511) :
    (buildTree f).at k = (mergeLoop (freqN f) (leaves f) (List.range (freqN f))).1.getD k .empty := by
  rw [← alphabet_length, Tree.at, buildTree, arenaOf_getElem? _ hk, Option.getD_some]

/-- The leaves stand at 0 to n - 1 in ascending order of their symbols (R155). -/
theorem buildTree_at_leaf {f : Vector Word 256} {k : Nat} (hk : k < (alphabet f).length) :
    (buildTree f).at k = .leaf (alphabet f)[k] (symGet f (alphabet f)[k]) := by
  have hle := freqN_le f
  have hlen : (leaves f).length = (alphabet f).length := List.length_map _
  rw [buildTree_at (by rw [alphabet_length] at hk; omega), getD_mergeLoop _ _ (hlen ▸ hk),
    List.getD_eq_getElem _ _ (hlen ▸ hk)]
  exact List.getElem_map _

/-- The weights of the leaves add up to the sum of FREQ. -/
theorem sum_leaf_weights (f : Vector Word 256) :
    ((List.range (freqN f)).map fun k => ((buildTree f).at k).weight.toNat).sum = freqSum f := by
  rw [← sum_alphabet, ← alphabet_length]
  congr 1
  refine List.ext_getElem (by simp) fun k h _ => ?_
  have hk : k < (alphabet f).length := by simpa using h
  simp [buildTree_at_leaf hk, Node.weight]

/-- The loop starts with the leaves in the queue and no merge made (R151). -/
theorem mergeLoopInv_start {f : Vector Word 256} (hsum : freqSum f ≤ 2 ^ 32 - 1) :
    MergeLoopInv (buildTree f) (freqN f) 0 (leaves f) (List.range (freqN f)) := by
  have hle := freqN_le f
  have hlen : (leaves f).length = freqN f := by rw [leaves, List.length_map, alphabet_length]
  constructor
  case merges => exact fun j hj => absurd hj j.not_lt_zero
  case arena_length => exact hlen
  case arena =>
    intro k hk
    rw [buildTree_at (by omega), getD_mergeLoop _ _ hk]
  case queue_length => simp
  case queue_nodup => exact List.nodup_range
  case queue => exact fun q => List.mem_range.trans inQueue_zero.symm
  case weights => rwa [sum_leaf_weights]

/-- Every merge of BUILD takes the two minimum-key items, and the root alone is left (R156, R157). -/
theorem buildTree_merges {f : Vector Word 256} (hpos : 0 < freqN f) (hsum : freqSum f ≤ 2 ^ 32 - 1) :
    (∀ i, i + 1 < freqN f → MergesAt (buildTree f) (freqN f) i) ∧
    ∀ q, InQueue (buildTree f) (freqN f) (freqN f - 1) q ↔ q = (buildTree f).root.toNat := by
  have hle := freqN_le f
  obtain ⟨hmerges, hlast⟩ := (mergeLoopInv_start hsum).finish hle hpos List.length_range.le fun k hk => buildTree_at hk
  refine ⟨hmerges, fun q => (hlast q).trans ?_⟩
  obtain ⟨hroot, -⟩ := (hlast _).2 rfl
  rw [buildTree, alphabet_length, BitVec.toNat_ofNat, Nat.mod_eq_of_lt (by omega)]

/-- A BUILD that reports OK had a table that is not empty and whose sum fits, and published its tree alone (R151). -/
theorem exec_build_ok {s t : State} (h : exec .build s = .next t) (hok : t.err = .ok) :
    0 < freqN s.freq ∧ freqSum s.freq ≤ 2 ^ 32 - 1 ∧
      t = { s with tree := buildTree s.freq, treeValid := true }.complete 0 := by
  rcases exec_cases h with ⟨e, hpre, -⟩ | ⟨-, hwin, -⟩ | ⟨-, -, e, hbody, rfl⟩ | ⟨-, -, u, m, hbody, rfl⟩
  · cases hpre
  · cases hwin
  · obtain rfl : e = .ok := hok
    exact absurd (bodyOf_error hbody) (by decide)
  · rw [bodyOf, buildBody, alphabet_length] at hbody
    split_ifs at hbody with hzero hsum
    cases hbody
    exact ⟨Nat.pos_of_ne_zero hzero, Nat.le_of_not_lt hsum, rfl⟩

/-- Settles O18: the merge loop's invariant, from the leaves to the root. -/
theorem buildMergesMinimumKeys : Obligations.BuildMergesMinimumKeys := by
  rintro s t n rfl h hok
  obtain ⟨hpos, hsum, rfl⟩ := exec_build_ok h hok
  exact buildTree_merges hpos hsum

end Sys2Proof.Machine

/-! PROOF. BUILD's tree is optimal (41_tree_builder.md R159). A forest is a tree for each item of the queue, hung at a
depth. Going back from the last merge to the leaves, every forest of the queue's own subtrees, hung at depths that
meet Kraft's inequality, weighs at least as much as the tree BUILD makes. -/

namespace Sys2Proof.Machine

/-! ## Depths that meet Kraft's inequality -/

/-- The Kraft sum of the items of a queue at these depths: at most 1 when a binary tree can have its leaves there. -/
def kraftSum (Q : Finset Nat) (d : Nat → Nat) : ℚ := ∑ q ∈ Q, (1 / 2) ^ d q

/-- The sum of weight times depth over the items of a queue. -/
def depthCost (Q : Finset Nat) (w d : Nat → Nat) : Nat := ∑ q ∈ Q, w q * d q

/-- A sum over the queue, two of its items apart. -/
theorem sum_two_erase {M : Type} [AddCommMonoid M] {Q : Finset Nat} {a b : Nat} (ha : a ∈ Q) (hb : b ∈ Q)
    (hba : b ≠ a) (g : Nat → M) : ∑ q ∈ Q, g q = g a + (g b + ∑ q ∈ (Q.erase a).erase b, g q) := by
  rw [Finset.add_sum_erase _ _ (Finset.mem_erase.2 ⟨hba, hb⟩), Finset.add_sum_erase _ _ ha]

section
variable {Q : Finset Nat} {w d : Nat → Nat} {a b x : Nat}

/-- Exchanging depths inside the queue leaves the Kraft sum. -/
theorem kraftSum_swap (ha : a ∈ Q) (hx : x ∈ Q) : kraftSum Q (d ∘ Equiv.swap a x) = kraftSum Q d := by
  refine Equiv.Perm.sum_comp (Equiv.swap a x) Q (fun q => (1 / 2 : ℚ) ^ d q) fun q hq => ?_
  by_contra hout
  exact hq (Equiv.swap_apply_of_ne_of_ne (fun e => hout (e ▸ ha)) fun e => hout (e ▸ hx))

/-- Giving the lighter of two items the greater of their depths does not raise the cost. -/
theorem depthCost_swap_le (ha : a ∈ Q) (hx : x ∈ Q) (hw : w a ≤ w x) (hd : d a ≤ d x) :
    depthCost Q w (d ∘ Equiv.swap a x) ≤ depthCost Q w d := by
  rcases eq_or_ne a x with rfl | hne
  · rw [Equiv.swap_self]
    exact le_rfl
  have hrest : ∑ q ∈ (Q.erase a).erase x, w q * d (Equiv.swap a x q) = ∑ q ∈ (Q.erase a).erase x, w q * d q := by
    refine Finset.sum_congr rfl fun q hq => ?_
    simp only [Finset.mem_erase] at hq
    rw [Equiv.swap_apply_of_ne_of_ne hq.2.1 hq.1]
  have hpair : w a * d x + w x * d a ≤ w a * d a + w x * d x := mul_add_mul_le_mul_add_mul hw hd
  simp only [depthCost, Function.comp_apply]
  rw [sum_two_erase ha hx hne.symm, sum_two_erase ha hx hne.symm, hrest, Equiv.swap_apply_left, Equiv.swap_apply_right]
  omega

/-- The lightest item of a part of the queue can be hung deepest in that part, at no cost: the depths of the part are
exchanged and the others stay. -/
theorem exists_deepest {P : Finset Nat} (hPQ : P ⊆ Q) (ha : a ∈ P) (hmin : ∀ q ∈ P, w a ≤ w q) :
    ∃ d', kraftSum Q d' = kraftSum Q d ∧ depthCost Q w d' ≤ depthCost Q w d ∧
      (∀ q ∈ P, d' q ≤ d' a ∧ ∃ x ∈ P, d' q = d x) ∧ ∀ q ∉ P, d' q = d q := by
  obtain ⟨x, hx, hmax⟩ := P.exists_max_image d ⟨a, ha⟩
  have hswap : ∀ q ∈ P, Equiv.swap a x q ∈ P := fun q hq => by
    rw [Equiv.swap_apply_def]
    split_ifs
    exacts [hx, ha, hq]
  refine ⟨d ∘ Equiv.swap a x, kraftSum_swap (hPQ ha) (hPQ hx),
    depthCost_swap_le (hPQ ha) (hPQ hx) (hmin x hx) (hmax a ha), fun q hq => ⟨?_, _, hswap q hq, rfl⟩, fun q hq => ?_⟩
  · rw [Function.comp_apply, Function.comp_apply, Equiv.swap_apply_left]
    exact hmax _ (hswap q hq)
  · rw [Function.comp_apply, Equiv.swap_apply_of_ne_of_ne (ne_of_mem_of_not_mem ha hq).symm
      (ne_of_mem_of_not_mem hx hq).symm]

/-- An item alone at the greatest depth can move up to the next greatest: with every depth a multiple of the same unit
2^-d, Kraft's inequality leaves room for a whole unit as soon as it leaves any. -/
theorem kraft_room {P : Finset Nat} {m e : Nat} (hP : ∀ q ∈ P, d q ≤ m) (hkraft : kraftSum P d + (1 / 2) ^ e ≤ 1) :
    kraftSum P d + (1 / 2) ^ m ≤ 1 := by
  have hunits : kraftSum P d = (∑ q ∈ P, 2 ^ (m - d q) : Nat) * (1 / 2) ^ m := by
    rw [kraftSum, Nat.cast_sum, Finset.sum_mul]
    refine Finset.sum_congr rfl fun q hq => ?_
    obtain ⟨k, rfl⟩ := Nat.exists_eq_add_of_le (hP q hq)
    rw [Nat.add_sub_cancel_left, pow_add, Nat.cast_pow, mul_left_comm, ← mul_pow]
    norm_num
  have hone : ((2 ^ m : Nat) : ℚ) * (1 / 2) ^ m = 1 := by
    rw [Nat.cast_pow, ← mul_pow]
    norm_num
  have hunit : (0 : ℚ) < (1 / 2) ^ m := by positivity
  have hlt : ∑ q ∈ P, 2 ^ (m - d q) < 2 ^ m := by
    have : (0 : ℚ) < (1 / 2) ^ e := by positivity
    rw [← Nat.cast_lt (α := ℚ), ← mul_lt_mul_iff_left₀ hunit, hone, ← hunits]
    linarith
  have hle : ((∑ q ∈ P, 2 ^ (m - d q) + 1 : Nat) : ℚ) * (1 / 2) ^ m ≤ (2 ^ m : Nat) * (1 / 2) ^ m :=
    mul_le_mul_of_nonneg_right (Nat.cast_le.2 hlt) hunit.le
  rwa [Nat.cast_add_one, add_mul, one_mul, ← hunits, hone] at hle

/-- The exchange argument (R159): the two lightest items can be made siblings at the greatest depth, at no cost. -/
theorem exists_siblings (ha : a ∈ Q) (hb : b ∈ Q) (hba : b ≠ a) (hmina : ∀ q ∈ Q, w a ≤ w q)
    (hminb : ∀ q ∈ Q, q ≠ a → w b ≤ w q) (hkraft : kraftSum Q d ≤ 1) :
    ∃ d' m, d' a = m + 1 ∧ d' b = m + 1 ∧ kraftSum Q d' ≤ 1 ∧ depthCost Q w d' ≤ depthCost Q w d := by
  have hb' : b ∈ Q.erase a := Finset.mem_erase.2 ⟨hba, hb⟩
  obtain ⟨d₁, hkraft₁, hcost₁, hmax₁, -⟩ := exists_deepest (d := d) (Finset.Subset.refl Q) ha hmina
  obtain ⟨d₂, hkraft₂, hcost₂, hmax₂, hout₂⟩ := exists_deepest (d := d₁) (Q.erase_subset a) hb'
    fun q hq => hminb q (Finset.mem_of_mem_erase hq) (Finset.ne_of_mem_erase hq)
  have hda : d₂ a = d₁ a := hout₂ a (Finset.notMem_erase a Q)
  have hdb : d₂ b ≤ d₂ a := by
    obtain ⟨x, hx, hbx⟩ := (hmax₂ b hb').2
    rw [hda, hbx]
    exact (hmax₁ x (Finset.mem_of_mem_erase hx)).1
  -- the depth of b is the unit; a moves up to it
  have hsplit : ∀ d' : Nat → Nat, (1 / 2) ^ d' a + kraftSum (Q.erase a) d' = kraftSum Q d' := fun d' =>
    Finset.add_sum_erase Q (fun q => (1 / 2 : ℚ) ^ d' q) ha
  have hroom : kraftSum (Q.erase a) d₂ + (1 / 2) ^ d₂ b ≤ 1 := by
    refine kraft_room (e := d₂ a) (fun q hq => (hmax₂ q hq).1) ?_
    rw [add_comm, hsplit, hkraft₂, hkraft₁]
    exact hkraft
  have hpos : d₂ b ≠ 0 := fun hzero => by
    have hle : (1 / 2 : ℚ) ^ d₂ b ≤ kraftSum (Q.erase a) d₂ :=
      Finset.single_le_sum (f := fun q => (1 / 2 : ℚ) ^ d₂ q) (fun q _ => by positivity) hb'
    rw [hzero, pow_zero] at hle hroom
    linarith
  obtain ⟨m, hm⟩ := Nat.exists_eq_succ_of_ne_zero hpos
  refine ⟨Function.update d₂ a (d₂ b), m, ?_, ?_, ?_, ?_⟩
  · rw [Function.update_self, hm]
  · rw [Function.update_of_ne hba, hm]
  · have hrest : kraftSum (Q.erase a) (Function.update d₂ a (d₂ b)) = kraftSum (Q.erase a) d₂ :=
      Finset.sum_congr rfl fun q hq => by rw [Function.update_of_ne (Finset.ne_of_mem_erase hq)]
    rw [← hsplit, hrest, Function.update_self, add_comm]
    exact hroom
  · refine le_trans (Finset.sum_le_sum fun q _ => Nat.mul_le_mul_left _ ?_) (hcost₂.trans hcost₁)
    rcases eq_or_ne q a with rfl | hqa
    · rwa [Function.update_self]
    · rw [Function.update_of_ne hqa]
end

/-! ## Forests -/

/-- The sum of the counts of the leaves. -/
def BinTree.weight (f : Vector Word 256) (T : BinTree) : Nat := (T.leaves.map fun s => (symGet f s).toNat).sum

/-- Hanging a tree d levels deeper adds d times its weight (R159). -/
theorem BinTree.pathWeight_eq (f : Vector Word 256) (T : BinTree) (d : Nat) :
    T.pathWeight f d = T.pathWeight f 0 + T.weight f * d := by
  induction T generalizing d with
  | leaf s => simp [pathWeight, weight, leaves]
  | node l r ihl ihr =>
    have hweight : (node l r).weight f = l.weight f + r.weight f := by simp [weight, leaves]
    rw [pathWeight, pathWeight, ihl (d + 1), ihr (d + 1), ihl (0 + 1), ihr (0 + 1), hweight]
    ring

/-- The binary tree that hangs at a node of the arena, with the weights BUILD gives its nodes (R157). -/
inductive Subtree (t : Tree) (f : Vector Word 256) : Nat → BinTree → Prop where
  | leaf (k : Nat) (s : Byte) (h : t.at k = .leaf s (symGet f s)) : Subtree t f k (.leaf s)
  | node (k : Nat) (l r : NodeIdx) (w : Word) (L R : BinTree) (h : t.at k = .internal l r w)
      (hw : w.toNat = (t.at l.toNat).weight.toNat + (t.at r.toNat).weight.toNat)
      (hl : Subtree t f l.toNat L) (hr : Subtree t f r.toNat R) : Subtree t f k (.node L R)

/-- A node's weight is that of its tree. -/
theorem Subtree.weight_eq {t : Tree} {f : Vector Word 256} {k : Nat} {T : BinTree} (h : Subtree t f k T) :
    (t.at k).weight.toNat = T.weight f := by
  induction h with
  | leaf k s h => simp [h, Node.weight, BinTree.weight, BinTree.leaves]
  | node k l r w L R h hw _ _ ihl ihr =>
    rw [h, Node.weight, hw, ihl, ihr]
    simp [BinTree.weight, BinTree.leaves]

/-- The weighted path length of a forest: for each item of the queue its tree, hung at a depth. -/
def forestWeight (f : Vector Word 256) (Q : Finset Nat) (T : Nat → BinTree) (d : Nat → Nat) : Nat :=
  ∑ q ∈ Q, (T q).pathWeight f (d q)

/-- Only the cost of the depths depends on where the subtrees hang. -/
theorem forestWeight_eq {t : Tree} {f : Vector Word 256} {Q : Finset Nat} {T : Nat → BinTree}
    (hT : ∀ q ∈ Q, Subtree t f q (T q)) (d : Nat → Nat) :
    forestWeight f Q T d =
      ∑ q ∈ Q, (T q).pathWeight f 0 + depthCost Q (fun q => (t.at q).weight.toNat) d := by
  rw [forestWeight, depthCost, ← Finset.sum_add_distrib]
  refine Finset.sum_congr rfl fun q hq => ?_
  rw [(hT q hq).weight_eq]
  exact (T q).pathWeight_eq f (d q)

section
variable {Q : Finset Nat} {l r p : Nat} (hl : l ∈ Q) (hr : r ∈ Q) (hrl : r ≠ l) (hp : p ∉ Q)
include hl hr hrl hp

/-- A sum over the queue after a merge: the new node, and the items that stay. -/
theorem sum_merged {M : Type} [AddCommMonoid M] (g g' : Nat → M) (hg : ∀ q ≠ p, g' q = g q)
    (hnode : g' p = g l + g r) : ∑ q ∈ insert p ((Q.erase l).erase r), g' q = ∑ q ∈ Q, g q := by
  have hnot : p ∉ (Q.erase l).erase r := fun h => hp (Finset.mem_of_mem_erase (Finset.mem_of_mem_erase h))
  rw [Finset.sum_insert hnot, sum_two_erase hl hr hrl, hnode, add_assoc]
  congr 2
  exact Finset.sum_congr rfl fun q hq => hg q (ne_of_mem_of_not_mem hq hnot)

/-- Joining two trees that hang side by side at depth m + 1 under a node at depth m leaves the weight as it is. -/
theorem forestWeight_merged (f : Vector Word 256) (T : Nat → BinTree) {d : Nat → Nat} {m : Nat} (hdl : d l = m + 1)
    (hdr : d r = m + 1) :
    forestWeight f (insert p ((Q.erase l).erase r)) (Function.update T p (.node (T l) (T r))) (Function.update d p m) =
      forestWeight f Q T d := by
  refine sum_merged hl hr hrl hp _ _ (fun q hq => ?_) ?_
  · rw [Function.update_of_ne hq, Function.update_of_ne hq]
  · rw [Function.update_self, Function.update_self, hdl, hdr, BinTree.pathWeight]

/-- It leaves the Kraft sum too. -/
theorem kraftSum_merged {d : Nat → Nat} {m : Nat} (hdl : d l = m + 1) (hdr : d r = m + 1) :
    kraftSum (insert p ((Q.erase l).erase r)) (Function.update d p m) = kraftSum Q d := by
  refine sum_merged hl hr hrl hp _ _ (fun q hq => ?_) ?_
  · rw [Function.update_of_ne hq]
  · rw [Function.update_self, hdl, hdr]
    ring
end

/-! ## The queue as a finite set -/

/-- The queue before merge number i (R157). -/
def queue (t : Tree) (n i : Nat) : Finset Nat :=
  (Finset.range (n + i)).filter fun q => ∀ j < i, (t.at (n + j)).hasChild q = false

theorem mem_queue {t : Tree} {n i q : Nat} : q ∈ queue t n i ↔ InQueue t n i q := by
  rw [queue, Finset.mem_filter, Finset.mem_range, InQueue]

/-- A minimum-key item is a lightest one (R156). -/
theorem IsMinKey.weight_le {t : Tree} {P : Nat → Prop} {q x : Nat} (h : IsMinKey t P q) (hx : P x) :
    (t.at q).weight.toNat ≤ (t.at x).weight.toNat := by
  rcases eq_or_ne x q with rfl | hne
  · exact le_rfl
  · rcases h.2 x hx hne with hlt | ⟨heq, -⟩
    · exact hlt.le
    · exact heq.le

/-- The queue after a merge, as a finite set (R157). -/
theorem queue_succ {t : Tree} {n i : Nat} (hprev : ∀ j < i, MergesAt t n j) {l r : NodeIdx} {w : Word}
    (hnode : t.at (n + i) = .internal l r w) (hl : l.toNat ∈ queue t n i) (hr : r.toNat ∈ queue t n i) :
    queue t n (i + 1) = insert (n + i) (((queue t n i).erase l.toNat).erase r.toNat) := by
  ext q
  rw [mem_queue, inQueue_succ hprev hnode (mem_queue.1 hl).1 (mem_queue.1 hr).1]
  simp only [Finset.mem_insert, Finset.mem_erase, mem_queue]
  tauto

/-- Going back from the last merge: a forest of the subtrees in the queue, hung at depths that meet Kraft's inequality,
weighs at least as much as the whole tree (R159). -/
theorem exists_root_le_forestWeight {t : Tree} {f : Vector Word 256} {n : Nat}
    (hmerges : ∀ i, i + 1 < n → MergesAt t n i) (hroot : ∀ q, InQueue t n (n - 1) q ↔ q = t.root.toNat)
    (k : Nat) : ∀ {i : Nat}, i + k + 1 = n → ∀ {T : Nat → BinTree} {d : Nat → Nat},
      (∀ q ∈ queue t n i, Subtree t f q (T q)) → kraftSum (queue t n i) d ≤ 1 →
      ∃ R, Subtree t f t.root.toNat R ∧ R.pathWeight f 0 ≤ forestWeight f (queue t n i) T d := by
  induction k with
  | zero =>
    rintro i rfl T d hT -
    have hmem : t.root.toNat ∈ queue t (i + 0 + 1) i := mem_queue.2 ((hroot _).2 rfl)
    refine ⟨T t.root.toNat, hT _ hmem, ?_⟩
    calc (T t.root.toNat).pathWeight f 0
        ≤ (T t.root.toNat).pathWeight f (d t.root.toNat) := by
          rw [BinTree.pathWeight_eq f _ (d _)]
          exact Nat.le_add_right _ _
      _ ≤ forestWeight f (queue t (i + 0 + 1) i) T d :=
          Finset.single_le_sum (f := fun q => (T q).pathWeight f (d q)) (fun q _ => Nat.zero_le _) hmem
  | succ k ih =>
    intro i hi T d hT hkraft
    obtain ⟨l, r, w, hnode, ⟨hl, hminl⟩, ⟨⟨hr, hrl⟩, hminr⟩, hw⟩ := hmerges i (by omega)
    have hlQ := mem_queue.2 hl
    have hrQ := mem_queue.2 hr
    have hfresh : n + i ∉ queue t n i := fun h => absurd (mem_queue.1 h).1 (lt_irrefl _)
    have hsucc := queue_succ (fun j hj => hmerges j (by omega)) hnode hlQ hrQ
    obtain ⟨d', m, hdl, hdr, hkraft', hcost⟩ := exists_siblings (w := fun q => (t.at q).weight.toNat) hlQ hrQ hrl
      (fun q hq => IsMinKey.weight_le ⟨hl, hminl⟩ (mem_queue.1 hq))
      (fun q hq hql => IsMinKey.weight_le ⟨⟨hr, hrl⟩, hminr⟩ ⟨mem_queue.1 hq, hql⟩) hkraft
    have hT' : ∀ q ∈ queue t n (i + 1),
        Subtree t f q (Function.update T (n + i) (.node (T l.toNat) (T r.toNat)) q) := fun q hq => by
      rcases eq_or_ne q (n + i) with rfl | hne
      · rw [Function.update_self]
        exact .node _ l r w _ _ hnode hw (hT _ hlQ) (hT _ hrQ)
      · rw [hsucc, Finset.mem_insert, Finset.mem_erase, Finset.mem_erase] at hq
        rw [Function.update_of_ne hne]
        exact hT q (hq.resolve_left hne).2.2
    obtain ⟨R, hR, hle⟩ := ih (by omega) hT'
      ((hsucc ▸ kraftSum_merged hlQ hrQ hrl hfresh hdl hdr).trans_le hkraft')
    refine ⟨R, hR, hle.trans ?_⟩
    rw [hsucc, forestWeight_merged hlQ hrQ hrl hfresh f T hdl hdr, forestWeight_eq hT, forestWeight_eq hT]
    exact Nat.add_le_add_left hcost _

end Sys2Proof.Machine

/-! PROOF. The two ends of 41_tree_builder.md R159: any tree over the alphabet as a forest of leaves, and the code
lengths DERIVE reads off BUILD's tree. -/

namespace Sys2Proof.Machine

/-! ## A tree over the alphabet as a forest of leaves -/

/-- The depth of a symbol in a binary tree: that of its leftmost leaf. -/
def BinTree.depthOf : BinTree → Byte → Nat
  | .leaf _, _ => 0
  | .node l r, s => if s ∈ l.leaves then l.depthOf s + 1 else r.depthOf s + 1

/-- With no symbol twice, every leaf of a node stands one level deeper than in its half. -/
theorem BinTree.map_leaves_node {β : Type} (g : Byte → Nat → β) {l r : BinTree} (hnodup : (node l r).leaves.Nodup) :
    ((node l r).leaves.map fun s => g s ((node l r).depthOf s)) =
      (l.leaves.map fun s => g s (l.depthOf s + 1)) ++ (r.leaves.map fun s => g s (r.depthOf s + 1)) := by
  obtain ⟨-, -, hdisj⟩ := List.nodup_append.1 hnodup
  rw [leaves, List.map_append]
  congr 1 <;> refine List.map_congr_left fun s hs => ?_
  · rw [depthOf, if_pos hs]
  · rw [depthOf, if_neg fun hl => hdisj s hl s hs rfl]

/-- The weighted path length, leaf by leaf (R159). -/
theorem BinTree.pathWeight_eq_sum (f : Vector Word 256) {T : BinTree} (hnodup : T.leaves.Nodup) (d : Nat) :
    T.pathWeight f d = (T.leaves.map fun s => (symGet f s).toNat * (T.depthOf s + d)).sum := by
  induction T generalizing d with
  | leaf s => simp [pathWeight, leaves, depthOf]
  | node l r ihl ihr =>
    obtain ⟨hl, hr, -⟩ := List.nodup_append.1 hnodup
    rw [map_leaves_node (fun s n => (symGet f s).toNat * (n + d)) hnodup, List.sum_append, pathWeight, ihl hl, ihr hr]
    simp only [Nat.add_assoc, Nat.add_comm]

/-- Kraft's equality: the leaves of a binary tree fill it. -/
theorem BinTree.kraft_leaves {T : BinTree} (hnodup : T.leaves.Nodup) :
    (T.leaves.map fun s => (1 / 2 : ℚ) ^ T.depthOf s).sum = 1 := by
  induction T with
  | leaf s => simp [leaves, depthOf]
  | node l r ihl ihr =>
    obtain ⟨hl, hr, -⟩ := List.nodup_append.1 hnodup
    rw [map_leaves_node (fun _ n => (1 / 2 : ℚ) ^ n) hnodup, List.sum_append]
    simp only [pow_succ, List.sum_map_mul_right, ihl hl, ihr hr]
    norm_num

/-- The symbol of the leaf at index k (R155). -/
def leafSym (f : Vector Word 256) (k : Nat) : Byte := (alphabet f).getD k 0

theorem buildTree_at_leafSym {f : Vector Word 256} {k : Nat} (hk : k < freqN f) :
    (buildTree f).at k = .leaf (leafSym f k) (symGet f (leafSym f k)) := by
  rw [← alphabet_length] at hk
  rw [leafSym, List.getD_eq_getElem _ _ hk, buildTree_at_leaf hk]

/-- A sum over the leaf indices is the sum over the alphabet (R155). -/
theorem sum_range_alphabet {M : Type} [AddCommMonoid M] (f : Vector Word 256) (g : Byte → M) :
    ∑ k ∈ Finset.range (freqN f), g (leafSym f k) = ((alphabet f).map g).sum := by
  rw [← alphabet_length, Finset.sum_range, ← Fin.sum_univ_fun_getElem]
  exact Finset.sum_congr rfl fun k _ => by rw [leafSym, List.getD_eq_getElem _ _ k.isLt]

theorem symbols_nodup : symbols.Nodup :=
  symbols_sorted.imp fun hlt heq => absurd (congrArg BitVec.toNat heq) hlt.ne

theorem queue_zero (t : Tree) (n : Nat) : queue t n 0 = Finset.range n := by
  ext q
  rw [mem_queue, inQueue_zero, Finset.mem_range]

/-- BUILD's tree weighs no more than any binary tree over the alphabet (R159). -/
theorem exists_root_le_pathWeight {f : Vector Word 256} (hpos : 0 < freqN f) (hsum : freqSum f ≤ 2 ^ 32 - 1)
    {T : BinTree} (hT : T.leaves.Perm (alphabet f)) :
    ∃ R, Subtree (buildTree f) f (buildTree f).root.toNat R ∧ R.pathWeight f 0 ≤ T.pathWeight f 0 := by
  obtain ⟨hmerges, hroot⟩ := buildTree_merges hpos hsum
  have hnodup : T.leaves.Nodup := hT.nodup_iff.2 (symbols_nodup.filter _)
  have hweight : forestWeight f (queue (buildTree f) (freqN f) 0) (fun k => .leaf (leafSym f k))
      (fun k => T.depthOf (leafSym f k)) = T.pathWeight f 0 := by
    rw [queue_zero, T.pathWeight_eq_sum f hnodup, (hT.map _).sum_eq]
    exact sum_range_alphabet f fun s => (symGet f s).toNat * T.depthOf s
  have hkraft : kraftSum (queue (buildTree f) (freqN f) 0) (fun k => T.depthOf (leafSym f k)) = 1 := by
    rw [queue_zero, ← T.kraft_leaves hnodup, (hT.map _).sum_eq]
    exact sum_range_alphabet f fun s => (1 / 2 : ℚ) ^ T.depthOf s
  have hleaf : ∀ k ∈ queue (buildTree f) (freqN f) 0, Subtree (buildTree f) f k (.leaf (leafSym f k)) := fun k hk =>
    .leaf k _ (buildTree_at_leafSym (inQueue_zero.1 (mem_queue.1 hk)))
  rw [← hweight]
  exact exists_root_le_forestWeight hmerges hroot (freqN f - 1) (by omega) hleaf hkraft.le

/-! ## The code lengths DERIVE records -/

/-- Recording an entry adds at most its count times its length to the coded weight: an entry it replaces, and a length
past 255, only make the sum smaller. -/
theorem codedWeight_recordCode_le (f : Vector Word 256) (t : CodeTable) (e : Byte × Bits) :
    codedWeight f (recordCode t e) ≤ codedWeight f t + (symGet f e.1).toNat * e.2.length := by
  have hsum : ∀ t, codedWeight f t = ∑ s ∈ symbols.toFinset, (symGet f s).toNat * (symGet t.len s).toNat := fun t =>
    (List.sum_toFinset _ symbols_nodup).symm
  rw [hsum, hsum]
  have hentry : ∑ s ∈ symbols.toFinset, (if s = e.1 then (symGet f e.1).toNat * e.2.length else 0) =
      (symGet f e.1).toNat * e.2.length := by
    rw [Finset.sum_ite_eq', if_pos (List.mem_toFinset.2 (mem_symbols e.1))]
  rw [← hentry, ← Finset.sum_add_distrib]
  refine Finset.sum_le_sum fun s _ => ?_
  rw [recordCode_len]
  split_ifs with hs
  · subst hs
    rw [BitVec.toNat_ofNat]
    exact (Nat.mul_le_mul_left _ (Nat.mod_le _ _)).trans (Nat.le_add_left _ _)
  · exact Nat.le_add_right _ _

/-- The sum of count times length over the entries DERIVE records. -/
def entriesWeight (f : Vector Word 256) (entries : List (Byte × Bits)) : Nat :=
  (entries.map fun e => (symGet f e.1).toNat * e.2.length).sum

theorem codedWeight_foldl_recordCode_le (f : Vector Word 256) (entries : List (Byte × Bits)) (t : CodeTable) :
    codedWeight f (entries.foldl recordCode t) ≤ codedWeight f t + entriesWeight f entries := by
  induction entries generalizing t with
  | nil => exact Nat.le_add_right _ _
  | cons e entries ih =>
    have hrecord := codedWeight_recordCode_le f t e
    have hrest := ih (recordCode t e)
    rw [List.foldl_cons, entriesWeight, List.map_cons, List.sum_cons, ← entriesWeight]
    omega

theorem codedWeight_tableOf_le (f : Vector Word 256) (entries : List (Byte × Bits)) :
    codedWeight f (tableOf entries) ≤ entriesWeight f entries := by
  have hempty : codedWeight f .cleared = 0 := by simp [codedWeight]
  have h := codedWeight_foldl_recordCode_le f entries .cleared
  rwa [hempty, Nat.zero_add] at h

/-- The walk of a subtree records at most its leaves at their depths (42_code_table.md R180). -/
theorem entriesWeight_walk_le {t : Tree} {f : Vector Word 256} {k : Nat} {T : BinTree} (h : Subtree t f k T)
    (fuel : Nat) (path : Bits) : entriesWeight f (walk t fuel k path) ≤ T.pathWeight f path.length := by
  induction h generalizing fuel path with
  | leaf k s h =>
    cases fuel with
    | zero => exact Nat.zero_le _
    | succ fuel => simp [walk, h, entriesWeight, BinTree.pathWeight]
  | node k l r w L R h _ _ _ ihl ihr =>
    cases fuel with
    | zero => exact Nat.zero_le _
    | succ fuel =>
      have hl := ihl fuel (path ++ [false])
      have hr := ihr fuel (path ++ [true])
      rw [List.length_append, List.length_singleton] at hl hr
      simp only [walk, h, entriesWeight, List.map_append, List.sum_append, BinTree.pathWeight]
      exact Nat.add_le_add hl hr

/-- The table of a tree of two leaves or more weighs no more than the tree (42_code_table.md R181). -/
theorem codedWeight_derived_le {t : Tree} {f : Vector Word 256} {T : BinTree} (h : Subtree t f t.root.toNat T)
    {l r : NodeIdx} {w : Word} (hroot : t.at t.root.toNat = .internal l r w) :
    codedWeight f (tableOf (derivedEntries t)) ≤ T.pathWeight f 0 := by
  refine (codedWeight_tableOf_le f _).trans ?_
  rw [derivedEntries, hroot]
  exact entriesWeight_walk_le h Config.maxNodes []

/-- DERIVE of a valid tree publishes its table alone (42_code_table.md R180). -/
theorem exec_derive_valid {s : State} (h : s.treeValid = true) :
    exec .derive s =
      .next ({ s with table := tableOf (derivedEntries s.tree), tableValid := true }.complete 0) := by
  rw [exec_eq_runCommand, precheckOf, needTree, if_pos h]
  exact runCommand_ok (checkWindows_none_none s.memSize) rfl

/-- With two leaves or more the root is the last merge's node (R158). -/
theorem buildTree_root_internal {f : Vector Word 256} (htwo : 2 ≤ freqN f) (hsum : freqSum f ≤ 2 ^ 32 - 1) :
    ∃ l r w, (buildTree f).at (buildTree f).root.toNat = .internal l r w := by
  obtain ⟨hmerges, hroot⟩ := buildTree_merges (by omega) hsum
  obtain ⟨m, hm⟩ := Nat.exists_eq_add_of_le htwo
  obtain ⟨l, r, w, hnode, ⟨hl, -⟩, ⟨⟨hr, -⟩, -⟩, -⟩ := hmerges m (by omega)
  have hlast := (inQueue_succ (q := freqN f + m) (fun j hj => hmerges j (by omega)) hnode hl.1 hr.1).2 (.inl rfl)
  rw [show m + 1 = freqN f - 1 by omega, hroot] at hlast
  exact ⟨l, r, w, hlast ▸ hnode⟩

/-- Settles O60: the code lengths weigh no more than BUILD's tree, and BUILD's tree no more than any other. -/
theorem buildIsOptimal : Obligations.BuildIsOptimal := by
  intro s b c T htwo hbuild hok hderive hT
  obtain ⟨hpos, hsum, rfl⟩ := exec_build_ok hbuild hok
  rw [exec_derive_valid (State.complete_treeValid _ _)] at hderive
  cases hderive
  obtain ⟨R, hR, hle⟩ := exists_root_le_pathWeight hpos hsum hT
  obtain ⟨l, r, w, hroot⟩ := buildTree_root_internal htwo hsum
  exact (codedWeight_derived_le hR hroot).trans hle

end Sys2Proof.Machine

/-! PROOF. DERIVE (42_code_table.md R180 to R182): a node index is followed down a tree edge by edge, two such paths to
one leaf are the same, and so the table holds each leaf symbol's one path from the root. -/

namespace Sys2Proof.Machine

/-! ## Following the edges of a tree -/

/-- The child an edge leads to, 0 = left and 1 = right (42_code_table.md R181). -/
def Node.child : Node → Bool → Option Nat
  | .internal l r _, b => some (if b then r.toNat else l.toNat)
  | .leaf _ _, _ => none
  | .empty, _ => none

/-- The node these edges lead to from node k. -/
def Tree.follow (t : Tree) (k : Nat) (path : Bits) : Option Nat := path.foldlM (fun i b => (t.at i).child b) k

theorem Node.hasChild_iff {x : Node} {j : Nat} : x.hasChild j = true ↔ ∃ b, x.child b = some j := by
  cases x <;> simp [hasChild, child]

@[simp] theorem Tree.follow_nil (t : Tree) (k : Nat) : t.follow k [] = some k := rfl

theorem Tree.follow_cons {t : Tree} {k j : Nat} {b : Bool} {path : Bits} :
    t.follow k (b :: path) = some j ↔ ∃ i, (t.at k).child b = some i ∧ t.follow i path = some j := by
  rw [follow, List.foldlM_cons]
  exact Option.bind_eq_some_iff

theorem Tree.follow_append_singleton {t : Tree} {k j : Nat} {b : Bool} {path : Bits} :
    t.follow k (path ++ [b]) = some j ↔ ∃ i, t.follow k path = some i ∧ (t.at i).child b = some j := by
  rw [follow, List.foldlM_append]
  simp [follow, Option.bind_eq_some_iff]

/-! ## Paths to a symbol, by the kind of the first node -/

theorem pathTo_nil {t : Tree} {k : Nat} {s : Byte} : PathTo t k [] s ↔ ∃ w, t.at k = .leaf s w := by
  constructor
  · intro h
    cases h with
    | leaf _ _ w h => exact ⟨w, h⟩
  · rintro ⟨w, h⟩
    exact .leaf k s w h

theorem pathTo_cons {t : Tree} {k : Nat} {b : Bool} {path : Bits} {s : Byte} :
    PathTo t k (b :: path) s ↔ ∃ i, (t.at k).child b = some i ∧ PathTo t i path s := by
  constructor
  · intro h
    cases h with
    | left _ l r w _ _ h hp => exact ⟨l.toNat, by rw [h]; rfl, hp⟩
    | right _ l r w _ _ h hp => exact ⟨r.toNat, by rw [h]; rfl, hp⟩
  · rintro ⟨i, hi, hp⟩
    cases h : t.at k with
    | empty => simp [h, Node.child] at hi
    | leaf s' w => simp [h, Node.child] at hi
    | internal l r w =>
      rw [h, Node.child, Option.some_inj] at hi
      subst hi
      cases b with
      | false => exact .left k l r w path s h hp
      | true => exact .right k l r w path s h hp

/-- A path to a symbol is a path to a leaf that holds it. -/
theorem pathTo_iff_follow {t : Tree} {k : Nat} {path : Bits} {s : Byte} :
    PathTo t k path s ↔ ∃ j w, t.follow k path = some j ∧ t.at j = .leaf s w := by
  induction path generalizing k with
  | nil => simp [pathTo_nil]
  | cons b path ih =>
    simp only [pathTo_cons, ih, Tree.follow_cons]
    tauto

/-- A bit string is empty or begins with one of the two bits. -/
theorem exists_bits_iff {P : Bits → Prop} : (∃ p, P p) ↔ P [] ∨ (∃ p, P (false :: p)) ∨ ∃ p, P (true :: p) := by
  constructor
  · rintro ⟨_ | ⟨_ | _, p⟩, h⟩
    · exact .inl h
    · exact .inr (.inl ⟨p, h⟩)
    · exact .inr (.inr ⟨p, h⟩)
  · rintro (h | ⟨p, h⟩ | ⟨p, h⟩)
    · exact ⟨_, h⟩
    · exact ⟨_, h⟩
    · exact ⟨_, h⟩

/-- The walk records the paths of fewer than `fuel` edges, each after the path to the node it starts at (R180). -/
theorem mem_walk {t : Tree} {fuel k : Nat} {path bits : Bits} {s : Byte} :
    (s, bits) ∈ walk t fuel k path ↔ ∃ p, bits = path ++ p ∧ p.length < fuel ∧ PathTo t k p s := by
  induction fuel generalizing k path with
  | zero => simp [walk]
  | succ fuel ih =>
    rw [exists_bits_iff]
    cases h : t.at k with
    | empty => simp [walk, h, pathTo_nil, pathTo_cons, Node.child]
    | leaf s' w => simp [walk, h, pathTo_nil, pathTo_cons, Node.child, and_comm, eq_comm]
    | internal l r w => simp [walk, h, pathTo_nil, pathTo_cons, Node.child, ih]

/-! ## The edges of a tree of n leaves -/

/-- The two edges of each internal index (10_state.md R57). -/
def edges (n : Nat) : Finset (Nat × Bool) := Finset.Ico n (2 * n - 1) ×ˢ Finset.univ

/-- The indices below the root, as ends of edges. -/
def belowRoot (n : Nat) : Finset (Option Nat) := (Finset.range (2 * n - 2)).map .some

/-- The node an edge leads to. -/
def edgeEnd (t : Tree) (e : Nat × Bool) : Option Nat := (t.at e.1).child e.2

theorem mem_edges {n k : Nat} {b : Bool} : (k, b) ∈ edges n ↔ n ≤ k ∧ k < 2 * n - 1 := by
  simp [edges]

theorem mem_belowRoot {n : Nat} {x : Option Nat} : x ∈ belowRoot n ↔ ∃ j < 2 * n - 2, x = some j := by
  simp [belowRoot, eq_comm]

/-- There are as many edges as indices below the root. -/
theorem card_edges (n : Nat) : (edges n).card = (belowRoot n).card := by
  rw [edges, belowRoot, Finset.card_product, Finset.card_map, Finset.card_range, Nat.card_Ico, Finset.card_univ,
    Fintype.card_bool]
  omega

/-! ## A tree as 10_state.md R57 describes it -/

section
variable {t : Tree} {n : Nat} (h : TreeShape t n)
include h

theorem TreeShape.lt_of_leaf {k : Nat} {s : Byte} {w : Word} (hk : t.at k = .leaf s w) : k < n := by
  obtain ⟨-, -, -, hinternal, hempty, -⟩ := h
  by_contra hge
  rcases Nat.lt_or_ge k 511 with hlt | hout
  · rcases Nat.lt_or_ge k (2 * n - 1) with hin | hpast
    · have := hinternal k hlt (by omega) hin
      simp [hk, Node.isInternal] at this
    · simp [hempty k hlt hpast] at hk
  · simp [Tree.at, Vector.getElem?_eq_none hout] at hk

/-- An edge starts at an internal index and leads to a lower one. -/
theorem TreeShape.child_bounds {k j : Nat} {b : Bool} (hj : (t.at k).child b = some j) :
    n ≤ k ∧ k < 2 * n - 1 ∧ j < k := by
  obtain ⟨-, -, hleaf, -, hempty, -, -, hlinked, -⟩ := h
  have hk : k < 511 := by
    by_contra hout
    simp [Tree.at, Vector.getElem?_eq_none (Nat.le_of_not_lt hout), Node.child] at hj
  cases hnode : t.at k with
  | empty => simp [hnode, Node.child] at hj
  | leaf s w => simp [hnode, Node.child] at hj
  | internal l r w =>
    refine ⟨?_, ?_, ?_⟩
    · by_contra hlow
      simpa [hnode, Node.isLeaf] using hleaf k (by omega)
    · by_contra hpast
      simp [hempty k hk (by omega)] at hnode
    · have hlt := hlinked k hk
      simp only [hnode, Node.linkedBelow, Bool.and_eq_true, decide_eq_true_eq] at hlt
      rw [hnode, Node.child, Option.some_inj] at hj
      subst hj
      split_ifs
      · exact hlt.1.2
      · exact hlt.1.1

theorem TreeShape.exists_child {k : Nat} (hlow : n ≤ k) (hhigh : k < 2 * n - 1) (b : Bool) :
    ∃ i, (t.at k).child b = some i := by
  obtain ⟨-, hn, -, hinternal, -⟩ := h
  have hkind := hinternal k (by omega) hlow hhigh
  cases hnode : t.at k with
  | empty => simp [hnode, Node.isInternal] at hkind
  | leaf s w => simp [hnode, Node.isInternal] at hkind
  | internal l r w => exact ⟨_, rfl⟩

theorem TreeShape.exists_parent {j : Nat} (hj : j < 2 * n - 2) : ∃ k b, (t.at k).child b = some j := by
  obtain ⟨-, -, -, -, -, -, -, -, hparent⟩ := h
  obtain ⟨k, -, hk⟩ := List.countP_pos_iff.1 ((hparent j hj).symm ▸ Nat.one_pos)
  exact ⟨k, Node.hasChild_iff.1 hk⟩

/-- Every edge out of an internal node leads to an index below the root. -/
theorem TreeShape.mapsTo_child : Set.MapsTo (edgeEnd t) (edges n) (belowRoot n) := by
  rintro ⟨k, b⟩ hk
  obtain ⟨hlow, hhigh⟩ := mem_edges.1 hk
  obtain ⟨i, hi⟩ := h.exists_child hlow hhigh b
  have := h.child_bounds hi
  exact mem_belowRoot.2 ⟨i, by omega, hi⟩

/-- Every index below the root is a child. -/
theorem TreeShape.surjOn_child : Set.SurjOn (edgeEnd t) (edges n) (belowRoot n) := by
  intro x hx
  obtain ⟨j, hj, rfl⟩ := mem_belowRoot.1 hx
  obtain ⟨k, b, hkb⟩ := h.exists_parent hj
  have := h.child_bounds hkb
  exact ⟨(k, b), mem_edges.2 (by omega), hkb⟩

/-- No two edges lead to the same node: there are as many edges as indices below the root, and each of these is a
child. -/
theorem TreeShape.child_injective {k k' j : Nat} {b b' : Bool} (hj : (t.at k).child b = some j)
    (hj' : (t.at k').child b' = some j) : k = k' ∧ b = b' := by
  have hinj : Set.InjOn (edgeEnd t) (edges n) :=
    Finset.injOn_of_surjOn_of_card_le _ h.mapsTo_child h.surjOn_child (card_edges n).le
  have := h.child_bounds hj
  have := h.child_bounds hj'
  exact Prod.mk.inj (hinj (x₁ := (k, b)) (mem_edges.2 (by omega)) (x₂ := (k', b')) (mem_edges.2 (by omega))
    (hj.trans hj'.symm))

/-- Edges lead down the indices, and only internal nodes are passed. -/
theorem TreeShape.follow_bounds {k j : Nat} {path : Bits} (hj : t.follow k path = some j) :
    j + path.length ≤ k ∧ path.length ≤ k + 1 - n := by
  induction path generalizing k with
  | nil =>
    rw [Tree.follow_nil, Option.some_inj] at hj
    simp [hj]
  | cons b path ih =>
    obtain ⟨i, hi, hpath⟩ := Tree.follow_cons.1 hj
    have := h.child_bounds hi
    have := ih hpath
    rw [List.length_cons]
    omega

/-- Two paths from one node to one node are the same. -/
theorem TreeShape.follow_injective {k j : Nat} {p q : Bits} (hp : t.follow k p = some j) (hq : t.follow k q = some j) :
    p = q := by
  have hpos {q : Bits} {b : Bool} {k} : ¬ t.follow k (q ++ [b]) = some k := fun hq => by
    have := (h.follow_bounds hq).1
    rw [List.length_append, List.length_singleton] at this
    omega
  induction p using List.reverseRecOn generalizing q j with
  | nil =>
    rw [Tree.follow_nil, Option.some_inj] at hp
    subst hp
    cases q using List.reverseRecOn with
    | nil => rfl
    | append_singleton q b => exact absurd hq hpos
  | append_singleton p b ih =>
    cases q using List.reverseRecOn with
    | nil =>
      rw [Tree.follow_nil, Option.some_inj] at hq
      subst hq
      exact absurd hp hpos
    | append_singleton q c =>
      obtain ⟨i, hi, hb⟩ := Tree.follow_append_singleton.1 hp
      obtain ⟨i', hi', hc⟩ := Tree.follow_append_singleton.1 hq
      obtain ⟨rfl, rfl⟩ := h.child_injective hb hc
      rw [ih hi hi']

/-- A path from the root has at most 255 edges (R183 (c)). -/
theorem TreeShape.length_le_of_pathTo {path : Bits} {s : Byte} (hp : PathTo t t.root.toNat path s) :
    path.length ≤ 255 := by
  obtain ⟨j, w, hj, -⟩ := pathTo_iff_follow.1 hp
  have := (h.follow_bounds hj).2
  obtain ⟨-, hn, -, -, -, -, hroot, -⟩ := h
  omega

variable (hplaced : TreePlaced t n)
include hplaced

/-- A symbol has one leaf (41_tree_builder.md R155). -/
theorem TreeShape.leaf_injective {k k' : Nat} {s : Byte} {w w' : Word} (hk : t.at k = .leaf s w)
    (hk' : t.at k' = .leaf s w') : k = k' := by
  have hmono : StrictMonoOn (fun k => (t.at k).symNat) (Set.Iio n) :=
    strictMonoOn_of_lt_add_one Set.ordConnected_Iio fun a _ _ ha =>
      hplaced.1 a (Nat.lt_sub_of_add_lt ha)
  exact hmono.injOn (h.lt_of_leaf hk) (h.lt_of_leaf hk') (by simp [hk, hk', Node.symNat])

/-- A symbol has one path from a node. -/
theorem TreeShape.pathTo_unique {k : Nat} {p q : Bits} {s : Byte} (hp : PathTo t k p s) (hq : PathTo t k q s) :
    p = q := by
  obtain ⟨j, w, hj, hleaf⟩ := pathTo_iff_follow.1 hp
  obtain ⟨j', w', hj', hleaf'⟩ := pathTo_iff_follow.1 hq
  obtain rfl := h.leaf_injective hplaced hleaf hleaf'
  exact h.follow_injective hj hj'

end

/-! ## The table that holds a list of entries -/

/-- A symbol's code is one of its entries', or the one it had when it has none. -/
theorem mem_or_code_foldl_recordCode {entries : List (Byte × Bits)} (hlen : ∀ e ∈ entries, e.2.length ≤ 255)
    (t : CodeTable) (s : Byte) :
    (s, code (entries.foldl recordCode t) s) ∈ entries ∨
      code (entries.foldl recordCode t) s = code t s ∧ ∀ e ∈ entries, e.1 ≠ s := by
  induction entries generalizing t with
  | nil => simp
  | cons e entries ih =>
    obtain ⟨he, hrest⟩ := List.forall_mem_cons.1 hlen
    rw [List.foldl_cons]
    rcases ih hrest (recordCode t e) with hmem | ⟨hcode, hnone⟩
    · exact .inl (List.mem_cons_of_mem e hmem)
    · rw [hcode, code_recordCode t e he]
      by_cases hs : s = e.1
      · subst hs
        simp
      · rw [if_neg hs]
        exact .inr ⟨rfl, List.forall_mem_cons.2 ⟨Ne.symm hs, hnone⟩⟩

/-- A table of entries that give a symbol one code only gives each symbol its entry's. -/
theorem code_tableOf_iff {entries : List (Byte × Bits)} (hlen : ∀ e ∈ entries, e.2.length ≤ 255) {s : Byte}
    (huniq : ∀ c c', (s, c) ∈ entries → (s, c') ∈ entries → c = c') {bits : Bits} (hne : bits ≠ []) :
    code (tableOf entries) s = bits ↔ (s, bits) ∈ entries := by
  rcases mem_or_code_foldl_recordCode hlen .cleared s with hmem | ⟨hcode, hnone⟩
  · exact ⟨fun h => h ▸ hmem, huniq _ _ hmem⟩
  · rw [tableOf, hcode, code_cleared]
    exact ⟨fun h => absurd h.symm hne, fun h => absurd rfl (hnone _ h)⟩

theorem bitsToVec_shiftRight_length (bits : Bits) : bitsToVec bits >>> bits.length = 0 := by
  refine BitVec.eq_of_toNat_eq ?_
  rw [BitVec.toNat_ushiftRight, bitsToVec, BitVec.toNat_ofNat, Nat.shiftRight_eq_div_pow]
  exact Nat.div_eq_of_lt ((Nat.mod_le _ _).trans_lt (bitsToNat_lt bits))

theorem noStrayBits_recordCode {t : CodeTable} (h : NoStrayBits t) {e : Byte × Bits} (he : e.2.length ≤ 255) :
    NoStrayBits (recordCode t e) := by
  intro s hs
  rw [recordCode_len, recordCode_vec]
  split_ifs
  · rw [BitVec.toNat_ofNat, Nat.mod_eq_of_lt (by omega), bitsToVec_shiftRight_length]
  · exact h s hs

theorem noStrayBits_tableOf {entries : List (Byte × Bits)} (hlen : ∀ e ∈ entries, e.2.length ≤ 255) :
    NoStrayBits (tableOf entries) := by
  have hcleared : NoStrayBits .cleared := by simp [NoStrayBits, CodeTable.cleared]
  exact List.foldlRecOn entries recordCode hcleared fun t ht e he => noStrayBits_recordCode ht (hlen e he)

/-! ## The entries DERIVE records -/

theorem derivedEntries_leaf {t : Tree} {s : Byte} {w : Word} (hroot : t.at t.root.toNat = .leaf s w) :
    derivedEntries t = [(s, [false])] := by
  rw [derivedEntries, hroot]

theorem derivedEntries_internal {t : Tree} {l r : NodeIdx} {w : Word} (hroot : t.at t.root.toNat = .internal l r w) :
    derivedEntries t = walk t Config.maxNodes t.root.toNat [] := by
  rw [derivedEntries, hroot]

/-- With an internal root the entries are the root-to-leaf paths (R181). -/
theorem mem_derivedEntries {t : Tree} {n : Nat} (h : TreeShape t n) {l r : NodeIdx} {w : Word}
    (hroot : t.at t.root.toNat = .internal l r w) {s : Byte} {bits : Bits} :
    (s, bits) ∈ derivedEntries t ↔ PathTo t t.root.toNat bits s := by
  rw [derivedEntries_internal hroot, mem_walk]
  constructor
  · rintro ⟨p, rfl, -, hp⟩
    exact hp
  · intro hp
    have := h.length_le_of_pathTo hp
    exact ⟨bits, rfl, by rw [Config.maxNodes]; omega, hp⟩

theorem derivedEntries_length_le {t : Tree} {n : Nat} (h : TreeShape t n) :
    ∀ e ∈ derivedEntries t, e.2.length ≤ 255 := by
  rintro ⟨s, bits⟩ he
  cases hroot : t.at t.root.toNat with
  | empty => simp [derivedEntries, hroot] at he
  | leaf s' w =>
    rw [derivedEntries_leaf hroot, List.mem_singleton] at he
    cases he
    simp
  | internal l r w => exact h.length_le_of_pathTo ((mem_derivedEntries h hroot).1 he)

/-- Settles O20: the entries are the root-to-leaf paths, one for each symbol, and the table gives each its entry. -/
theorem deriveRecordsPaths : Obligations.DeriveRecordsPaths := by
  intro s hvalid hok
  obtain ⟨hshape, hplaced⟩ := hok.1 hvalid
  have hlen := derivedEntries_length_le hshape
  refine ⟨tableOf (derivedEntries s.tree), exec_derive_valid hvalid, noStrayBits_tableOf hlen, ?_, ?_⟩
  · intro sym w hroot
    rw [derivedEntries_leaf hroot]
    refine ⟨(code_recordCode _ _ (by simp) sym).trans (if_pos rfl), fun x hx => ?_⟩
    rw [tableOf, List.foldl_cons, List.foldl_nil, recordCode_len, if_neg hx]
    exact symGet_replicate _ _
  · intro l r w hroot sym bits hne
    have hmem (c : Bits) : (sym, c) ∈ derivedEntries s.tree ↔ PathTo s.tree s.tree.root.toNat c sym :=
      mem_derivedEntries hshape hroot
    rw [code_tableOf_iff hlen (fun c c' hc hc' => hshape.pathTo_unique hplaced ((hmem c).1 hc) ((hmem c').1 hc')) hne,
      hmem]

end Sys2Proof.Machine

/-! PROOF. ENCODE (43_codec.md R200, R202): the loop runs through every first part of the input whose codes fit, and
WritePacked leaves the payload at its base and nothing else changed. -/

namespace Sys2Proof.Machine

/-! ## The success commit as `committed` writes it -/

/-- A command past its precheck, with fitting windows, commits what its Body publishes (40_control.md R132, R133). -/
theorem exec_committed {i : Instr} {s u : State} {n : Word} (hpre : precheckOf s i = none) (hfit : WindowsFit s i)
    (hbody : bodyOf i s = .ok (u, n)) : exec i s = .next (committed u .ok n) := by
  rw [exec_eq_runCommand, hpre]
  exact runCommand_ok (checkWindows_eq_none.2 hfit) hbody

theorem needTable_of_valid {s : State} (h : s.tableValid = true) : needTable s = none := if_pos h

/-! ## The loop of Body(ENCODE) -/

@[simp] theorem codesOf_nil (t : CodeTable) : codesOf t [] = [] := rfl

@[simp] theorem codesOf_cons (t : CodeTable) (x : Byte) (xs : Text) : codesOf t (x :: xs) = code t x ++ codesOf t xs :=
  List.flatMap_cons

/-- A symbol whose code exists and fits is encoded, and the loop goes on (43_codec.md R200). -/
theorem encodeLoop_cons {t : CodeTable} {cap : Nat} {bits : Bits} {x : Byte} (rest : Text)
    (hcode : symGet t.len x ≠ 0) (hmax : (bits ++ code t x).length ≤ 2 ^ 32 - 1)
    (hcap : ceil8 (bits ++ code t x).length ≤ cap) :
    encodeLoop t cap bits (x :: rest) = encodeLoop t cap (bits ++ code t x) rest := by
  rw [List.length_append, code_length] at hmax hcap
  rw [encodeLoop, if_neg hcode]
  exact if_neg (by omega)

/-- The loop runs through a first part of the input whose symbols have codes and whose bits fit (43_codec.md R200). -/
theorem encodeLoop_append {t : CodeTable} {cap : Nat} {bits : Bits} {pre : Text} (rest : Text)
    (hcode : ∀ x ∈ pre, symGet t.len x ≠ 0) (hmax : (bits ++ codesOf t pre).length ≤ 2 ^ 32 - 1)
    (hcap : ceil8 (bits ++ codesOf t pre).length ≤ cap) :
    encodeLoop t cap bits (pre ++ rest) = encodeLoop t cap (bits ++ codesOf t pre) rest := by
  induction pre generalizing bits with
  | nil => simp
  | cons x xs ih =>
    obtain ⟨hx, hxs⟩ := List.forall_mem_cons.1 hcode
    rw [codesOf_cons, ← List.append_assoc] at hmax hcap ⊢
    have hle : (bits ++ code t x).length ≤ (bits ++ code t x ++ codesOf t xs).length := by
      rw [List.length_append (bs := codesOf t xs)]
      omega
    rw [List.cons_append, encodeLoop_cons _ hx (hle.trans hmax) ((ceil8_mono hle).trans hcap), ih hxs hmax hcap]

/-- Body(ENCODE) publishes the packed payload and BIT_LEN when the loop answers the bits (43_codec.md R200). -/
theorem encodeBody_ok {s : State} {bits : Bits} (h : encodeLoop s.table s.dstCap.toNat [] s.srcBytes = .ok bits) :
    encodeBody s =
      .ok ({ s with mem := s.writeDst (packedBytes bits), bitLen := BitVec.ofNat 32 bits.length },
        BitVec.ofNat 32 (ceil8 bits.length)) := by
  rw [encodeBody, h]

/-! ## What WritePacked leaves in MEM -/

/-- The packed bytes are the payload with its padding (20_memory.md R86, R87). -/
theorem payloadIs_writePacked {m : Memory} (hm : Memory.wf m) (p : Nat) (bits : Bits) :
    PayloadIs (Memory.writeBytes m p (packedBytes bits)) p bits := by
  have hbit := payloadBit_writePacked hm p bits
  refine ⟨List.ext_getElem (by simp) fun i _ hi => ?_, fun i hlow hhigh => ?_⟩
  · have hroom := ceil8_mul_le bits.length
    simp only [payloadBits, List.getElem_map, List.getElem_range]
    rw [hbit i (by omega), List.getD_eq_getElem _ _ hi]
  · rw [hbit i hhigh, List.getD_eq_default _ _ hlow]

/-- A run of bytes changes no byte outside itself (20_memory.md R84). -/
theorem sameMemOutside_writeBytes (m : Memory) (a : Nat) (bs : Text) :
    SameMemOutside a bs.length m (Memory.writeBytes m a bs) :=
  fun _ hx => Memory.read_writeBytes_other m a bs hx

/-! ## The obligation -/

/-- Settles O22: the loop runs through the whole input, and the published MEM is WritePacked of its codes. -/
theorem encodeCompletes : Obligations.EncodeCompletes := by
  intro s bits hm hvalid hfit hcode hbits hmax hcap
  subst hbits
  have hloop : encodeLoop s.table s.dstCap.toNat [] s.srcBytes = .ok (codesOf s.table s.input) := by
    rw [State.srcBytes_eq_input]
    simpa [encodeLoop] using encodeLoop_append (bits := []) [] hcode hmax hcap
  refine ⟨s.writeDst (packedBytes (codesOf s.table s.input)),
    exec_committed (needTable_of_valid hvalid) hfit (encodeBody_ok hloop), payloadIs_writePacked hm _ _, ?_⟩
  have hframe := sameMemOutside_writeBytes s.mem s.dstAddr.toNat (packedBytes (codesOf s.table s.input))
  rwa [packedBytes_length] at hframe

end Sys2Proof.Machine

/-! PROOF. The artifact's text (44_persistence.md R240 to R243): the decimal spelling of an ordinal, a table line and
the artifact as SERIALIZE writes them are the spec's. -/

namespace Sys2Proof.Machine

/-! ## Decimal digits (R242, R252) -/

theorem isDigit_iff {d : Byte} : isDigit d = true ↔ 48 ≤ d.toNat ∧ d.toNat ≤ 57 := by
  simp [isDigit, BitVec.le_def]

theorem toNat_digit {k : Nat} (hk : k < 10) : (digit k).toNat = 48 + k := by
  rw [digit, BitVec.toNat_ofNat, Nat.mod_eq_of_lt (by omega)]

theorem isDigit_digit {k : Nat} (hk : k < 10) : isDigit (digit k) = true := by
  rw [isDigit_iff, toNat_digit hk]
  omega

/-- A digit byte is the ASCII digit of its value. -/
theorem eq_digit {d : Byte} (hd : isDigit d = true) : ∃ k < 10, d = digit k := by
  rw [isDigit_iff] at hd
  refine ⟨d.toNat - 48, by omega, BitVec.eq_of_toNat_eq ?_⟩
  rw [toNat_digit (by omega)]
  omega

theorem ofNat_toNat_digitChar {k : Nat} (hk : k < 10) : BitVec.ofNat 8 k.digitChar.toNat = digit k := by
  rw [Nat.toNat_digitChar_of_lt_ten hk]
  rfl

theorem decimal_concat_digit (ds : Text) {k : Nat} (hk : k < 10) :
    decimal (ds ++ [digit k]) = 10 * decimal ds + k := by
  simp [decimal, List.foldl_append, toNat_digit hk]

theorem decimal_digit {k : Nat} (hk : k < 10) : decimal [digit k] = k := by
  simpa [decimal] using decimal_concat_digit [] hk

/-! ## The decimal spelling of a number (R242) -/

/-- The decimal spelling of a number; `ordinalText` is the one of an ordinal. -/
def decimalText (n : Nat) : Text := (Nat.toDigits 10 n).map fun c => BitVec.ofNat 8 c.toNat

theorem ordinalText_eq_decimalText (s : Byte) : ordinalText s = decimalText s.toNat := rfl

theorem decimalText_of_lt {n : Nat} (hn : n < 10) : decimalText n = [digit n] := by
  rw [decimalText, Nat.toDigits_of_lt_base hn, List.map_singleton, ofNat_toNat_digitChar hn]

theorem decimalText_of_le {n : Nat} (hn : 10 ≤ n) : decimalText n = decimalText (n / 10) ++ [digit (n % 10)] := by
  rw [decimalText, Nat.toDigits_of_base_le (by omega) hn, List.map_append, List.map_singleton,
    ofNat_toNat_digitChar (Nat.mod_lt n (by omega))]
  rfl

/-- Dec of R242, written case by case in the model, is the decimal spelling. -/
theorem dec_eq_ordinalText (s : Byte) : dec s = ordinalText s := by
  rw [ordinalText_eq_decimalText]
  simp only [dec]
  split_ifs with hone htwo
  · rw [decimalText_of_lt hone]
  · rw [decimalText_of_le (by omega), decimalText_of_lt (by omega)]
    rfl
  · have hlt := s.isLt
    rw [decimalText_of_le (by omega), decimalText_of_le (by omega), decimalText_of_lt (by omega),
      Nat.div_div_eq_div_mul]
    rfl

/-! ## Table lines and artifacts (R240, R241, R243) -/

theorem tableLine_eq_lineText (e : Byte × Bits) : tableLine e = lineText e := by
  rw [tableLine, dec_eq_ordinalText]
  rfl

theorem codeEntries_eq_tableLines (t : CodeTable) : codeEntries t = tableLines t := by
  rw [codeEntries, tableLines, ← List.filterMap_eq_map, List.filterMap_filter]
  simp

/-- What SERIALIZE writes is the spec's artifact of the present entries. -/
theorem artifact_eq_artifactText (t : CodeTable) (payload : Bits) :
    artifact t payload = artifactText (tableLines t) payload := by
  rw [artifact, codeEntries_eq_tableLines, funext tableLine_eq_lineText]
  rfl

@[simp] theorem length_bitText (bits : Bits) : (bitText bits).length = bits.length := List.length_map _

theorem length_lineText (e : Byte × Bits) : (lineText e).length = (ordinalText e.1).length + e.2.length + 2 := by
  simp [lineText]
  omega

theorem length_artifactText (lines : List (Byte × Bits)) (payload : Bits) :
    (artifactText lines payload).length =
      4 + payload.length + (lines.map fun e => (ordinalText e.1).length + e.2.length + 2).sum := by
  simp [artifactText, List.length_flatMap, length_lineText]
  omega

end Sys2Proof.Machine

/-! PROOF. SERIALIZE (44_persistence.md R240): the artifact stands at DST_ADDR, or it does not fit. -/

namespace Sys2Proof.Machine

/-- A command past its precheck, with fitting windows, ends in the failure commit of the error its Body raises
(40_control.md R134). -/
theorem exec_failData {i : Instr} {s : State} {e : Err} (hpre : precheckOf s i = none) (hfit : WindowsFit s i)
    (hbody : bodyOf i s = .error e) : exec i s = .next (s.failData e (dstWindow s i)) := by
  rw [exec_eq_runCommand, hpre]
  exact runCommand_error (checkWindows_eq_none.2 hfit) hbody

/-- A run of bytes reads back as it was written (20_memory.md R84). -/
theorem bytesAt_writeBytes {m : Memory} (hm : Memory.wf m) (a : Nat) (bs : Text) :
    bytesAt (Memory.writeBytes m a bs) a bs.length = bs := by
  refine List.ext_getElem (by simp [bytesAt]) fun i _ hi => ?_
  simp only [bytesAt, List.getElem_map, List.getElem_range]
  rw [Memory.read_writeBytes hm, if_pos (by omega), Nat.add_sub_cancel_left, List.getD_eq_getElem _ _ hi]

theorem serializeBody_ok {s : State} (h : (artifact s.table s.srcBits).length ≤ s.dstCap.toNat) :
    serializeBody s = .ok ({ s with mem := s.writeDst (artifact s.table s.srcBits) },
      BitVec.ofNat 32 (artifact s.table s.srcBits).length) :=
  if_neg h.not_gt

theorem serializeBody_capacityExceeded {s : State} (h : s.dstCap.toNat < (artifact s.table s.srcBits).length) :
    serializeBody s = .error .capacityExceeded :=
  if_pos h

/-- Settles O26: Body(SERIALIZE) compares the artifact's length with DST_CAP, and the artifact is the spec's text. -/
theorem serializeCompletes : Obligations.SerializeCompletes := by
  intro s T hm hvalid hfit hT
  have hpre : precheckOf s .serialize = none := needTable_of_valid hvalid
  have hart : artifact s.table s.srcBits = T := (artifact_eq_artifactText _ _).trans hT.symm
  refine ⟨fun hle => ?_, fun hlt => ?_, ?_⟩
  · have hbody := serializeBody_ok (s := s) (by rwa [hart])
    rw [hart] at hbody
    exact ⟨s.writeDst T, exec_committed hpre hfit hbody, bytesAt_writeBytes hm _ T, sameMemOutside_writeBytes _ _ T⟩
  · have hbody := serializeBody_capacityExceeded (s := s) (by rwa [hart])
    exact ⟨_, exec_failData hpre hfit hbody, State.failData_err _ _ _⟩
  · rw [hT, length_artifactText, payloadBits_length]

end Sys2Proof.Machine

/-! PROOF. ParseLine (44_persistence.md R252): the runs of digits and of code bits it takes are the longest ones, a run
of digits is the spelling of exactly one ordinal when it passes the four tests, and a line is these two runs and their
two separators. -/

namespace Sys2Proof.Machine

/-! ## The longest run of accepted bytes -/

/-- The longest run of accepted elements is xs, and y comes after it, when y does not begin with an accepted one. -/
theorem takeWhile_eq_and_drop_eq_iff {α : Type} {p : α → Bool} {A xs y : List α} (hxs : ∀ x ∈ xs, p x = true)
    (hy : ∀ x ∈ y.head?, p x = false) :
    A.takeWhile p = xs ∧ A.drop (A.takeWhile p).length = y ↔ A = xs ++ y := by
  constructor
  · rintro ⟨rfl, rfl⟩
    exact (List.prefix_iff_eq_append.1 (List.takeWhile_prefix p)).symm
  · rintro rfl
    have hstop : y.takeWhile p = [] := by
      cases y with
      | nil => rfl
      | cons b bs => exact List.takeWhile_cons_of_neg (by simp [hy b rfl])
    rw [List.takeWhile_append_of_pos hxs, hstop, List.append_nil]
    exact ⟨rfl, List.drop_left⟩

/-! ## The ordinal -/

/-- The text is a run of digits with no leading zero that spells n. -/
structure SpellsDecimal (ds : Text) (n : Nat) : Prop where
  /-- Every byte is a digit. -/
  digits : ∀ d ∈ ds, isDigit d = true
  /-- There is a digit. -/
  nonempty : ds ≠ []
  /-- Only the spelling of 0 begins with '0'. -/
  noLeadingZero : ds.head? = some char0 → ds.length ≤ 1
  /-- The digits' value is n. -/
  value : decimal ds = n

theorem SpellsDecimal.eq_zero_of_head? {ds : Text} {n : Nat} (h : SpellsDecimal ds n) (hzero : ds.head? = some char0) :
    n = 0 := by
  obtain ⟨x, rfl⟩ := List.length_eq_one_iff.1
    ((h.noLeadingZero hzero).antisymm (List.length_pos_iff.2 h.nonempty))
  obtain rfl : x = char0 := by simpa using hzero
  exact h.value.symm

/-- A digit after a spelling of a positive number spells the number it extends it to. -/
theorem SpellsDecimal.concat {ds : Text} {n k : Nat} (h : SpellsDecimal ds n) (hn : 0 < n) (hk : k < 10) :
    SpellsDecimal (ds ++ [digit k]) (10 * n + k) where
  digits := by
    simp only [List.mem_append, List.mem_singleton]
    rintro d (hd | rfl)
    · exact h.digits d hd
    · exact isDigit_digit hk
  nonempty := by simp
  noLeadingZero hzero := by
    rw [List.head?_append_of_ne_nil _ h.nonempty] at hzero
    exact absurd (h.eq_zero_of_head? hzero) hn.ne'
  value := by rw [decimal_concat_digit ds hk, h.value]

theorem spellsDecimal_digit {k : Nat} (hk : k < 10) : SpellsDecimal [digit k] k where
  digits := by simpa using isDigit_digit hk
  nonempty := by simp
  noLeadingZero _ := le_rfl
  value := decimal_digit hk

theorem spellsDecimal_decimalText (n : Nat) : SpellsDecimal (decimalText n) n := by
  induction n using Nat.strongRecOn with
  | ind n ih =>
    rcases Nat.lt_or_ge n 10 with hn | hn
    · rw [decimalText_of_lt hn]
      exact spellsDecimal_digit hn
    · have h := (ih (n / 10) (by omega)).concat (by omega) (Nat.mod_lt n (by omega : 10 > 0))
      rwa [← decimalText_of_le hn, Nat.div_add_mod] at h

/-- A number has one spelling (44_persistence.md R242). -/
theorem SpellsDecimal.eq_decimalText {ds : Text} {n : Nat} (h : SpellsDecimal ds n) : ds = decimalText n := by
  induction ds using List.reverseRecOn generalizing n with
  | nil => exact absurd rfl h.nonempty
  | append_singleton ds d ih =>
    obtain ⟨k, hk, rfl⟩ := eq_digit (h.digits d (by simp))
    rcases eq_or_ne ds [] with rfl | hds
    · rw [← h.value, List.nil_append, decimal_digit hk, decimalText_of_lt hk]
    · have hhead : ds.head? ≠ some char0 := fun hzero => by
        have hlen := h.noLeadingZero (by rwa [List.head?_append_of_ne_nil _ hds])
        have hpos := List.length_pos_iff.2 hds
        rw [List.length_append, List.length_singleton] at hlen
        omega
      have hspell : SpellsDecimal ds (decimal ds) :=
        ⟨fun d hd => h.digits d (by simp [hd]), hds, fun hzero => absurd hzero hhead, rfl⟩
      have hpos : decimal ds ≠ 0 := fun hzero => by
        have htext := ih hspell
        rw [hzero, decimalText_of_lt (by omega)] at htext
        exact hhead (htext ▸ rfl)
      rw [← h.value, decimal_concat_digit ds hk, decimalText_of_le (by omega),
        show (10 * decimal ds + k) / 10 = decimal ds by omega, show (10 * decimal ds + k) % 10 = k by omega,
        ← ih hspell]

theorem spellsDecimal_iff {ds : Text} {n : Nat} : SpellsDecimal ds n ↔ ds = decimalText n :=
  ⟨SpellsDecimal.eq_decimalText, fun h => h ▸ spellsDecimal_decimalText n⟩

/-- The spelling of an ordinal has at most three digits (44_persistence.md R242). -/
theorem length_ordinalText_le (s : Byte) : (ordinalText s).length ≤ 3 := by
  rw [ordinalText, List.length_map, Nat.length_toDigits_le_iff (by omega) (by omega)]
  exact s.isLt.trans (by omega)

/-- The tests ParseLine makes of a run of digits (44_persistence.md R252). -/
def OrdinalAccepted (ds : Text) : Prop :=
  ds ≠ [] ∧ ¬ ds.length > 3 ∧ ¬ (ds.length > 1 ∧ ds.head? = some char0) ∧ ¬ decimal ds > 255

/-- A run of digits passes the tests with the value s exactly when it is Dec(s) (44_persistence.md R252). -/
theorem ordinalAccepted_iff {ds : Text} (hds : ∀ d ∈ ds, isDigit d = true) {s : Byte} :
    OrdinalAccepted ds ∧ BitVec.ofNat 8 (decimal ds) = s ↔ ds = ordinalText s := by
  rw [ordinalText_eq_decimalText, ← spellsDecimal_iff]
  constructor
  · rintro ⟨⟨hne, -, hlead, hmax⟩, rfl⟩
    refine ⟨hds, hne, fun hzero => not_lt.1 fun hlen => hlead ⟨hlen, hzero⟩, ?_⟩
    rw [BitVec.toNat_ofNat, Nat.mod_eq_of_lt (by omega)]
  · intro h
    have hlen : ds.length ≤ 3 := spellsDecimal_iff.1 h ▸ length_ordinalText_le s
    have hlt := s.isLt
    have hvalue := h.value
    refine ⟨⟨h.nonempty, hlen.not_gt, fun ⟨hlong, hzero⟩ => (h.noLeadingZero hzero).not_gt hlong, by omega⟩, ?_⟩
    rw [hvalue, BitVec.ofNat_toNat, BitVec.setWidth_eq]

/-! ## The code -/

theorem isBitChar_of_mem_bitText {bits : Bits} : ∀ c ∈ bitText bits, isBitChar c = true := by
  simp only [bitText, List.mem_map]
  rintro c ⟨b, -, rfl⟩
  cases b <;> rfl

/-- Reading the characters of a code back gives its bits. -/
theorem map_bitText (bits : Bits) : (bitText bits).map (· == char1) = bits := by
  rw [bitText, List.map_map]
  refine List.map_id'' (fun b => ?_) bits
  cases b <;> rfl

/-- A run of bit characters is read as the bits it is the text of. -/
theorem map_eq_iff_eq_bitText {cs : Text} (hcs : ∀ x ∈ cs, isBitChar x = true) {c : Bits} :
    cs.map (· == char1) = c ↔ cs = bitText c := by
  constructor
  · rintro rfl
    rw [bitText, List.map_map]
    refine ((List.map_congr_left fun x hx => ?_).trans (List.map_id cs)).symm
    obtain rfl | rfl : x = char0 ∨ x = char1 := by simpa [isBitChar] using hcs x hx
    · rfl
    · rfl
  · rintro rfl
    exact map_bitText c

/-- The code half is a space, a run of 1 to 255 bit characters, and a newline (44_persistence.md R252). -/
theorem parseCode_cons_eq_ok_iff {x : Byte} {B : Text} {c : Bits} {rest : Text} :
    parseCode (x :: B) = .ok (c, rest) ↔
      (x = space ∧ (B.takeWhile isBitChar).map (· == char1) = c ∧
        B.drop (B.takeWhile isBitChar).length = newline :: rest) ∧ 1 ≤ c.length ∧ c.length ≤ 255 := by
  have hlen (hc : (B.takeWhile isBitChar).map (· == char1) = c) : c.length = (B.takeWhile isBitChar).length :=
    hc ▸ List.length_map _
  rw [parseCode]
  dsimp only
  split_ifs with hspace hempty hlong
  · simp [hspace]
  · rw [hempty] at hlen ⊢
    exact ⟨nofun, fun ⟨⟨_, hc, _⟩, hmin, _⟩ => absurd (hlen hc) (Nat.ne_of_gt hmin)⟩
  · exact ⟨nofun, fun ⟨⟨_, hc, _⟩, _, hmax⟩ => absurd hmax (hlen hc ▸ hlong.not_ge)⟩
  · split
    next hdrop => simp [hdrop]
    next d after hdrop =>
      rw [hdrop]
      split_ifs with hnewline
      · simp [hnewline]
      · have hsize (hc : (B.takeWhile isBitChar).map (· == char1) = c) : 1 ≤ c.length ∧ c.length ≤ 255 :=
          hlen hc ▸ ⟨List.length_pos_iff.2 hempty, not_lt.1 hlong⟩
        rw [not_not] at hspace hnewline
        simp only [Except.ok.injEq, Prod.mk.injEq, List.cons.injEq, hspace, hnewline, true_and]
        exact (and_iff_left_of_imp fun ⟨hc, _⟩ => hsize hc).symm

/-- The second half of ParseLine accepts exactly " " code "\n" with a code of 1 to 255 bits (44_persistence.md
R252). -/
theorem parseCode_eq_ok_iff {A : Text} {c : Bits} {rest : Text} :
    parseCode A = .ok (c, rest) ↔
      A = [space] ++ bitText c ++ [newline] ++ rest ∧ 1 ≤ c.length ∧ c.length ≤ 255 := by
  cases A with
  | nil => simp [parseCode]
  | cons x B =>
    rw [parseCode_cons_eq_ok_iff, map_eq_iff_eq_bitText fun _ => List.mem_takeWhile_imp,
      takeWhile_eq_and_drop_eq_iff isBitChar_of_mem_bitText (by rintro x ⟨⟩; rfl)]
    simp

/-! ## The line -/

/-- ParseLine is its run of digits, accepted, and then its code (44_persistence.md R252). -/
theorem parseLine_eq_ok_iff {A : Text} {s : Byte} {c : Bits} {rest : Text} :
    parseLine A = .ok (s, c, rest) ↔
      (OrdinalAccepted (A.takeWhile isDigit) ∧ BitVec.ofNat 8 (decimal (A.takeWhile isDigit)) = s) ∧
        parseCode (A.drop (A.takeWhile isDigit).length) = .ok (c, rest) := by
  simp only [parseLine, OrdinalAccepted]
  split_ifs with hempty hlong hlead hmax
  · simp [hempty]
  · simp [hlong]
  · simp [hlead]
  · simp [hmax]
  · rw [and_iff_right (⟨hempty, hlong, hlead, hmax⟩ : _ ∧ _ ∧ _ ∧ _)]
    cases parseCode (A.drop (A.takeWhile isDigit).length) with
    | error e => simp
    | ok r => simp [Prod.ext_iff]

/-- Settles O27: the run of digits is Dec(s), and what follows it is the code half of the line. -/
theorem parseLineExact : Obligations.ParseLineExact := by
  intro A s c rest
  have hdigits : ∀ d ∈ ordinalText s, isDigit d = true := (spellsDecimal_decimalText s.toNat).digits
  rw [parseLine_eq_ok_iff, ordinalAccepted_iff fun _ => List.mem_takeWhile_imp, parseCode_eq_ok_iff, ← and_assoc,
    takeWhile_eq_and_drop_eq_iff hdigits (by rintro x ⟨⟩; rfl)]
  simp [lineText, space, newline]

end Sys2Proof.Machine

/-! PROOF. Result codes (60_exceptions.md R280 to R289): the one commit an engine step ends in, which test each result
code of a command comes from, and the order of the tests. -/

namespace Sys2Proof.Machine

/-! ## The commit an engine step ends in -/

/-- Every command completes (40_control.md R132). -/
theorem exec_next (i : Instr) (s : State) : ∃ t, exec i s = .next t :=
  ⟨_, exec_eq_runCommand i s⟩

/-- A command ends in one commit, of a state that kept CTRL.IRQ_EN, with OUT_LEN = 0 on error (40_control.md R133,
R134). -/
theorem exec_commits {i : Instr} {s t : State} (h : exec i s = .next t) :
    ∃ (u : State) (e : Err) (n : Word), t = u.commit e n ∧ u.irqEn = s.irqEn ∧ (e ≠ .ok → n = 0) := by
  rcases exec_cases h with ⟨e, -, ht⟩ | ⟨-, -, ht⟩ | ⟨-, -, e, -, ht⟩ | ⟨-, -, u, n, hbody, ht⟩
  · exact ⟨s, e, 0, ht, rfl, fun _ => rfl⟩
  · exact ⟨s, .addressFault, 0, ht, rfl, fun _ => rfl⟩
  · exact ⟨s.scramble (dstWindow s i), e, 0, ht, s.scramble_irqEn _, fun _ => rfl⟩
  · obtain ⟨-, hirqEn, -⟩ := bodyOf_frame hbody
    exact ⟨u, .ok, n, ht, hirqEn, fun hfail => absurd rfl hfail⟩

/-- The same of every command word, an illegal one included (40_control.md R138). -/
theorem execute_commits {v : Word} {s t : State} (h : execute v s = .next t) :
    ∃ (u : State) (e : Err) (n : Word), t = u.commit e n ∧ u.irqEn = s.irqEn ∧ (e ≠ .ok → n = 0) := by
  cases hd : decode v with
  | error x =>
    rw [execute_of_error hd] at h
    injection h with h
    exact ⟨s, .illegalCommand, 0, h.symm, rfl, fun _ => rfl⟩
  | ok i =>
    rw [execute_of_ok hd] at h
    exact exec_commits h

/-! ## The test a result code comes from -/

/-- What a command needs before its windows are looked at: DERIVE a tree, and ENCODE, DECODE and SERIALIZE a table
(60_exceptions.md R286). -/
theorem precheckOf_eq_none_iff {s : State} {i : Instr} :
    precheckOf s i = none ↔
      (i = .derive → s.treeValid = true) ∧ (i ∈ [Instr.encode, .decode, .serialize] → s.tableValid = true) := by
  cases i <;> simp [precheckOf, needTree, needTable]

/-- When a precheck raises NOT_READY (60_exceptions.md R286). -/
theorem precheckOf_eq_notReady_iff {s : State} {i : Instr} :
    precheckOf s i = some .notReady ↔
      (i = .derive ∧ s.treeValid = false) ∨ (i ∈ [Instr.encode, .decode, .serialize] ∧ s.tableValid = false) := by
  cases i <;> simp [precheckOf, needTree, needTable]

/-- A failed precheck decides the command, whatever its windows are (60_exceptions.md R286, R289). -/
theorem exec_of_precheck {s : State} {i : Instr} (h : precheckOf s i = some .notReady) :
    exec i s = .next (committed s .notReady 0) := by
  rw [exec_eq_runCommand, h, runCommand_precheck, State.fail_eq_committed]

/-- The test of a command a result code comes from (60_exceptions.md R289). -/
inductive RaisedBy (i : Instr) (s : State) : Err → Prop where
  /-- The precheck finds no tree or no table. -/
  | precheck (h : precheckOf s i = some .notReady) : RaisedBy i s .notReady
  /-- CheckWindows finds a window that is not valid, or an overlap. -/
  | windows (h : ¬ WindowsFit s i) : RaisedBy i s .addressFault
  /-- The Body raises the error. -/
  | body {e : Err} (he : e ∈ dataErrorsOf i) (h : bodyOf i s = .error e) : RaisedBy i s e
  /-- No test fails. -/
  | none : RaisedBy i s .ok

theorem exec_raisedBy {i : Instr} {s t : State} (h : exec i s = .next t) : RaisedBy i s t.err := by
  rcases exec_cases h with ⟨e, hpre, rfl⟩ | ⟨-, hwin, rfl⟩ | ⟨-, -, e, hbody, rfl⟩ | ⟨-, -, u, n, -, rfl⟩
  · obtain rfl := precheckOf_eq_some hpre
    exact .precheck hpre
  · refine .windows fun hfit => ?_
    cases hwin.symm.trans (checkWindows_eq_none.2 hfit)
  · rw [State.failData_err]
    exact .body (bodyOf_error hbody) hbody
  · exact .none

theorem dataErrorsOf_subset_errorsOf (i : Instr) : ∀ e ∈ dataErrorsOf i, e ∈ errorsOf i := by
  cases i <;> decide

/-- Every test a command makes raises a code of the command's row (60_exceptions.md R280). -/
theorem RaisedBy.mem_errorsOf {i : Instr} {s : State} {e : Err} (h : RaisedBy i s e) : e ∈ errorsOf i := by
  cases h with
  | precheck hpre =>
    have hready : ∀ j ∈ [Instr.encode, .decode, .serialize], Err.notReady ∈ errorsOf j := by decide
    rcases precheckOf_eq_notReady_iff.1 hpre with ⟨rfl, -⟩ | ⟨hi, -⟩
    · decide
    · exact hready i hi
  | windows hbad =>
    cases i with
    | nop | clear | build | derive => exact absurd (checkWindows_eq_none.1 (checkWindows_none_none s.memSize)) hbad
    | count | encode | decode | serialize | parse => decide
  | body he => exact dataErrorsOf_subset_errorsOf i e he
  | none => cases i <;> decide

/-! ## The errors of BUILD (41_tree_builder.md R151) -/

/-- The alphabet is empty exactly when every count is 0 (60_exceptions.md R281). -/
theorem alphabet_length_eq_zero {f : Vector Word 256} : (alphabet f).length = 0 ↔ ∀ sym, symGet f sym = 0 := by
  simp [alphabet, List.filter_eq_nil_iff]

theorem eq_build_of_invalidInput_mem {i : Instr} (h : .invalidInput ∈ dataErrorsOf i) : i = .build := by
  cases i <;> simp [dataErrorsOf] at h ⊢

theorem buildBody_eq_invalidInput_iff {s : State} :
    buildBody s = .error .invalidInput ↔ ∀ sym, symGet s.freq sym = 0 := by
  rw [buildBody, ← alphabet_length_eq_zero]
  split_ifs with hzero hsum <;> simp [hzero]

theorem buildBody_of_sum {s : State} (hne : ∃ sym, symGet s.freq sym ≠ 0) (hsum : 2 ^ 32 - 1 < freqSum s.freq) :
    buildBody s = .error .capacityExceeded := by
  obtain ⟨sym, hsym⟩ := hne
  have hzero : ¬ (alphabet s.freq).length = 0 := fun h => hsym (alphabet_length_eq_zero.1 h sym)
  rw [buildBody, if_neg hzero, if_pos hsum]

/-- BUILD has no window, so its failure changes the result registers alone (40_control.md R134). -/
theorem exec_build_error {s : State} {e : Err} (h : buildBody s = .error e) :
    exec .build s = .next (committed s e 0) :=
  (exec_eq_runCommand .build s).trans (runCommand_error (checkWindows_none_none s.memSize) h)

/-! ## The obligations -/

/-- Settles O8: the precheck raises NOT_READY, comes before the windows, and is the only test that raises it. -/
theorem notReadyComesFirst : Obligations.NotReadyComesFirst := by
  refine ⟨fun s htree => ?_, fun s i hi htable => ?_, fun s t i h herr => ?_⟩
  · exact exec_of_precheck (precheckOf_eq_notReady_iff.2 (.inl ⟨rfl, htree⟩))
  · exact exec_of_precheck (precheckOf_eq_notReady_iff.2 (.inr ⟨hi, htable⟩))
  · cases herr ▸ exec_raisedBy h with
    | precheck hpre => exact precheckOf_eq_notReady_iff.1 hpre
    | body he => exact absurd (by simp) (not_early_of_mem_dataErrorsOf _ he)

/-- Settles O9: past the precheck CheckWindows decides, and it is the only test that raises ADDRESS_FAULT. -/
theorem addressFaultComesNext : Obligations.AddressFaultComesNext := by
  refine ⟨fun s i htree htable hbad => ?_, fun s t i h herr => ?_⟩
  · obtain ⟨e, hwin⟩ := Option.ne_none_iff_exists'.1 (mt checkWindows_eq_none.1 hbad)
    rw [exec_eq_runCommand, precheckOf_eq_none_iff.2 ⟨htree, htable⟩, runCommand_windows hwin, State.fail_eq_committed]
  · cases herr ▸ exec_raisedBy h with
    | windows hbad => exact hbad
    | body he => exact absurd (by simp) (not_early_of_mem_dataErrorsOf _ he)

/-- Settles O13: the commit gives the result registers, and each test raises a code of the command's row. -/
theorem errorsPerCommand : Obligations.ErrorsPerCommand := by
  refine ⟨fun s i => ?_, fun s v e hd => ⟨_, execute_of_error hd s, by simp⟩, by decide⟩
  obtain ⟨t, h⟩ := exec_next i s
  have hrow := (exec_raisedBy h).mem_errorsOf
  obtain ⟨u, e, n, rfl, -, hout⟩ := exec_commits h
  exact ⟨_, h, u.commit_latched e n, u.commit_done e n, hrow, by simpa using hout⟩

/-- Settles O19: Body(BUILD) tests the empty table before the sum, and no other test raises INVALID_INPUT. -/
theorem buildErrors : Obligations.BuildErrors := by
  refine ⟨fun s hempty => exec_build_error (buildBody_eq_invalidInput_iff.2 hempty),
    fun s hne hsum => exec_build_error (buildBody_of_sum hne hsum), fun s t i h herr => ?_⟩
  cases herr ▸ exec_raisedBy h with
  | body he hbody =>
    obtain rfl := eq_build_of_invalidInput_mem he
    exact ⟨rfl, buildBody_eq_invalidInput_iff.1 hbody⟩

end Sys2Proof.Machine

/-! PROOF. The interrupt line (60_exceptions.md R290): the register bits it is read from, and that no host step sets
DONE. -/

namespace Sys2Proof.Machine

/-- Bit 1 of CTRL is IRQ_EN (10_state.md R22). -/
theorem ctrlWord_getLsbD_one (s : State) : (ctrlWord s).getLsbD 1 = s.irqEn := by
  have key : ∀ a b : Bool, (BitVec.ofNat 32 (a.toNat + 2 * b.toNat)).getLsbD 1 = b := by decide
  exact key s.legacyTrunc s.irqEn

/-- Bit 1 of STATUS is DONE (10_state.md R23). -/
theorem statusWord_getLsbD_one (s : State) : (statusWord s).getLsbD 1 = s.done := by
  have key : ∀ a b c d e : Bool,
      (BitVec.ofNat 32 (a.toNat + 2 * b.toNat + 4 * c.toNat + 8 * d.toNat + 16 * e.toNat)).getLsbD 1 = b := by decide
  exact key s.busy s.done s.overrun s.treeValid s.tableValid

/-- No host step sets DONE (10_state.md R23). -/
theorem hostStep_done {s t : State} {x : HostStep} (h : hostStep s x = .next t) (hs : s.done = false) :
    t.done = false := by
  have hread : ∀ off r, (s.recordReg off r).done = false := fun off r => by
    obtain ⟨v, d, hrec⟩ := s.recordReg_eq off r
    rw [hrec]
    exact hs
  cases x with
  | rd off size =>
    rw [hostStep] at h
    split_ifs at h
    cases h
    exact hread off _
  | rdReg r =>
    cases h
    exact hread _ r
  | wr off size v =>
    rw [hostStep] at h
    split_ifs at h
    cases h
    exact writeReg_done hs _ v
  | memRd a | memWr a v =>
    rw [hostStep] at h
    split_ifs at h
    cases h
    exact hs
  | wait =>
    rw [hostStep] at h
    cases h
    split_ifs <;> exact hread (regOffset .status) .status
  | reset =>
    cases h
    rw [State.resetSignal_eq]
    rfl

/-- A step that sets DONE is the engine's (40_control.md R133, R134). -/
theorem engine_of_step_sets_done {s t : State} (h : step s = .next t) (hs : s.done = false) (ht : t.done = true) :
    ∃ v, nextAgent s = .engine v := by
  rcases nextAgent_cases s with ⟨v, hagent, -⟩ | ⟨x, rest, hagent, -⟩ | ⟨hagent, -⟩
  · exact ⟨v, hagent⟩
  · rw [step_host hagent] at h
    cases ht.symm.trans (hostStep_done h hs)
  · rw [step_idle hagent] at h
    cases h
    cases ht.symm.trans hs

/-- Writing 1 to DONE clears the line (10_state.md R23). -/
theorem irq_writeReg_status (s : State) {v : Word} (hv : v.getLsbD 1 = true) : (writeReg s .status v).irq = false := by
  rw [writeReg, State.irq, State.ackStatus_done, hv]
  simp

/-- An accepted CMD write clears DONE, and with it the line (40_control.md R130). -/
theorem irq_writeReg_cmd {s : State} (hb : s.busy = false) (v : Word) : (writeReg s .cmd v).irq = false := by
  rw [writeReg, State.guardedWrite_of_idle hb, State.irq, State.issueFree_done, Bool.and_false]

/-- Clearing IRQ_EN masks the line and keeps DONE (10_state.md R22). -/
theorem irq_writeReg_ctrl {s : State} (hb : s.busy = false) {v : Word} (hv : v.getLsbD 1 = false) :
    (writeReg s .ctrl v).irq = false ∧ (writeReg s .ctrl v).done = s.done := by
  rw [writeReg, State.guardedWrite_of_idle hb, State.irq, State.setCtrl_irqEn, hv]
  exact ⟨rfl, rfl⟩

/-- Settles O47: IRQ_EN and DONE are the two bits, every commit sets DONE and keeps IRQ_EN, no host step sets DONE, and
each of the three register writes clears DONE or IRQ_EN. -/
theorem interruptLine : Obligations.InterruptLine := by
  refine ⟨fun s => ?_, fun s t v h => ?_, fun s t => engine_of_step_sets_done, fun s t v hv h => ?_,
    fun s t v hb h => ?_, fun s t v hb hv h => ?_⟩
  · rw [regValue, regValue, ctrlWord_getLsbD_one, statusWord_getLsbD_one, State.irq]
  · obtain ⟨u, e, n, rfl, hirqEn, -⟩ := execute_commits h
    simp [State.irq, hirqEn]
  · cases (hostStep_wr (by decide) v).symm.trans h
    exact irq_writeReg_status s hv
  · cases (hostStep_wr (by decide) v).symm.trans h
    exact irq_writeReg_cmd hb v
  · cases (hostStep_wr (by decide) v).symm.trans h
    exact irq_writeReg_ctrl hb hv

end Sys2Proof.Machine

/-! PROOF. The errors of ENCODE (43_codec.md R201): the first symbol that cannot be encoded ends the loop. -/

namespace Sys2Proof.Machine

/-- A symbol with no code ends the loop (43_codec.md R201). -/
theorem encodeLoop_unknownSymbol {t : CodeTable} {x : Byte} (hx : symGet t.len x = 0) (cap : Nat) (bits : Bits)
    (rest : Text) : encodeLoop t cap bits (x :: rest) = .error .unknownSymbol :=
  if_pos hx

/-- A symbol whose code does not fit ends the loop (43_codec.md R201). -/
theorem encodeLoop_capacityExceeded {t : CodeTable} {cap : Nat} {bits : Bits} {x : Byte} (hx : symGet t.len x ≠ 0)
    (hfull : 2 ^ 32 - 1 < (bits ++ code t x).length ∨ cap < ceil8 (bits ++ code t x).length) (rest : Text) :
    encodeLoop t cap bits (x :: rest) = .error .capacityExceeded := by
  rw [List.length_append, code_length] at hfull
  rw [encodeLoop, if_neg hx]
  exact if_pos hfull

theorem encodeBody_error_of_loop {s : State} {e : Err}
    (h : encodeLoop s.table s.dstCap.toNat [] s.input = .error e) : encodeBody s = .error e := by
  rw [encodeBody, State.srcBytes_eq_input, h]

/-- Settles O23: the loop runs through the symbols before, and the failing symbol's code decides the error. -/
theorem encodeFirstErrorWins : Obligations.EncodeFirstErrorWins := by
  intro s pre x post hvalid hfit hinput hpre hmax hcap
  have hloop : encodeLoop s.table s.dstCap.toNat [] s.input =
      encodeLoop s.table s.dstCap.toNat (codesOf s.table pre) (x :: post) := by
    rw [hinput]
    exact encodeLoop_append (bits := []) (x :: post) hpre hmax hcap
  obtain ⟨t, h⟩ := exec_next .encode s
  have herr : ∀ e, encodeLoop s.table s.dstCap.toNat (codesOf s.table pre) (x :: post) = .error e → t.err = e := by
    intro e he
    have hbody : encodeBody s = .error e := encodeBody_error_of_loop (hloop.trans he)
    have hfail := exec_failData (i := .encode) (needTable_of_valid hvalid) hfit hbody
    cases h.symm.trans hfail
    exact State.failData_err _ _ _
  refine ⟨t, h, fun hx => herr _ (encodeLoop_unknownSymbol hx _ _ post), fun hx hfull => ?_⟩
  have hcodes : codesOf s.table (pre ++ [x]) = codesOf s.table pre ++ code s.table x := by
    simp [codesOf]
  rw [hcodes] at hfull
  exact herr _ (encodeLoop_capacityExceeded hx hfull post)

end Sys2Proof.Machine

/-! PROOF. The errors of DECODE (43_codec.md R210 to R212): a prefix-free table decodes a payload code by code, up to the
first symbol that does not fit or up to the leftover bits. -/

namespace Sys2Proof.Machine

/-! ## Matching in a prefix-free table (43_codec.md R211) -/

theorem matchCode_eq_none_iff {entries : List (Byte × Bits)} {buf : Bits} :
    matchCode entries buf = none ↔ ∀ e ∈ entries, e.2 ≠ buf := by
  simp [matchCode]

/-- In a prefix-free table an entry whose code begins another's code is that other entry (10_state.md R62). -/
theorem eq_of_prefix_of_prefixFree {entries : List (Byte × Bits)} (hfree : PrefixFree entries) {e f : Byte × Bits}
    (he : e ∈ entries) (hf : f ∈ entries) (hpre : e.2 <+: f.2) : e = f := by
  by_contra hne
  have hsymm : Std.Symm fun x y : Byte × Bits => ¬ x.2 <+: y.2 ∧ ¬ y.2 <+: x.2 := ⟨fun _ _ h => h.symm⟩
  exact (hfree.forall he hf hne).1 hpre

/-- The buffer matches the one entry whose code it is (43_codec.md R211). -/
theorem matchCode_of_mem {entries : List (Byte × Bits)} (hfree : PrefixFree entries) {e : Byte × Bits}
    (he : e ∈ entries) : matchCode entries e.2 = some e.1 := by
  cases hm : entries.find? fun f => f.2 == e.2 with
  | none => exact absurd rfl (matchCode_eq_none_iff.1 (by rw [matchCode, hm]; rfl) e he)
  | some f =>
    have hcode : f.2 = e.2 := by simpa using List.find?_some hm
    obtain rfl := eq_of_prefix_of_prefixFree hfree (List.mem_of_find?_eq_some hm) he (hcode ▸ List.prefix_rfl)
    rw [matchCode, hm]
    rfl

/-! ## The loop of Body(DECODE) -/

/-- The loop buffers bits for as long as the buffer is no code (43_codec.md R210). -/
theorem decodeLoop_no_match {entries : List (Byte × Bits)} {cap : Nat} {buf p : Bits} {out : Text} (rest : Bits)
    (h : ∀ q, q ≠ [] → q <+: p → ∀ e ∈ entries, e.2 ≠ buf ++ q) :
    decodeLoop entries cap buf out (p ++ rest) = decodeLoop entries cap (buf ++ p) out rest := by
  induction p generalizing buf with
  | nil => simp
  | cons b bs ih =>
    have hb : matchCode entries (buf ++ [b]) = none :=
      matchCode_eq_none_iff.2 (h [b] (List.cons_ne_nil b []) (List.cons_prefix_cons.2 ⟨rfl, List.nil_prefix⟩))
    have hbs := ih (buf := buf ++ [b]) fun q _ hq e he => by
      simpa using h (b :: q) (List.cons_ne_nil b q) (List.cons_prefix_cons.2 ⟨rfl, hq⟩) e he
    rw [List.cons_append, decodeLoop, hb]
    simpa using hbs

/-- Bits in which no code begins are left in the buffer (43_codec.md R212). -/
theorem decodeLoop_leftover {entries : List (Byte × Bits)} {rest : Bits} (h : ∀ e ∈ entries, ¬ e.2 <+: rest)
    (cap : Nat) (out : Text) : decodeLoop entries cap [] out rest = .ok (rest, out) := by
  have hloop := decodeLoop_no_match (entries := entries) (cap := cap) (buf := []) (p := rest) (out := out) []
    fun q _ hq e he heq => h e he (heq ▸ hq)
  simpa [decodeLoop] using hloop

/-- One code of a prefix-free table is one symbol, put out when it fits (43_codec.md R210). -/
theorem decodeLoop_code {entries : List (Byte × Bits)} (hfree : PrefixFree entries) {e : Byte × Bits}
    (he : e ∈ entries) (hne : e.2 ≠ []) (cap : Nat) (out : Text) (rest : Bits) :
    decodeLoop entries cap [] out (e.2 ++ rest) =
      if out.length = cap then .error .capacityExceeded else decodeLoop entries cap [] (out ++ [e.1]) rest := by
  obtain ⟨p, b, hcode⟩ := (List.eq_nil_or_concat' e.2).resolve_left hne
  have hproper : ∀ q, q ≠ [] → q <+: p → ∀ f ∈ entries, f.2 ≠ [] ++ q := by
    rintro q - hq f hf hfq
    obtain rfl : f.2 = q := hfq
    obtain rfl := eq_of_prefix_of_prefixFree hfree hf he (hcode ▸ hq.trans (List.prefix_append p [b]))
    have hlen := hq.length_le
    simp [hcode] at hlen
  have hmatch := matchCode_of_mem hfree he
  rw [hcode] at hmatch ⊢
  rw [List.append_assoc, decodeLoop_no_match _ hproper, List.nil_append, List.singleton_append, decodeLoop, hmatch]

/-- A symbol with a code stands in the code entries with it, and its code is not empty (10_state.md R60). -/
theorem mem_codeEntries_of_len {t : CodeTable} {x : Byte} (hx : symGet t.len x ≠ 0) :
    (x, code t x) ∈ codeEntries t ∧ code t x ≠ [] := by
  refine ⟨mem_codeEntries.2 ⟨hx, rfl⟩, fun hnil => hx (BitVec.eq_of_toNat_eq ?_)⟩
  rw [← code_length, hnil]
  rfl

/-- The codes of symbols that fit decode to these symbols, whatever follows them (43_codec.md R210). -/
theorem decodeLoop_codesOf {t : CodeTable} (hfree : PrefixFree (codeEntries t)) {cap : Nat} {out xs : Text}
    (hcode : ∀ x ∈ xs, symGet t.len x ≠ 0) (hfit : (out ++ xs).length ≤ cap) (rest : Bits) :
    decodeLoop (codeEntries t) cap [] out (codesOf t xs ++ rest) =
      decodeLoop (codeEntries t) cap [] (out ++ xs) rest := by
  induction xs generalizing out with
  | nil => simp
  | cons x xs ih =>
    obtain ⟨hx, hxs⟩ := List.forall_mem_cons.1 hcode
    obtain ⟨hmem, hne⟩ := mem_codeEntries_of_len hx
    have hroom : out.length ≠ cap := by
      rw [List.length_append, List.length_cons] at hfit
      omega
    rw [codesOf_cons, List.append_assoc, decodeLoop_code hfree hmem hne, if_neg hroom,
      ih hxs (by simpa [Nat.add_assoc, Nat.add_comm 1] using hfit)]
    simp

/-! ## Body(DECODE) -/

theorem decodeBody_error_of_loop {s : State} {e : Err}
    (h : decodeLoop (codeEntries s.table) s.dstCap.toNat [] [] s.srcBits = .error e) : decodeBody s = .error e := by
  rw [decodeBody, h]

/-- Leftover bits end the command when CTRL.LEGACY_TRUNC = 0 (43_codec.md R212). -/
theorem decodeBody_truncatedStream {s : State} {buf : Bits} {out : Text}
    (h : decodeLoop (codeEntries s.table) s.dstCap.toNat [] [] s.srcBits = .ok (buf, out)) (hbuf : buf ≠ [])
    (hlegacy : s.legacyTrunc = false) : decodeBody s = .error .truncatedStream := by
  rw [decodeBody, h]
  exact if_pos ⟨hbuf, hlegacy⟩

/-! ## The obligation -/

/-- Settles O25: a prefix-free table decodes the payload code by code, up to the leftover bits or up to the symbol that
finds the output full. -/
theorem decodeErrors : Obligations.DecodeErrors := by
  refine ⟨fun s out rest hvalid hfree hfit hbits hcode hrest hne hlegacy hcap => ?_,
    fun s out x rest hvalid hfree hfit hbits hcode hcap => ?_⟩
  · have hloop : decodeLoop (codeEntries s.table) s.dstCap.toNat [] [] s.srcBits = .ok (rest, out) := by
      rw [State.srcBits, hbits, decodeLoop_codesOf hfree hcode hcap, decodeLoop_leftover hrest]
      rfl
    exact ⟨_, exec_failData (needTable_of_valid hvalid) hfit (decodeBody_truncatedStream hloop hne hlegacy),
      State.failData_err _ _ _⟩
  · obtain ⟨hout, hx⟩ := List.forall_mem_append.1 hcode
    obtain ⟨hmem, hne⟩ := mem_codeEntries_of_len (hx x (List.mem_singleton_self x))
    have hcodes : codesOf s.table (out ++ [x]) ++ rest = codesOf s.table out ++ (code s.table x ++ rest) := by
      simp [codesOf]
    have hloop : decodeLoop (codeEntries s.table) s.dstCap.toNat [] [] s.srcBits = .error .capacityExceeded := by
      rw [State.srcBits, hbits, hcodes, decodeLoop_codesOf hfree hout hcap.le, decodeLoop_code hfree hmem hne]
      exact if_pos hcap
    exact ⟨_, exec_failData (needTable_of_valid hvalid) hfit (decodeBody_error_of_loop hloop),
      State.failData_err _ _ _⟩

end Sys2Proof.Machine

/-! PROOF. What a step can do, agent by agent; what a host step and a command leave unchanged (30_encoding.md R106); and
the invariant of MEM (20_memory.md R80, R85). -/

namespace Sys2Proof.Machine

/-! ## The inversion lemmas of a step -/

/-- A step is Execute of the latched word, a host step, or nothing. -/
theorem step_cases {s t : State} (h : step s = .next t) :
    (∃ v, nextAgent s = .engine v ∧ execute v s = .next t) ∨
    (∃ x rest, nextAgent s = .host x rest ∧
      hostStep { s with host := rest, delay := s.delay - 1 } x = .next t) ∨
    (nextAgent s = .idle ∧ t = s) := by
  cases hagent : nextAgent s with
  | engine v => exact .inl ⟨v, rfl, (step_engine hagent).symm.trans h⟩
  | host x rest => exact .inr (.inl ⟨x, rest, rfl, (step_host hagent).symm.trans h⟩)
  | idle =>
    rw [step_idle hagent] at h
    cases h
    exact .inr (.inr ⟨rfl, rfl⟩)

/-- What a host step that does not fault did. -/
inductive HostEffect (s : State) : HostStep → State → Prop where
  /-- A read, or a `wait`, is recorded; only the host's side and the draw counter moved. -/
  | read {x : HostStep} (o : Observation) (d : Nat) (rest : List HostStep) :
      HostEffect s x { s with recorded := o :: s.recorded, draws := d, host := rest }
  /-- A register is written. -/
  | regWrite {x : HostStep} (r : Reg) (v : Word) : HostEffect s x (writeReg s r v)
  /-- A byte that exists is written. -/
  | memWrite (a : Nat) (v : Byte) (ha : a < s.memSize) :
      HostEffect s (.memWr a v) { s with mem := Memory.write s.mem a v }
  /-- The block is reset. -/
  | reset : HostEffect s .reset s.resetSignal

/-- A recorded register read, whatever it leaves on the host's list. -/
theorem HostEffect.of_recordReg (s : State) (x : HostStep) (off : Nat) (r : Reg) (rest : List HostStep) :
    HostEffect s x { s.recordReg off r with host := rest } := by
  obtain ⟨v, d, hrec⟩ := s.recordReg_eq off r
  rw [hrec]
  exact .read (.reg off v) d rest

/-- The inversion lemma of hostStep. -/
theorem hostStep_effect {s t : State} {x : HostStep} (h : hostStep s x = .next t) : HostEffect s x t := by
  cases x with
  | rd off size =>
    rw [hostStep] at h
    split_ifs at h
    cases h
    exact .of_recordReg s _ off _ _
  | rdReg r =>
    cases h
    exact .of_recordReg s _ _ r _
  | wr off size v =>
    rw [hostStep] at h
    split_ifs at h
    cases h
    exact .regWrite _ v
  | memRd a =>
    rw [hostStep] at h
    split_ifs at h
    cases h
    exact .read _ s.draws s.host
  | memWr a v =>
    rw [hostStep] at h
    split_ifs at h with hout
    cases h
    exact .memWrite a v (not_le.1 hout)
  | wait =>
    rw [hostStep] at h
    cases h
    split_ifs
    · exact .of_recordReg s _ _ _ _
    · exact .of_recordReg s _ _ _ _
  | reset =>
    cases h
    exact .reset

/-! ## What a host step other than reset leaves unchanged -/

/-- The tree, the code table, their valid bits and the result registers are as before (10_state.md R24, R31, R55,
R60). -/
structure SameResults (s t : State) : Prop where
  tree : t.tree = s.tree
  treeValid : t.treeValid = s.treeValid
  table : t.table = s.table
  tableValid : t.tableValid = s.tableValid
  err : t.err = s.err
  outLen : t.outLen = s.outLen

/-- Only reset among the host's steps changes the tree, the table or the result registers. -/
theorem HostEffect.reset_or_same {s t : State} {x : HostStep} (h : HostEffect s x t) :
    (x = .reset ∧ t = s.resetSignal) ∨ SameResults s t := by
  cases h with
  | read => exact .inr ⟨rfl, rfl, rfl, rfl, rfl, rfl⟩
  | regWrite r v =>
    obtain ⟨htree, htable, htreeV, htableV, -, -, -, herr, hout, -⟩ := writeReg_frame s r v
    exact .inr ⟨htree, htreeV, htable, htableV, herr, hout⟩
  | memWrite => exact .inr ⟨rfl, rfl, rfl, rfl, rfl, rfl⟩
  | reset => exact .inl ⟨rfl, rfl⟩

/-- No host step changes MEM_SIZE or the upper register map (00_scope.md R4; log 9). -/
theorem HostEffect.launch {s t : State} {x : HostStep} (h : HostEffect s x t) :
    t.memSize = s.memSize ∧ t.highMap = s.highMap := by
  cases h with
  | read => exact ⟨rfl, rfl⟩
  | regWrite r v =>
    obtain ⟨-, -, -, -, -, hsize, hmap, -⟩ := writeReg_frame s r v
    exact ⟨hsize, hmap⟩
  | memWrite => exact ⟨rfl, rfl⟩
  | reset =>
    rw [State.resetSignal_eq]
    exact ⟨rfl, rfl⟩

/-! ## What a command leaves unchanged -/

/-- What the Body of each command publishes, with its OUT_LEN, when it raises no error. -/
inductive Published (s : State) : Instr → State → Word → Prop where
  | nop : Published s .nop s 0
  | clear : Published s .clear { s with freq := Vector.replicate 256 0, tree := .cleared, table := .cleared,
                                        treeValid := false, tableValid := false } 0
  | count : Published s .count { s with freq := countSymbols s.srcBytes } 0
  | build (hne : 0 < freqN s.freq) (hsum : freqSum s.freq ≤ 2 ^ 32 - 1) :
      Published s .build { s with tree := buildTree s.freq, treeValid := true } 0
  | derive : Published s .derive { s with table := tableOf (derivedEntries s.tree), tableValid := true } 0
  | encode (bits : Bits) (h : encodeLoop s.table s.dstCap.toNat [] s.srcBytes = .ok bits) :
      Published s .encode { s with mem := s.writeDst (packedBytes bits), bitLen := BitVec.ofNat 32 bits.length }
        (BitVec.ofNat 32 (ceil8 bits.length))
  | decode (buf : Bits) (out : Text)
      (h : decodeLoop (codeEntries s.table) s.dstCap.toNat [] [] s.srcBits = .ok (buf, out)) :
      Published s .decode { s with mem := s.writeDst out } (BitVec.ofNat 32 out.length)
  | serialize (hfit : (artifact s.table s.srcBits).length ≤ s.dstCap.toNat) :
      Published s .serialize { s with mem := s.writeDst (artifact s.table s.srcBits) }
        (BitVec.ofNat 32 (artifact s.table s.srcBits).length)
  | parse (E : List (Byte × Bits)) (payload : Text) (bits : Bits)
      (htable : parseTable (s.srcBytes.length + 1) s.srcBytes [] = .ok (E, payload)) (hne : E ≠ [])
      (hpayload : parsePayload s.dstCap.toNat [] payload = .ok bits) :
      Published s .parse { s with mem := s.writeDst (packedBytes bits), table := tableOf E, tableValid := true,
                                  bitLen := BitVec.ofNat 32 bits.length } (BitVec.ofNat 32 (ceil8 bits.length))

/-- The inversion lemma of the Bodies. -/
theorem bodyOf_published {i : Instr} {s u : State} {n : Word} (h : bodyOf i s = .ok (u, n)) : Published s i u n := by
  cases i with
  | nop =>
    cases h
    exact .nop
  | clear =>
    cases h
    exact .clear
  | count =>
    cases h
    exact .count
  | build =>
    rw [bodyOf, buildBody, alphabet_length] at h
    split_ifs at h with hzero hsum
    cases h
    exact .build (Nat.pos_of_ne_zero hzero) (not_lt.1 hsum)
  | derive =>
    cases h
    exact .derive
  | encode =>
    rw [bodyOf, encodeBody] at h
    split at h
    next => cases h
    next bits hloop =>
      cases h
      exact .encode bits hloop
  | decode =>
    rw [bodyOf, decodeBody] at h
    split at h
    next => cases h
    next buf out hloop =>
      split_ifs at h
      cases h
      exact .decode buf out hloop
  | serialize =>
    simp only [bodyOf, serializeBody] at h
    split_ifs at h with hlong
    cases h
    exact .serialize (not_lt.1 hlong)
  | parse =>
    simp only [bodyOf, parseBody] at h
    split at h
    next => cases h
    next E payload htable =>
      split_ifs at h with hne
      split at h
      next => cases h
      next bits hpayload =>
        cases h
        exact .parse E payload bits htable hne hpayload

/-- Each store a Body publishes is the one it was given, unless the command's writes column names it (30_encoding.md
R106). -/
theorem Published.column {i : Instr} {s u : State} {n : Word} (h : Published s i u n) :
    (i ∉ [Instr.clear, .count] → u.freq = s.freq) ∧
    (i ∉ [Instr.clear, .build] → u.tree = s.tree ∧ u.treeValid = s.treeValid) ∧
    (i ∉ [Instr.clear, .derive, .parse] → u.table = s.table ∧ u.tableValid = s.tableValid) ∧
    (i ∉ [Instr.encode, .parse] → u.bitLen = s.bitLen) ∧
    (i ∉ [Instr.encode, .decode, .serialize, .parse] → u.mem = s.mem) := by
  cases h <;> simp

/-- A command without a destination window leaves MEM when it fails (40_control.md R134). -/
theorem failData_mem_of_no_window {i : Instr} (s : State) (e : Err)
    (hi : i ∉ [Instr.encode, .decode, .serialize, .parse]) : (s.failData e (dstWindow s i)).mem = s.mem := by
  cases i with
  | nop | clear | count | build | derive => rfl
  | encode | decode | serialize | parse => simp at hi

/-- Settles O11: a failure commit has FailureCommit's frame, and a success commit that of what the Body publishes. -/
theorem commandsWriteTheirColumnOnly : Obligations.CommandsWriteTheirColumnOnly := by
  intro s t i h
  rcases exec_cases h with ⟨e, -, rfl⟩ | ⟨-, -, rfl⟩ | ⟨-, -, e, -, rfl⟩ | ⟨-, -, u, n, hbody, rfl⟩
  · simp [SameControl, SameHostSide]
  · simp [SameControl, SameHostSide]
  · obtain ⟨-, -, -, ⟨hfreq, htree, htable, htreeV, htableV, hbits⟩, hcontrol, hhost⟩ :=
      s.failData_frame e (dstWindow s i)
    exact ⟨hcontrol, hhost, fun _ => hfreq, fun _ => ⟨htree, htreeV⟩, fun _ => ⟨htable, htableV⟩, fun _ => hbits,
      failData_mem_of_no_window s e⟩
  · obtain ⟨hlegacy, hirq, hover, hsa, hsl, hda, hdc, hhost, hrec, hsize, hmap, -⟩ := bodyOf_frame hbody
    exact ⟨⟨hlegacy, hirq, hover, hsa, hsl, hda, hdc⟩, ⟨hhost, hrec, hsize, hmap⟩, (bodyOf_published hbody).column⟩

/-! ## The bytes a command writes -/

/-- The bytes that a command may write at DST_ADDR: none, or a run that fits its destination window. -/
def FitsDst (s : State) (i : Instr) (bytes : Text) : Prop :=
  bytes = [] ∨ (dstWindow s i = some s.dstBytesWindow ∧ bytes.length ≤ s.dstCap.toNat)

/-- A Body publishes MEM with one run of bytes at DST_ADDR, inside its destination window (20_memory.md R85). -/
theorem Published.mem_eq_writeDst {i : Instr} {s u : State} {n : Word} (h : Published s i u n) :
    ∃ bytes, u.mem = s.writeDst bytes ∧ FitsDst s i bytes := by
  cases h with
  | nop | clear | count | build | derive => exact ⟨[], rfl, .inl rfl⟩
  | encode bits hloop =>
    refine ⟨packedBytes bits, rfl, ?_⟩
    obtain ⟨hbits, hempty | ⟨-, hfit⟩⟩ := encodeLoop_ok hloop
    · rw [hempty, List.flatMap_nil, List.append_nil] at hbits
      subst hbits
      exact .inl rfl
    · exact .inr ⟨rfl, (packedBytes_length bits).trans_le hfit⟩
  | decode buf out hloop => exact ⟨out, rfl, .inr ⟨rfl, decodeLoop_ok (Nat.zero_le _) hloop⟩⟩
  | serialize hfit => exact ⟨_, rfl, .inr ⟨rfl, hfit⟩⟩
  | parse E payload bits _ _ hpayload =>
    refine ⟨packedBytes bits, rfl, ?_⟩
    obtain ⟨hbits, -, hempty | hfit⟩ := parsePayload_ok hpayload
    · rw [hempty] at hbits
      subst hbits
      exact .inl rfl
    · exact .inr ⟨rfl, (packedBytes_length bits).trans_le hfit⟩

/-- A run of bytes inside a valid destination window ends at or before MEM_SIZE (20_memory.md R82). -/
theorem FitsDst.inside {s : State} {i : Instr} {bytes : Text} (h : FitsDst s i bytes)
    (hvalid : ∀ w ∈ dstWindow s i, w.Valid s.memSize) : bytes = [] ∨ s.dstAddr.toNat + bytes.length ≤ s.memSize := by
  rcases h with h | ⟨hw, hlen⟩
  · exact .inl h
  · rcases hvalid _ hw with hzero | hend
    · exact .inl (List.length_eq_zero_iff.1 (Nat.le_zero.1 (hlen.trans_eq hzero)))
    · exact .inr ((Nat.add_le_add_left hlen _).trans hend)

/-- What a command does to MEM: nothing, free draws in its destination window, or one run of bytes inside it
(20_memory.md R85). -/
theorem exec_mem {i : Instr} {s t : State} (h : exec i s = .next t) :
    t.mem = s.mem ∨ t.mem = (s.scramble (dstWindow s i)).mem ∨
    ∃ bytes, t.mem = s.writeDst bytes ∧ FitsDst s i bytes ∧ ∀ w ∈ dstWindow s i, w.Valid s.memSize := by
  rcases exec_cases h with ⟨e, -, rfl⟩ | ⟨-, -, rfl⟩ | ⟨-, -, e, -, rfl⟩ | ⟨-, hwin, u, n, hbody, rfl⟩
  · exact .inl rfl
  · exact .inl rfl
  · exact .inr (.inl rfl)
  · obtain ⟨bytes, hmem, hfits⟩ := (bodyOf_published hbody).mem_eq_writeDst
    obtain ⟨-, hvalid, -⟩ := checkWindows_eq_none.1 hwin
    exact .inr (.inr ⟨bytes, hmem, hfits, hvalid⟩)

/-- A command keeps the canonical form of MEM (20_memory.md R80). -/
theorem exec_wf {i : Instr} {s t : State} (hm : Memory.wf s.mem) (h : exec i s = .next t) : Memory.wf t.mem := by
  rcases exec_mem h with hmem | hmem | ⟨bytes, hmem, -⟩ <;> rw [hmem]
  · exact hm
  · exact State.scramble_wf hm _
  · exact Memory.writeBytes_wf hm _ _

/-- A command lists no address at MEM_SIZE or above (20_memory.md R80). -/
theorem exec_inRange {i : Instr} {s t : State} (hm : ∀ c ∈ s.mem, c.1 < s.memSize) (h : exec i s = .next t) :
    ∀ c ∈ t.mem, c.1 < s.memSize := by
  rcases exec_mem h with hmem | hmem | ⟨bytes, hmem, hfits, hvalid⟩ <;> rw [hmem]
  · exact hm
  · exact State.scramble_inRange hm _
  · exact Memory.writeBytes_inRange hm (hfits.inside hvalid)

theorem exec_launch {i : Instr} {s t : State} (h : exec i s = .next t) :
    t.memSize = s.memSize ∧ t.highMap = s.highMap := by
  obtain ⟨-, ⟨-, -, hsize, hmap⟩, -⟩ := commandsWriteTheirColumnOnly s t i h
  exact ⟨hsize, hmap⟩

/-- A command word is illegal and fails, or runs its command (40_control.md R132, R138). -/
theorem execute_cases {v : Word} {s t : State} (h : execute v s = .next t) :
    (∃ i, decode v = .ok i ∧ exec i s = .next t) ∨ t = s.fail .illegalCommand := by
  cases hd : decode v with
  | error e =>
    rw [execute_of_error hd] at h
    cases h
    exact .inr rfl
  | ok i => exact .inl ⟨i, rfl, (execute_of_ok hd s).symm.trans h⟩

/-! ## MEM after a step -/

theorem HostEffect.mem_ok {s t : State} {x : HostStep} (h : HostEffect s x t) (hm : Memory.wf s.mem)
    (hr : ∀ c ∈ s.mem, c.1 < s.memSize) : Memory.wf t.mem ∧ ∀ c ∈ t.mem, c.1 < s.memSize := by
  cases h with
  | read => exact ⟨hm, hr⟩
  | regWrite r v =>
    obtain ⟨-, -, -, -, hmem, -⟩ := writeReg_frame s r v
    rw [hmem]
    exact ⟨hm, hr⟩
  | memWrite a v ha => exact ⟨Memory.write_wf hm a v, Memory.write_inRange hr ha⟩
  | reset =>
    rw [State.resetSignal_eq]
    exact ⟨State.scramble_wf hm _, State.scramble_inRange hr _⟩

/-- Settles O52: a command writes inside a valid window, a host write has an address that exists, and free draws are
clipped to MEM_SIZE. -/
theorem stepKeepsMemory : Obligations.StepKeepsMemory := by
  rintro s t ⟨hm, hr, hpos, hmax⟩ h
  have hclose (hmem : Memory.wf t.mem ∧ ∀ c ∈ t.mem, c.1 < s.memSize)
      (hlaunch : t.memSize = s.memSize ∧ t.highMap = s.highMap) :
      MemOk t ∧ t.memSize = s.memSize ∧ t.highMap = s.highMap := by
    rw [MemOk, hlaunch.1]
    exact ⟨⟨hmem.1, hmem.2, hpos, hmax⟩, rfl, hlaunch.2⟩
  rcases step_cases h with ⟨v, -, hexec⟩ | ⟨x, rest, -, hstep⟩ | ⟨-, rfl⟩
  · rcases execute_cases hexec with ⟨i, -, hi⟩ | rfl
    · exact hclose ⟨exec_wf hm hi, exec_inRange hr hi⟩ (exec_launch hi)
    · exact hclose ⟨hm, hr⟩ ⟨rfl, rfl⟩
  · have heffect := hostStep_effect hstep
    exact hclose (heffect.mem_ok hm hr) heffect.launch
  · exact hclose ⟨hm, hr⟩ ⟨rfl, rfl⟩

end Sys2Proof.Machine

/-! PROOF. Who may write what, step by step (10_state.md R24, R31, R55, R60), which steps can fault (00_scope.md R7),
and BUSY, DONE and the delay (40_control.md R130, 70_reset_and_hazards.md R324). -/

namespace Sys2Proof.Machine

/-! ## The stores and the result registers -/

/-- A step that is not the engine's and not reset keeps the tree, the table and the result registers. -/
theorem step_engine_or_reset_or_same {s t : State} (h : step s = .next t) :
    (∃ v, nextAgent s = .engine v ∧ execute v s = .next t) ∨
    ((∃ rest, nextAgent s = .host .reset rest) ∧ ∃ u : State, t = u.resetSignal) ∨ SameResults s t := by
  rcases step_cases h with hengine | ⟨x, rest, hagent, hstep⟩ | ⟨-, rfl⟩
  · exact .inl hengine
  · rcases (hostStep_effect hstep).reset_or_same with ⟨rfl, ht⟩ | ⟨htree, htreeV, htable, htableV, herr, hout⟩
    · exact .inr (.inl ⟨⟨rest, hagent⟩, _, ht⟩)
    · exact .inr (.inr ⟨htree, htreeV, htable, htableV, herr, hout⟩)
  · exact .inr (.inr ⟨rfl, rfl, rfl, rfl, rfl, rfl⟩)

/-- Settles O31: of the commands only BUILD and CLEAR have the tree in their writes column. -/
theorem onlyBuildClearResetChangeTree : Obligations.OnlyBuildClearResetChangeTree := by
  intro s t h hne
  rcases step_engine_or_reset_or_same h with ⟨v, hagent, hexec⟩ | ⟨hreset, -⟩ | hsame
  · rcases execute_cases hexec with ⟨i, hd, hi⟩ | rfl
    · obtain ⟨-, -, -, htree, -⟩ := commandsWriteTheirColumnOnly s t i hi
      refine .inl ⟨v, i, hagent, hd, ?_⟩
      by_contra hother
      exact hne (htree (by simp only [List.mem_cons, List.not_mem_nil, or_false]; tauto)).1
    · exact absurd rfl hne
  · exact .inr hreset
  · exact absurd hsame.tree hne

/-- Settles O32: of the commands only DERIVE, PARSE and CLEAR have the code table in their writes column. -/
theorem onlyDeriveParseClearResetChangeTable : Obligations.OnlyDeriveParseClearResetChangeTable := by
  intro s t h hne
  rcases step_engine_or_reset_or_same h with ⟨v, hagent, hexec⟩ | ⟨hreset, -⟩ | hsame
  · rcases execute_cases hexec with ⟨i, hd, hi⟩ | rfl
    · obtain ⟨-, -, -, -, htable, -⟩ := commandsWriteTheirColumnOnly s t i hi
      refine .inl ⟨v, i, hagent, hd, ?_⟩
      by_contra hother
      exact hne (htable (by simp only [List.mem_cons, List.not_mem_nil, or_false]; tauto)).1
    · exact absurd rfl hne
  · exact .inr hreset
  · exact absurd hsame.table hne

/-- Settles O33: an engine step ends in a commit, and no host step but reset writes ERR or OUT_LEN. -/
theorem onlyCommitOrResetChangesResult : Obligations.OnlyCommitOrResetChangesResult := by
  intro s t h hne
  rcases step_engine_or_reset_or_same h with ⟨v, hagent, hexec⟩ | ⟨hreset, -⟩ | hsame
  · obtain ⟨u, e, n, rfl, -⟩ := execute_commits hexec
    exact .inl ⟨v, hagent, u.commit_done e n, u.commit_latched e n⟩
  · exact .inr hreset
  · exact absurd hne (not_or.2 ⟨not_not.2 hsame.err, not_not.2 hsame.outLen⟩)

/-! ## Faults -/

/-- Every command word completes (40_control.md R132). -/
theorem execute_next (v : Word) (s : State) : ∃ t, execute v s = .next t := by
  cases hd : decode v with
  | ok i =>
    rw [execute_of_ok hd]
    exact exec_next i s
  | error e => exact ⟨_, execute_of_error hd s⟩

/-- No host step is refused (00_scope.md R7). -/
theorem hostStep_ne_refused (s : State) (x : HostStep) (r : Refusal) : hostStep s x ≠ .refused r := by
  cases x with
  | rdReg | wait | reset => nofun
  | rd | wr | memRd | memWr =>
    rw [hostStep]
    split_ifs <;> nofun

/-- Settles O42: a command completes, and of the host's steps wait, reset and a read by name do too. -/
theorem onlyHostAccessesFault : Obligations.OnlyHostAccessesFault := by
  intro s
  cases hagent : nextAgent s with
  | engine v =>
    obtain ⟨t, ht⟩ := execute_next v s
    rw [step_engine hagent, ht]
    exact ⟨nofun, nofun⟩
  | host x rest =>
    rw [step_host hagent]
    refine ⟨hostStep_ne_refused _ x, fun f hf => ⟨x, rest, rfl, ?_, ?_, ?_⟩⟩
    · rintro rfl
      cases hf
    · rintro rfl
      cases hf
    · rintro r rfl
      cases hf
  | idle =>
    rw [step_idle hagent]
    exact ⟨nofun, nofun⟩

/-! ## BUSY, DONE and the delay -/

/-- A write of any register while BUSY = 1 leaves the latched word and the delay (10_state.md R39). -/
theorem writeReg_latched_of_busy {s : State} (hb : s.busy = true) (r : Reg) (v : Word) :
    (writeReg s r v).latched = s.latched ∧ (writeReg s r v).delay = s.delay := by
  cases r with
  | cmd | ctrl | srcAddr | srcLen | dstAddr | dstCap | bitLen | freq =>
    rw [writeReg_of_busy hb rfl]
    exact ⟨rfl, rfl⟩
  | _ => exact ⟨rfl, rfl⟩

/-- A write of a register other than CMD while BUSY = 0 issues no command. -/
theorem writeReg_latched_of_idle {s : State} (hb : s.busy = false) {r : Reg} (hr : r ≠ .cmd) (v : Word) :
    (writeReg s r v).latched = s.latched ∧ (writeReg s r v).delay = s.delay := by
  cases r with
  | cmd => exact absurd rfl hr
  | ctrl | srcAddr | srcLen | dstAddr | dstCap | bitLen | freq =>
    rw [writeReg, State.guardedWrite_of_idle hb]
    exact ⟨rfl, rfl⟩
  | _ => exact ⟨rfl, rfl⟩

/-- A host step other than reset keeps a command in flight and its delay (70_reset_and_hazards.md R333). -/
theorem HostEffect.latched_of_busy {s t : State} {x : HostStep} (h : HostEffect s x t) (hb : s.busy = true) :
    (t.latched = s.latched ∧ t.delay = s.delay) ∨ (x = .reset ∧ t.latched = none) := by
  cases h with
  | read => exact .inl ⟨rfl, rfl⟩
  | regWrite r v => exact .inl (writeReg_latched_of_busy hb r v)
  | memWrite => exact .inl ⟨rfl, rfl⟩
  | reset => exact .inr ⟨rfl, rfl⟩

/-- Settles O56: a host step comes before the engine's only while the delay is not over, takes one off it, and keeps the
latched word unless it is reset. -/
theorem engineStepNotDisabled : Obligations.EngineStepNotDisabled := by
  intro s v hv
  have hb : s.busy = true := by rw [State.busy_eq_isSome, hv]; rfl
  rcases nextAgent_cases s with ⟨w, hagent, hw, -⟩ | ⟨x, rest, hagent, -, hwait⟩ | ⟨-, hidle, -⟩
  · exact .inl (Option.some.inj (hw.symm.trans hv) ▸ hagent)
  · refine .inr ⟨x, rest, hagent, Nat.pos_of_ne_zero (hwait.resolve_left (by simp [hv])), fun t ht => ?_⟩
    rw [step_host hagent] at ht
    rcases (hostStep_effect ht).latched_of_busy hb with ⟨hlatched, hdelay⟩ | hreset
    · exact .inl ⟨hlatched.trans hv, hdelay⟩
    · exact .inr hreset
  · cases hidle.symm.trans hv

/-- DONE and the delay after a host step, when the invariant holds before it. -/
theorem HostEffect.busyOk {s t : State} {x : HostStep} (h : HostEffect s x t) (hs : BusyOk s) : BusyOk t := by
  cases h with
  | read => exact hs
  | memWrite => exact hs
  | reset => exact ⟨nofun, fun _ => rfl⟩
  | regWrite r v =>
    obtain ⟨hdone, hdelay⟩ := hs
    cases hb : s.busy with
    | true =>
      obtain ⟨hlatched, -⟩ := writeReg_latched_of_busy hb r v
      have hbusy : (writeReg s r v).busy = true := by
        rw [State.busy_eq_isSome, hlatched]
        exact hb
      exact ⟨fun _ => writeReg_done (hdone hb) r v, fun h => absurd (hbusy.symm.trans h) nofun⟩
    | false =>
      by_cases hr : r = .cmd
      · subst hr
        rw [writeReg, State.guardedWrite_of_idle hb]
        exact ⟨fun _ => rfl, nofun⟩
      · obtain ⟨hlatched, hdelay'⟩ := writeReg_latched_of_idle hb hr v
        have hbusy : (writeReg s r v).busy = false := by
          rw [State.busy_eq_isSome, hlatched]
          exact hb
        exact ⟨fun h => absurd (hbusy.symm.trans h) nofun, fun _ => hdelay'.trans (hdelay hb)⟩

/-- Settles O55: a commit ends BUSY and the delay, and a host step meets the invariant again. -/
theorem stepKeepsBusyDone : Obligations.StepKeepsBusyDone := by
  intro s t hs h
  rcases step_cases h with ⟨v, -, hexec⟩ | ⟨x, rest, -, hstep⟩ | ⟨-, rfl⟩
  · obtain ⟨u, e, n, rfl, -⟩ := execute_commits hexec
    exact ⟨nofun, fun _ => rfl⟩
  · obtain ⟨hdone, hdelay⟩ := hs
    refine (hostStep_effect hstep).busyOk ⟨hdone, fun hb => ?_⟩
    exact congrArg (· - 1) (hdelay hb)
  · exact hs

/-- Settles O5: a due engine step is Execute of the latched word, and a command word decodes to its command. -/
theorem stepRunsDecodedCommand : Obligations.StepRunsDecodedCommand := by
  refine ⟨fun s v i hv hd hdue => (step_eq_execute hv hdue).trans (execute_of_ok hd s), fun s i => ?_⟩
  have hword : BitVec.ofNat 32 ((encode i).toNat % 2 ^ 32) = encode i := by
    rw [Nat.mod_eq_of_lt (encode i).isLt, BitVec.ofNat_toNat, BitVec.setWidth_eq]
  rw [step_engine (nextAgent_withFetchWord s 32 _), hword, State.withFetchWord, hword]
  exact execute_of_ok (by cases i <;> decide) _

/-! ## Reset -/

/-- MEM_SIZE at power-on is one that 00_scope.md R4 admits. -/
theorem memSize_bounds : 1 ≤ Config.memSize ∧ Config.memSize ≤ 2 ^ 32 := by
  have hlt := Config.memSizePred.isLt
  rw [Config.memSize]
  omega

theorem noStrayBits_cleared : NoStrayBits CodeTable.cleared := by
  simp [NoStrayBits]

/-- Settles O51: the memory, the tree and the table are empty, and no command is in flight. -/
theorem resetMeetsInvariants : Obligations.ResetMeetsInvariants := by
  refine ⟨⟨Memory.reset_wf, nofun, memSize_bounds⟩, ⟨nofun, fun _ => rfl⟩, ⟨noStrayBits_cleared, nofun, fun _ => rfl⟩,
    nofun, fun _ => rfl⟩

end Sys2Proof.Machine

/-! PROOF. MEM through the windows only (20_memory.md R85): a Body reads MEM as its source bytes or its source bits, and
what it publishes of MEM is one run of bytes written at DST_ADDR. -/

namespace Sys2Proof.Machine

/-! ## What two memories that agree on the source window give -/

section
variable {s : State} {m : Memory}

/-- The source bytes depend on the bytes of their window (20_memory.md R82). -/
theorem State.srcBytes_congr (h : ∀ a, s.srcBytesWindow.Contains a → Memory.read m a = Memory.read s.mem a) :
    State.srcBytes { s with mem := m } = s.srcBytes := by
  rw [State.srcBytes_eq_input, State.srcBytes_eq_input, State.input, State.input, bytesAt, bytesAt]
  refine List.map_congr_left fun i hi => h _ ?_
  have hlt : i < s.srcLen.toNat := List.mem_range.1 hi
  exact ⟨Nat.le_add_right _ _, Nat.add_lt_add_left hlt _⟩

/-- The source bits depend on the bytes of their window (20_memory.md R82, R86). -/
theorem State.srcBits_congr (h : ∀ a, s.srcBitsWindow.Contains a → Memory.read m a = Memory.read s.mem a) :
    State.srcBits { s with mem := m } = s.srcBits := by
  rw [State.srcBits, State.srcBits, payloadBits, payloadBits]
  refine List.map_congr_left fun i hi => ?_
  have hlt : i < s.bitLen.toNat := List.mem_range.1 hi
  have hceil := ceil8_mul_le s.bitLen.toNat
  have hbyte : i / 8 < ceil8 s.bitLen.toNat := by omega
  exact congrArg (BitVec.getLsbD · (7 - i % 8)) (h _ ⟨Nat.le_add_right _ _, Nat.add_lt_add_left hbyte _⟩)

/-- Two data phases with one result: the same error, or the same registers and the same run of bytes written at
DST_ADDR. -/
inductive SameData (s : State) (m : Memory) : Except Err (State × Word) → Except Err (State × Word) → Prop where
  | error (e : Err) : SameData s m (.error e) (.error e)
  | ok (u : State) (n : Word) (bytes : Text) (hmem : u.mem = s.writeDst bytes) :
      SameData s m (.ok (u, n)) (.ok ({ u with mem := Memory.writeBytes m s.dstAddr.toNat bytes }, n))

/-- A Body reads MEM in its source window only (20_memory.md R85). -/
theorem bodyOf_sameData {i : Instr}
    (h : ∀ w, srcWindow s i = some w → ∀ a, w.Contains a → Memory.read m a = Memory.read s.mem a) :
    SameData s m (bodyOf i s) (bodyOf i { s with mem := m }) := by
  cases i with
  | nop | clear | derive => exact .ok _ _ [] rfl
  | count =>
    rw [bodyOf, countBody, countBody, State.srcBytes_congr (h _ rfl)]
    exact .ok _ _ [] rfl
  | build =>
    rw [bodyOf, buildBody, buildBody]
    dsimp only
    split_ifs
    · exact .error _
    · exact .error _
    · exact .ok _ _ [] rfl
  | encode =>
    rw [bodyOf, encodeBody, encodeBody, State.srcBytes_congr (h _ rfl)]
    cases encodeLoop s.table s.dstCap.toNat [] s.srcBytes with
    | error e => exact .error e
    | ok bits => exact .ok _ _ (packedBytes bits) rfl
  | decode =>
    rw [bodyOf, decodeBody, decodeBody, State.srcBits_congr (h _ rfl)]
    cases decodeLoop (codeEntries s.table) s.dstCap.toNat [] [] s.srcBits with
    | error e => exact .error e
    | ok r =>
      dsimp only
      split_ifs
      · exact .error _
      · exact .ok _ _ r.2 rfl
  | serialize =>
    simp only [bodyOf, serializeBody, State.srcBits_congr (h _ rfl)]
    split_ifs
    · exact .error _
    · exact .ok _ _ (artifact s.table s.srcBits) rfl
  | parse =>
    simp only [bodyOf, parseBody, State.srcBytes_congr (h _ rfl)]
    cases parseTable (s.srcBytes.length + 1) s.srcBytes [] with
    | error e => exact .error e
    | ok r =>
      dsimp only
      split_ifs
      · exact .error _
      · cases parsePayload s.dstCap.toNat [] r.2 with
        | error e => exact .error e
        | ok bits => exact .ok _ _ (packedBytes bits) rfl

/-- The prechecks and the windows read no MEM. -/
theorem exec_with_mem (i : Instr) (s : State) (m : Memory) :
    exec i { s with mem := m } =
      runCommand { s with mem := m } (precheckOf s i) (srcWindow s i) (dstWindow s i) (bodyOf i) := by
  cases i <;> rfl
end

/-! ## Two memories after the same writes -/

/-- Each byte of MEM ends up equal in both runs, or is left alone in both. -/
def BytesAlike (m₁ m₁' m₂ m₂' : Memory) : Prop :=
  ∀ a, Memory.read m₂' a = Memory.read m₁' a ∨
    (Memory.read m₁' a = Memory.read m₁ a ∧ Memory.read m₂' a = Memory.read m₂ a)

theorem bytesAlike_unchanged (m₁ m₂ : Memory) : BytesAlike m₁ m₁ m₂ m₂ := fun _ => .inr ⟨rfl, rfl⟩

theorem bytesAlike_writeBytes {m₁ m₂ : Memory} (h₁ : Memory.wf m₁) (h₂ : Memory.wf m₂) (p : Nat) (bytes : Text) :
    BytesAlike m₁ (Memory.writeBytes m₁ p bytes) m₂ (Memory.writeBytes m₂ p bytes) := by
  intro a
  rw [Memory.read_writeBytes h₁, Memory.read_writeBytes h₂]
  split_ifs
  · exact .inl rfl
  · exact .inr ⟨rfl, rfl⟩

/-- The free draws of a window depend on the draw counter and the address alone (log 18, log 5). -/
theorem bytesAlike_scramble {s : State} {m : Memory} (hs : Memory.wf s.mem) (hm : Memory.wf m) (w : Option Window) :
    BytesAlike s.mem (s.scramble w).mem m (State.scramble { s with mem := m } w).mem := by
  cases w with
  | none => exact bytesAlike_unchanged _ _
  | some w => exact bytesAlike_writeBytes hs hm _ _

theorem State.failData_with_mem (s : State) (m : Memory) (e : Err) (w : Option Window) :
    State.failData { s with mem := m } e w =
      { s.failData e w with mem := (State.scramble { s with mem := m } w).mem } := by
  cases w <;> rfl

/-! ## The obligation -/

/-- A command writes MEM in its destination window only (20_memory.md R85). -/
theorem exec_read_outside {i : Instr} {s t : State} (h : exec i s = .next t) {a : Nat}
    (ha : ∀ w, dstWindow s i = some w → ¬ w.Contains a) : Memory.read t.mem a = Memory.read s.mem a := by
  rcases exec_mem h with hmem | hmem | ⟨bytes, hmem, hfits, -⟩ <;> rw [hmem]
  · exact s.scramble_read ha
  · refine Memory.read_writeBytes_other _ _ _ fun hin => ?_
    rcases hfits with rfl | ⟨hw, hlen⟩
    · simp at hin
      omega
    · exact ha _ hw ⟨hin.1, hin.2.trans_le (Nat.add_le_add_left hlen _)⟩

/-- With another memory that agrees on the source window a command ends in the same registers, and writes the same
bytes (20_memory.md R85). -/
theorem exec_sameData {i : Instr} {s t : State} {m : Memory}
    (hsrc : ∀ w, srcWindow s i = some w → ∀ a, w.Contains a → Memory.read m a = Memory.read s.mem a)
    (h : exec i s = .next t) : ∃ m', exec i { s with mem := m } = .next { t with mem := m' } ∧
      (Memory.wf s.mem → Memory.wf m → BytesAlike s.mem t.mem m m') := by
  rw [exec_with_mem]
  rcases exec_cases h with ⟨e, hpre, rfl⟩ | ⟨hpre, hwin, rfl⟩ | ⟨hpre, hwin, e, hbody, rfl⟩ |
    ⟨hpre, hwin, u, n, hbody, rfl⟩ <;> rw [hpre]
  · exact ⟨m, rfl, fun _ _ => bytesAlike_unchanged _ _⟩
  · exact ⟨m, runCommand_windows (s := { s with mem := m }) hwin _, fun _ _ => bytesAlike_unchanged _ _⟩
  · have hdata := bodyOf_sameData hsrc
    rw [hbody] at hdata
    generalize hbody' : bodyOf i { s with mem := m } = r at hdata
    cases hdata
    refine ⟨_, (runCommand_error (s := { s with mem := m }) hwin hbody').trans ?_,
      fun hs hm => bytesAlike_scramble hs hm (dstWindow s i)⟩
    rw [State.failData_with_mem]
  · have hdata := bodyOf_sameData hsrc
    rw [hbody] at hdata
    generalize hbody' : bodyOf i { s with mem := m } = r at hdata
    cases hdata with
    | ok _ _ bytes hmem =>
      refine ⟨Memory.writeBytes m s.dstAddr.toNat bytes, runCommand_ok (s := { s with mem := m }) hwin hbody',
        fun hs hm => ?_⟩
      rw [State.complete_mem, hmem]
      exact bytesAlike_writeBytes hs hm _ bytes

/-- Settles O12: a command writes one run of bytes or free draws inside its destination window, and its Body reads the
source window alone. -/
theorem memOnlyThroughWindows : Obligations.MemOnlyThroughWindows :=
  ⟨fun _ _ _ h _ ha => exec_read_outside h ha, fun _ _ _ _ hsrc h => exec_sameData hsrc h⟩

end Sys2Proof.Machine

/-! PROOF. The tree BUILD publishes is the one 10_state.md R57 describes (41_tree_builder.md R158): its slots, its
links, its one parent for each node but the root, and the weight of its root. -/

namespace Sys2Proof.Machine

/-! ## The length of the arena -/

/-- Each round appends one node and takes one item from the queue, until one is left (41_tree_builder.md R157). -/
theorem length_mergeLoop {fuel : Nat} {N : List Node} {Q : List Nat} (hfuel : Q.length ≤ fuel) :
    (mergeLoop fuel N Q).1.length = N.length + (Q.length - 1) := by
  induction fuel generalizing N Q with
  | zero =>
    rw [Nat.le_zero.1 hfuel]
    rfl
  | succ fuel ih =>
    match Q with
    | [] | [_] => rfl
    | q :: q' :: Q =>
      rw [mergeLoop_step]
      dsimp only
      have hlen : ((q :: q' :: Q).erase (minKey N q (q' :: Q))).length = Q.length + 1 :=
        List.length_erase_of_mem (minKey_mem N q (q' :: Q))
      obtain ⟨x, P, hrest⟩ := List.exists_cons_of_length_eq_add_one hlen
      rw [hrest, List.length_cons] at hlen
      rw [hrest, List.headD_cons, List.tail_cons]
      have hlen' := List.length_erase_of_mem (minKey_mem N x P)
      simp only [List.length_cons] at hfuel hlen' ⊢
      rw [ih (by simp only [List.length_append, List.length_singleton]; omega)]
      simp only [List.length_append, List.length_singleton]
      omega

/-- Past the root the arena is empty (10_state.md R57). -/
theorem buildTree_at_empty {f : Vector Word 256} (hpos : 0 < freqN f) {k : Nat} (hk : k < 511)
    (hpast : 2 * freqN f - 1 ≤ k) : (buildTree f).at k = .empty := by
  have hlen : (leaves f).length = freqN f := by rw [leaves, List.length_map, alphabet_length]
  rw [buildTree_at hk, List.getD_eq_default]
  rw [length_mergeLoop List.length_range.le, hlen, List.length_range]
  omega

/-! ## The merges as edges -/

section
variable {t : Tree} {n : Nat}

/-- A merge takes its children from the queue, where the nodes are older (41_tree_builder.md R157). -/
theorem MergesAt.inQueue_of_hasChild {i j : Nat} (h : MergesAt t n i) (hj : (t.at (n + i)).hasChild j = true) :
    InQueue t n i j := by
  obtain ⟨l, r, w, hnode, ⟨hl, -⟩, ⟨⟨hr, -⟩, -⟩, -⟩ := h
  simp only [hnode, Node.hasChild, Bool.or_eq_true, beq_iff_eq] at hj
  rcases hj with rfl | rfl
  · exact hl
  · exact hr

/-- A merge's node is linked to older nodes, whose weights it adds (10_state.md R57). -/
theorem MergesAt.linkedBelow {i : Nat} (h : MergesAt t n i) : (t.at (n + i)).linkedBelow t (n + i) = true := by
  obtain ⟨l, r, w, hnode, ⟨⟨hl, -⟩, -⟩, ⟨⟨⟨hr, -⟩, -⟩, -⟩, hw⟩ := h
  simp [hnode, Node.linkedBelow, hl, hr, hw]

theorem MergesAt.isInternal {i : Nat} (h : MergesAt t n i) : (t.at (n + i)).isInternal = true := by
  obtain ⟨l, r, w, hnode, -⟩ := h
  rw [hnode]
  rfl

variable (hmerges : ∀ i, i + 1 < n → MergesAt t n i)
include hmerges

/-- The last node made is in every later queue: no merge makes a node its own child. -/
theorem inQueue_last (hn : 0 < n) : InQueue t n (n - 1) (2 * n - 2) := by
  refine ⟨by omega, fun j hj => ?_⟩
  by_contra hchild
  have hlt := ((hmerges j (by omega)).inQueue_of_hasChild (Bool.eq_true_of_not_eq_false hchild)).1
  omega

/-- No two merges take the same item (41_tree_builder.md R157). -/
theorem merge_unique {i i' j : Nat} (hi : i + 1 < n) (hi' : i' + 1 < n) (hj : (t.at (n + i)).hasChild j = true)
    (hj' : (t.at (n + i')).hasChild j = true) : i = i' := by
  rcases lt_trichotomy i i' with hlt | heq | hlt
  · have := ((hmerges i' hi').inQueue_of_hasChild hj').2 i hlt
    cases hj.symm.trans this
  · exact heq
  · have := ((hmerges i hi).inQueue_of_hasChild hj).2 i' hlt
    cases hj'.symm.trans this

variable (hroot : ∀ q, InQueue t n (n - 1) q ↔ q = t.root.toNat)
include hroot

/-- ROOT_IDX is the last node made (41_tree_builder.md R158). -/
theorem root_eq_last (hn : 0 < n) : t.root.toNat = 2 * n - 2 :=
  ((hroot _).1 (inQueue_last hmerges hn)).symm

/-- Every node but the root is taken by a merge (41_tree_builder.md R157). -/
theorem exists_merge_of_ne_root {j : Nat} (hj : j < 2 * n - 2) :
    ∃ i, i + 1 < n ∧ (t.at (n + i)).hasChild j = true := by
  have hout : ¬ InQueue t n (n - 1) j := fun hin => by
    have := (hroot j).1 hin
    have := root_eq_last hmerges hroot (by omega)
    omega
  have hmerge : ∃ i < n - 1, (t.at (n + i)).hasChild j ≠ false := by
    by_contra hnone
    push Not at hnone
    exact hout ⟨by omega, hnone⟩
  obtain ⟨i, hi, hchild⟩ := hmerge
  exact ⟨i, by omega, Bool.eq_true_of_not_eq_false hchild⟩
end

/-! ## A predicate with one index -/

/-- Counting an index that alone satisfies a predicate gives 1. -/
theorem countP_range_eq_one {p : Nat → Bool} {m k : Nat} (hk : k < m) (hp : ∀ x < m, p x = true ↔ x = k) :
    (List.range m).countP p = 1 := by
  have hcongr : (List.range m).countP p = (List.range m).count k := by
    rw [List.count]
    exact List.countP_congr fun x hx => by simpa using hp x (List.mem_range.1 hx)
  rw [hcongr, List.nodup_range.count, if_pos (List.mem_range.2 hk)]

/-! ## The shape of BUILD's tree -/

section
variable {f : Vector Word 256} (hpos : 0 < freqN f) (hsum : freqSum f ≤ 2 ^ 32 - 1)
include hpos hsum

/-- A slot of the arena is a leaf, a merge's node, or empty (10_state.md R57). -/
theorem buildTree_slot {k : Nat} (hk : k < 511) :
    (k < freqN f ∧ ∃ s w, (buildTree f).at k = .leaf s w) ∨
    (∃ i, i + 1 < freqN f ∧ k = freqN f + i ∧ MergesAt (buildTree f) (freqN f) i) ∨
    (2 * freqN f - 1 ≤ k ∧ (buildTree f).at k = .empty) := by
  obtain ⟨hmerges, -⟩ := buildTree_merges hpos hsum
  rcases Nat.lt_or_ge k (freqN f) with hleaf | hge
  · exact .inl ⟨hleaf, _, _, buildTree_at_leafSym hleaf⟩
  obtain ⟨i, rfl⟩ := Nat.exists_eq_add_of_le hge
  rcases Nat.lt_or_ge (i + 1) (freqN f) with hi | hpast
  · exact .inr (.inl ⟨i, hi, rfl, hmerges i hi⟩)
  · exact .inr (.inr ⟨by omega, buildTree_at_empty hpos hk (by omega)⟩)

/-- Each node but the root has one parent (10_state.md R57). -/
theorem buildTree_one_parent {j : Nat} (hj : j < 2 * freqN f - 2) :
    (List.range 511).countP (fun k => ((buildTree f).at k).hasChild j) = 1 := by
  have hle := freqN_le f
  obtain ⟨hmerges, hroot⟩ := buildTree_merges hpos hsum
  obtain ⟨i, hi, hchild⟩ := exists_merge_of_ne_root hmerges hroot hj
  refine countP_range_eq_one (k := freqN f + i) (by omega) fun x hx => ⟨fun hxj => ?_, fun hx => hx ▸ hchild⟩
  rcases buildTree_slot hpos hsum hx with ⟨-, s, w, hslot⟩ | ⟨i', hi', rfl, -⟩ | ⟨-, hslot⟩
  · simp [hslot, Node.hasChild] at hxj
  · rw [merge_unique hmerges hi hi' hchild hxj]
  · simp [hslot, Node.hasChild] at hxj

/-- The tree BUILD publishes has the shape of R57 (41_tree_builder.md R158). -/
theorem buildTree_shape : TreeShape (buildTree f) (freqN f) := by
  have hle := freqN_le f
  obtain ⟨hmerges, hroot⟩ := buildTree_merges hpos hsum
  refine ⟨hpos, hle, fun k hk => ?_, fun k hk hlow hhigh => ?_, fun k hk hpast => buildTree_at_empty hpos hk hpast,
    ?_, root_eq_last hmerges hroot hpos, fun k hk => ?_, fun j hj => buildTree_one_parent hpos hsum hj⟩
  · rw [buildTree_at_leafSym hk]
    rfl
  · obtain ⟨i, rfl⟩ := Nat.exists_eq_add_of_le hlow
    exact (hmerges i (by omega)).isInternal
  · rw [buildTree, alphabet_length, BitVec.toNat_ofNat, Nat.mod_eq_of_lt (by omega)]
  · rcases buildTree_slot hpos hsum hk with ⟨-, s, w, hslot⟩ | ⟨i, -, rfl, hmerge⟩ | ⟨-, hslot⟩
    · rw [hslot]
      rfl
    · exact hmerge.linkedBelow
    · rw [hslot]
      rfl

/-- ROOT_WEIGHT is the root's weight (10_state.md R37). -/
theorem buildTree_weight_eq : (buildTree f).weight = ((buildTree f).at (buildTree f).root.toNat).weight := by
  have hle := freqN_le f
  obtain ⟨hmerges, hroot⟩ := buildTree_merges hpos hsum
  have hlast := root_eq_last hmerges hroot hpos
  have hhead := ((mergeLoopInv_start hsum).finish hle hpos List.length_range.le fun k hk => buildTree_at hk).2
  have heq := (hhead _).1 ((hroot _).2 rfl)
  rw [buildTree_at (by omega), heq, buildTree, alphabet_length, weightAt]

/-- A merge keeps the weight that is in the queue (41_tree_builder.md R157). -/
theorem sum_queue_weights {i : Nat} (hi : i < freqN f) :
    ∑ q ∈ queue (buildTree f) (freqN f) i, ((buildTree f).at q).weight.toNat = freqSum f := by
  obtain ⟨hmerges, -⟩ := buildTree_merges hpos hsum
  induction i with
  | zero =>
    rw [queue_zero, ← sum_leaf_weights f]
    rfl
  | succ i ih =>
    obtain ⟨l, r, w, hnode, ⟨hl, -⟩, ⟨⟨hr, hrl⟩, -⟩, hw⟩ := hmerges i hi
    have hfresh : freqN f + i ∉ queue (buildTree f) (freqN f) i := fun h => absurd (mem_queue.1 h).1 (lt_irrefl _)
    rw [queue_succ (fun j hj => hmerges j (by omega)) hnode (mem_queue.2 hl) (mem_queue.2 hr), ← ih (by omega)]
    exact sum_merged (mem_queue.2 hl) (mem_queue.2 hr) hrl hfresh _ _ (fun _ _ => rfl) (by rw [hnode]; exact hw)

/-- ROOT_WEIGHT is the sum of FREQ (41_tree_builder.md R158). -/
theorem buildTree_weight_toNat : (buildTree f).weight.toNat = freqSum f := by
  obtain ⟨-, hroot⟩ := buildTree_merges hpos hsum
  have hlast : queue (buildTree f) (freqN f) (freqN f - 1) = {(buildTree f).root.toNat} := by
    ext q
    rw [mem_queue, hroot, Finset.mem_singleton]
  have hweights := sum_queue_weights hpos hsum (i := freqN f - 1) (by omega)
  rwa [hlast, Finset.sum_singleton, ← buildTree_weight_eq hpos hsum] at hweights

/-- The leaves ascend in their symbols, and ROOT_WEIGHT is the root's (41_tree_builder.md R155, 10_state.md R37). -/
theorem buildTree_placed : TreePlaced (buildTree f) (freqN f) := by
  refine ⟨fun k hk => ?_, buildTree_weight_eq hpos hsum⟩
  have hsorted : (alphabet f).Pairwise fun s s' => s.toNat < s'.toNat := symbols_sorted.filter _
  rw [← alphabet_length] at hk
  rw [buildTree_at_leaf (by omega), buildTree_at_leaf (by omega)]
  exact List.pairwise_iff_getElem.1 hsorted _ _ _ _ (Nat.lt_succ_self k)

/-- BUILD of a table that is not empty and whose sum fits publishes its tree alone (41_tree_builder.md R151). -/
theorem exec_build_completes {s : State} (hs : s.freq = f) :
    exec .build s = .next (committed { s with tree := buildTree f, treeValid := true } .ok 0) := by
  have hbody : bodyOf .build s = .ok ({ s with tree := buildTree f, treeValid := true }, 0) := by
    rw [bodyOf, buildBody, hs, alphabet_length, if_neg (by omega), if_neg (by omega)]
  exact (exec_eq_runCommand .build s).trans (runCommand_ok (checkWindows_none_none s.memSize) hbody)
end

/-- Settles O17: the merges give the shape, the alphabet the leaves, and the queue's weight the root's. -/
theorem buildCompletes : Obligations.BuildCompletes := by
  rintro s n rfl hpos hsum
  refine ⟨buildTree s.freq, exec_build_completes hpos hsum rfl, buildTree_shape hpos hsum, buildTree_placed hpos hsum,
    buildTree_weight_toNat hpos hsum, fun k sym hk => ?_⟩
  obtain ⟨hlt, rfl⟩ := List.getElem?_eq_some_iff.1 (show (alphabet s.freq)[k]? = some sym from hk)
  exact buildTree_at_leaf hlt

/-! ## The tree invariant -/

/-- The leaf count of a tree of n leaves, read off NODE_COUNT. -/
theorem TreeShape.leafCount_eq {t : Tree} {n : Nat} (h : TreeShape t n) : t.leafCount = n := by
  obtain ⟨hpos, -, -, -, -, hcount, -⟩ := h
  rw [Tree.leafCount, hcount]
  omega

/-- The invariant speaks of the tree and TREE_VALID alone. -/
theorem TreeOk.congr {s t : State} (h : TreeOk s) (htree : t.tree = s.tree) (hvalid : t.treeValid = s.treeValid) :
    TreeOk t := by
  rw [TreeOk, htree, hvalid]
  exact h

theorem treeOk_cleared {s : State} (htree : s.tree = .cleared) (hvalid : s.treeValid = false) : TreeOk s :=
  ⟨fun h => absurd (h.symm.trans hvalid) nofun, fun _ => htree⟩

theorem treeOk_buildTree {s : State} {f : Vector Word 256} (hpos : 0 < freqN f) (hsum : freqSum f ≤ 2 ^ 32 - 1)
    (htree : s.tree = buildTree f) (hvalid : s.treeValid = true) : TreeOk s := by
  have hshape := buildTree_shape hpos hsum
  refine ⟨fun _ => ?_, fun h => absurd (h.symm.trans hvalid) nofun⟩
  rw [htree, hshape.leafCount_eq]
  exact ⟨hshape, buildTree_placed hpos hsum⟩

theorem Published.treeOk {i : Instr} {s u : State} {n : Word} (h : Published s i u n) (hs : TreeOk s) : TreeOk u := by
  cases h with
  | clear => exact treeOk_cleared rfl rfl
  | build hpos hsum => exact treeOk_buildTree hpos hsum rfl rfl
  | nop | count | derive | encode | decode | serialize | parse => exact hs.congr rfl rfl

/-- Every command keeps the tree invariant (10_state.md R57). -/
theorem exec_treeOk {i : Instr} {s t : State} (hs : TreeOk s) (h : exec i s = .next t) : TreeOk t := by
  rcases exec_cases h with ⟨e, -, rfl⟩ | ⟨-, -, rfl⟩ | ⟨-, -, e, -, rfl⟩ | ⟨-, -, u, n, hbody, rfl⟩
  · exact hs.congr rfl rfl
  · exact hs.congr rfl rfl
  · exact hs.congr (State.failData_tree _ _ _) (State.failData_treeValid _ _ _)
  · exact ((bodyOf_published hbody).treeOk hs).congr rfl rfl

/-- Settles O53: BUILD publishes a tree of R57, CLEAR and reset the empty one, and no other step changes the tree. -/
theorem stepKeepsTree : Obligations.StepKeepsTree := by
  intro s t hs h
  rcases step_engine_or_reset_or_same h with ⟨v, -, hexec⟩ | ⟨-, u, rfl⟩ | hsame
  · rcases execute_cases hexec with ⟨i, -, hi⟩ | rfl
    · exact exec_treeOk hs hi
    · exact hs.congr rfl rfl
  · exact treeOk_cleared rfl rfl
  · exact hs.congr hsame.tree hsame.treeValid

end Sys2Proof.Machine

/-! PROOF. The table DERIVE leaves (42_code_table.md R183): its entries are the root-to-leaf paths, one for each leaf
symbol, none the beginning of another, and they fill the tree. -/

namespace Sys2Proof.Machine

/-! ## The table that holds a list of entries, read back -/

theorem codeEntries_nodup (t : CodeTable) : (codeEntries t).Nodup := by
  rw [codeEntries_eq_tableLines, tableLines]
  exact (symbols_nodup.filter _).map fun _ _ heq => (Prod.mk.inj heq).1

/-- TABLE_N is the number of present entries (10_state.md R33, R60). -/
theorem tableN_eq_length_codeEntries (t : CodeTable) : tableN t = (codeEntries t).length := by
  rw [tableN_eq_length_filter, codeEntries_eq_tableLines, tableLines, List.length_map]

/-- A symbol has a code exactly when its code is not empty (10_state.md R60). -/
theorem symGet_len_ne_zero_iff {t : CodeTable} {s : Byte} : symGet t.len s ≠ 0 ↔ code t s ≠ [] := by
  rw [← not_iff_not, not_not, not_not, ← List.length_eq_zero_iff, code_length]
  exact ⟨fun h => by rw [h]; rfl, fun h => BitVec.eq_of_toNat_eq h⟩

/-- An entry's code has 1 to 255 bits (10_state.md R60). -/
theorem length_of_mem_codeEntries {t : CodeTable} {e : Byte × Bits} (he : e ∈ codeEntries t) :
    1 ≤ e.2.length ∧ e.2.length ≤ 255 := by
  obtain ⟨hlen, hcode⟩ := mem_codeEntries.1 he
  have hne := symGet_len_ne_zero_iff.1 hlen
  rw [← hcode] at hne
  refine ⟨List.length_pos_iff.2 hne, ?_⟩
  rw [hcode, code_length]
  exact Nat.le_of_lt_succ (symGet t.len e.1).isLt

/-- What a list of entries must be to be loaded as a code table: codes of 1 to 255 bits, no symbol twice. -/
structure Loadable (entries : List (Byte × Bits)) : Prop where
  length : ∀ e ∈ entries, 1 ≤ e.2.length ∧ e.2.length ≤ 255
  nodup : (entries.map Prod.fst).Nodup

section
variable {entries : List (Byte × Bits)} (h : Loadable entries)
include h

theorem Loadable.length_le : ∀ e ∈ entries, e.2.length ≤ 255 := fun e he => (h.length e he).2

/-- A symbol has one entry. -/
theorem Loadable.unique {s : Byte} {c c' : Bits} (hc : (s, c) ∈ entries) (hc' : (s, c') ∈ entries) : c = c' :=
  (Prod.mk.inj (List.inj_on_of_nodup_map h.nodup hc hc' rfl)).2

/-- The present entries of the table are the ones it was made of (42_code_table.md R180). -/
theorem Loadable.mem_codeEntries_tableOf {e : Byte × Bits} : e ∈ codeEntries (tableOf entries) ↔ e ∈ entries := by
  obtain ⟨s, c⟩ := e
  have hiff (hc : c ≠ []) : code (tableOf entries) s = c ↔ (s, c) ∈ entries :=
    code_tableOf_iff h.length_le (fun _ _ => h.unique) hc
  rw [mem_codeEntries, symGet_len_ne_zero_iff]
  constructor
  · rintro ⟨hne, hc⟩
    exact (hiff fun hnil => hne (hc.symm.trans hnil)).1 hc.symm
  · intro hmem
    have hc : c ≠ [] := List.length_pos_iff.1 (h.length _ hmem).1
    have hcode := (hiff hc).2 hmem
    exact ⟨hcode ▸ hc, hcode.symm⟩

/-- The present entries of the table are, in the order of their symbols, the ones it was made of. -/
theorem Loadable.codeEntries_perm : (codeEntries (tableOf entries)).Perm entries :=
  (List.perm_ext_iff_of_nodup (codeEntries_nodup _) h.nodup.of_map).2 fun _ => h.mem_codeEntries_tableOf

theorem Loadable.tableN_eq : tableN (tableOf entries) = entries.length := by
  rw [tableN_eq_length_codeEntries, h.codeEntries_perm.length_eq]

/-- A table of prefix-free entries is prefix-free (10_state.md R62). -/
theorem Loadable.prefixFree (hfree : PrefixFree entries) : PrefixFree (codeEntries (tableOf entries)) :=
  (h.codeEntries_perm.pairwise_iff fun hxy => hxy.symm).2 hfree

/-- A symbol has a code exactly when it has an entry (10_state.md R60). -/
theorem Loadable.symGet_len_ne_zero {s : Byte} : symGet (tableOf entries).len s ≠ 0 ↔ ∃ c, (s, c) ∈ entries := by
  constructor
  · intro hlen
    exact ⟨_, h.mem_codeEntries_tableOf.1 (mem_codeEntries_of_len hlen).1⟩
  · rintro ⟨c, hc⟩
    exact (mem_codeEntries.1 (h.mem_codeEntries_tableOf.2 hc)).1
end

/-! ## Paths from the root -/

section
variable {t : Tree} {n : Nat} (h : TreeShape t n)
include h

theorem TreeShape.root_toNat : t.root.toNat = 2 * n - 2 := by
  obtain ⟨-, -, -, -, -, -, hroot, -⟩ := h
  exact hroot

theorem TreeShape.bounds : 1 ≤ n ∧ n ≤ 256 := by
  obtain ⟨hpos, hle, -⟩ := h
  exact ⟨hpos, hle⟩

theorem TreeShape.exists_leaf {k : Nat} (hk : k < n) : ∃ s w, t.at k = .leaf s w := by
  obtain ⟨-, -, hleaf, -⟩ := h
  have hkind := hleaf k hk
  cases hnode : t.at k with
  | empty => simp [hnode, Node.isLeaf] at hkind
  | leaf s w => exact ⟨s, w, rfl⟩
  | internal l r w => simp [hnode, Node.isLeaf] at hkind

theorem TreeShape.exists_internal {k : Nat} (hlow : n ≤ k) (hhigh : k < 2 * n - 1) :
    ∃ l r w, t.at k = .internal l r w := by
  obtain ⟨i, hi⟩ := h.exists_child hlow hhigh false
  cases hnode : t.at k with
  | empty => simp [hnode, Node.child] at hi
  | leaf s w => simp [hnode, Node.child] at hi
  | internal l r w => exact ⟨l, r, w, rfl⟩

/-- Every node stands below the root: its parent does, at a greater index (10_state.md R57). -/
theorem TreeShape.exists_path {d j : Nat} (hd : j + d = 2 * n - 2) : ∃ p, t.follow t.root.toNat p = some j := by
  induction d using Nat.strongRecOn generalizing j with
  | ind d ih =>
    rcases Nat.eq_zero_or_pos d with rfl | hpos
    · exact ⟨[], by rw [Tree.follow_nil, h.root_toNat, ← hd]; rfl⟩
    · obtain ⟨k, b, hkb⟩ := h.exists_parent (j := j) (by omega)
      have hbounds := h.child_bounds hkb
      obtain ⟨p, hp⟩ := ih (2 * n - 2 - k) (by omega) (j := k) (by omega)
      exact ⟨p ++ [b], Tree.follow_append_singleton.2 ⟨k, hp, hkb⟩⟩

/-- The root is a leaf when it is the only node, and an internal node otherwise (10_state.md R57). -/
theorem TreeShape.root_cases : (n = 1 ∧ ∃ s w, t.at t.root.toNat = .leaf s w) ∨
    (2 ≤ n ∧ ∃ l r w, t.at t.root.toNat = .internal l r w) := by
  obtain ⟨hpos, -⟩ := h.bounds
  have hroot := h.root_toNat
  rcases Nat.lt_or_ge n 2 with hone | htwo
  · exact .inl ⟨by omega, h.exists_leaf (by omega)⟩
  · exact .inr ⟨htwo, h.exists_internal (by omega) (by omega)⟩
end

/-- A path to a leaf is the beginning of no other (42_code_table.md R183 (a)). -/
theorem pathTo_of_prefix {t : Tree} {k : Nat} {p q : Bits} {s s' : Byte} (hp : PathTo t k p s) (hq : PathTo t k q s')
    (hpre : p <+: q) : p = q ∧ s = s' := by
  induction p generalizing k q with
  | nil =>
    obtain ⟨w, hleaf⟩ := pathTo_nil.1 hp
    cases q with
    | nil =>
      obtain ⟨w', hleaf'⟩ := pathTo_nil.1 hq
      cases hleaf.symm.trans hleaf'
      exact ⟨rfl, rfl⟩
    | cons b q =>
      obtain ⟨i, hi, -⟩ := pathTo_cons.1 hq
      simp [hleaf, Node.child] at hi
  | cons b p ih =>
    obtain ⟨r, rfl⟩ := hpre
    obtain ⟨i, hi, hp'⟩ := pathTo_cons.1 hp
    obtain ⟨i', hi', hq'⟩ := pathTo_cons.1 hq
    cases hi.symm.trans hi'
    obtain ⟨heq, hs⟩ := ih hp' hq' (List.prefix_append p r)
    exact ⟨congrArg (b :: ·) heq, hs⟩

/-! ## The walk -/

/-- The walk records no entry twice: the two halves differ in the bit of their edge (42_code_table.md R180). -/
theorem walk_nodup (t : Tree) (fuel k : Nat) (path : Bits) : (walk t fuel k path).Nodup := by
  induction fuel generalizing k path with
  | zero => exact List.nodup_nil
  | succ fuel ih =>
    rw [walk]
    split
    · exact List.nodup_nil
    · exact List.nodup_singleton _
    · refine List.nodup_append.2 ⟨ih _ _, ih _ _, ?_⟩
      rintro ⟨s, bits⟩ hleft e' hright rfl
      obtain ⟨p, hp, -⟩ := mem_walk.1 hleft
      obtain ⟨q, hq, -⟩ := mem_walk.1 hright
      simp [hp] at hq

/-- The share of 2^255 an entry takes at its length (42_code_table.md R183 (e)). -/
def kraftShare (entries : List (Byte × Bits)) : Nat := (entries.map fun e => 2 ^ (255 - e.2.length)).sum

/-- The leaves under a node fill its share (42_code_table.md R183 (e)). -/
theorem TreeShape.kraftShare_walk {t : Tree} {n : Nat} (h : TreeShape t n) {fuel k : Nat} {path : Bits}
    (hk : k < 2 * n - 1) (hfuel : k + 1 - n < fuel) (hlen : path.length + (k + 1 - n) ≤ 255) :
    kraftShare (walk t fuel k path) = 2 ^ (255 - path.length) := by
  induction fuel generalizing k path with
  | zero => exact absurd hfuel (Nat.not_lt_zero _)
  | succ fuel ih =>
    rcases Nat.lt_or_ge k n with hleaf | hge
    · obtain ⟨s, w, hnode⟩ := h.exists_leaf hleaf
      simp [walk, hnode, kraftShare]
    · obtain ⟨l, r, w, hnode⟩ := h.exists_internal hge hk
      obtain ⟨-, -, hl⟩ := h.child_bounds (k := k) (b := false) (j := l.toNat) (by rw [hnode]; rfl)
      obtain ⟨-, -, hr⟩ := h.child_bounds (k := k) (b := true) (j := r.toNat) (by rw [hnode]; rfl)
      have hhalf {j : Nat} (hj : j < k) (b : Bool) :
          kraftShare (walk t fuel j (path ++ [b])) = 2 ^ (254 - path.length) := by
        have hpath : (path ++ [b]).length = path.length + 1 := by simp
        rw [ih (by omega) (by omega) (by omega), hpath]
        congr 1
        omega
      have hsplit : kraftShare (walk t (fuel + 1) k path) =
          kraftShare (walk t fuel l.toNat (path ++ [false])) + kraftShare (walk t fuel r.toNat (path ++ [true])) := by
        simp [walk, hnode, kraftShare]
      rw [hsplit, hhalf hl, hhalf hr, ← two_mul, ← pow_succ']
      congr 1
      omega

/-! ## The entries of a tree -/

/-- The symbol of the leaf at an index. -/
def symbolAt (t : Tree) (k : Nat) : Byte := BitVec.ofNat 8 (t.at k).symNat

theorem symbolAt_of_leaf {t : Tree} {k : Nat} {s : Byte} {w : Word} (h : t.at k = .leaf s w) : symbolAt t k = s := by
  rw [symbolAt, h, Node.symNat, BitVec.ofNat_toNat, BitVec.setWidth_eq]

section
variable {t : Tree} {n : Nat} (h : TreeShape t n)
include h

theorem TreeShape.derivedEntries_nodup : (derivedEntries t).Nodup := by
  rcases h.root_cases with ⟨-, s, w, hroot⟩ | ⟨-, l, r, w, hroot⟩
  · rw [derivedEntries_leaf hroot]
    exact List.nodup_singleton _
  · rw [derivedEntries_internal hroot]
    exact walk_nodup _ _ _ _

/-- The entries have codes of 1 to 255 bits (42_code_table.md R183 (c)). -/
theorem TreeShape.derivedEntries_length : ∀ e ∈ derivedEntries t, 1 ≤ e.2.length ∧ e.2.length ≤ 255 := by
  rintro ⟨s, bits⟩ he
  refine ⟨?_, derivedEntries_length_le h _ he⟩
  rcases h.root_cases with ⟨-, s', w, hroot⟩ | ⟨-, l, r, w, hroot⟩
  · rw [derivedEntries_leaf hroot, List.mem_singleton] at he
    cases he
    exact le_rfl
  · have hpath := (mem_derivedEntries h hroot).1 he
    refine List.length_pos_iff.2 ?_
    rintro rfl
    obtain ⟨w', hleaf⟩ := pathTo_nil.1 hpath
    cases hroot.symm.trans hleaf

/-- The symbols of the entries are the leaves' (42_code_table.md R183 (b)). -/
theorem TreeShape.exists_mem_derivedEntries {s : Byte} :
    (∃ bits, (s, bits) ∈ derivedEntries t) ↔ ∃ k w, k < n ∧ t.at k = .leaf s w := by
  rcases h.root_cases with ⟨rfl, s', w', hroot⟩ | ⟨-, l, r, w', hroot⟩
  · have hzero : t.root.toNat = 0 := h.root_toNat
    rw [derivedEntries_leaf hroot]
    rw [hzero] at hroot
    constructor
    · rintro ⟨bits, hmem⟩
      cases List.mem_singleton.1 hmem
      exact ⟨0, w', Nat.one_pos, hroot⟩
    · rintro ⟨k, w, hk, hleaf⟩
      obtain rfl := Nat.lt_one_iff.1 hk
      cases hroot.symm.trans hleaf
      exact ⟨_, List.mem_singleton_self _⟩
  · simp only [mem_derivedEntries h hroot, pathTo_iff_follow]
    constructor
    · rintro ⟨bits, j, w, -, hleaf⟩
      exact ⟨j, w, h.lt_of_leaf hleaf, hleaf⟩
    · rintro ⟨k, w, hk, hleaf⟩
      obtain ⟨p, hp⟩ := h.exists_path (j := k) (d := 2 * n - 2 - k) (by omega)
      exact ⟨p, k, w, hp, hleaf⟩

/-- Two entries of which one's code begins the other's are one entry (42_code_table.md R183 (a)). -/
theorem TreeShape.derivedEntries_eq_of_prefix {e f : Byte × Bits} (he : e ∈ derivedEntries t)
    (hf : f ∈ derivedEntries t) (hpre : e.2 <+: f.2) : e = f := by
  rcases h.root_cases with ⟨-, s, w, hroot⟩ | ⟨-, l, r, w, hroot⟩
  · rw [derivedEntries_leaf hroot] at he hf
    rw [List.mem_singleton.1 he, List.mem_singleton.1 hf]
  · have hp := (mem_derivedEntries h hroot).1 he
    have hq := (mem_derivedEntries h hroot).1 hf
    obtain ⟨hcode, hsym⟩ := pathTo_of_prefix hp hq hpre
    exact Prod.ext hsym hcode

/-- The entries are prefix-free (42_code_table.md R183 (a)). -/
theorem TreeShape.derivedEntries_prefixFree : PrefixFree (derivedEntries t) :=
  h.derivedEntries_nodup.pairwise_of_forall_ne fun _ he _ hf hne =>
    ⟨fun hpre => hne (h.derivedEntries_eq_of_prefix he hf hpre),
      fun hpre => hne (h.derivedEntries_eq_of_prefix hf he hpre).symm⟩

variable (hplaced : TreePlaced t n)
include hplaced

/-- A symbol has one entry, for it has one leaf and one path to it (42_code_table.md R181, R182). -/
theorem TreeShape.derivedEntries_unique {e f : Byte × Bits} (he : e ∈ derivedEntries t) (hf : f ∈ derivedEntries t)
    (hsym : e.1 = f.1) : e = f := by
  rcases h.root_cases with ⟨-, s, w, hroot⟩ | ⟨-, l, r, w, hroot⟩
  · rw [derivedEntries_leaf hroot] at he hf
    rw [List.mem_singleton.1 he, List.mem_singleton.1 hf]
  · have hp := (mem_derivedEntries h hroot).1 he
    have hq := (mem_derivedEntries h hroot).1 hf
    rw [← hsym] at hq
    exact Prod.ext hsym (h.pathTo_unique hplaced hp hq)

theorem TreeShape.derivedEntries_loadable : Loadable (derivedEntries t) :=
  ⟨h.derivedEntries_length, h.derivedEntries_nodup.map_on fun _ he _ hf => h.derivedEntries_unique hplaced he hf⟩

/-- There is one entry for each leaf (42_code_table.md R183 (b)). -/
theorem TreeShape.length_derivedEntries : (derivedEntries t).length = n := by
  have himage : ((derivedEntries t).map Prod.fst).toFinset = (Finset.range n).image (symbolAt t) := by
    ext s
    have hmem : s ∈ (derivedEntries t).map Prod.fst ↔ ∃ bits, (s, bits) ∈ derivedEntries t := by simp
    rw [List.mem_toFinset, hmem, h.exists_mem_derivedEntries]
    simp only [Finset.mem_image, Finset.mem_range]
    constructor
    · rintro ⟨k, w, hk, hleaf⟩
      exact ⟨k, hk, symbolAt_of_leaf hleaf⟩
    · rintro ⟨k, hk, rfl⟩
      obtain ⟨s, w, hleaf⟩ := h.exists_leaf hk
      exact ⟨k, w, hk, by rw [symbolAt_of_leaf hleaf, hleaf]⟩
  have hinj : Set.InjOn (symbolAt t) (Finset.range n) := fun k hk k' hk' hsym => by
    obtain ⟨s, w, hleaf⟩ := h.exists_leaf (Finset.mem_range.1 hk)
    obtain ⟨s', w', hleaf'⟩ := h.exists_leaf (Finset.mem_range.1 hk')
    rw [symbolAt_of_leaf hleaf, symbolAt_of_leaf hleaf'] at hsym
    exact h.leaf_injective hplaced hleaf (hsym ▸ hleaf')
  have hcard := congrArg Finset.card himage
  rwa [List.toFinset_card_of_nodup (h.derivedEntries_loadable hplaced).nodup, List.length_map,
    Finset.card_image_of_injOn hinj, Finset.card_range] at hcard
end

/-- With two leaves or more the entries fill the tree (42_code_table.md R183 (e)). -/
theorem TreeShape.kraftShare_derivedEntries {t : Tree} {n : Nat} (h : TreeShape t n) (hn : 2 ≤ n) :
    kraftShare (derivedEntries t) = 2 ^ 255 := by
  have hroot := h.root_toNat
  obtain ⟨-, hle⟩ := h.bounds
  rcases h.root_cases with ⟨rfl, -⟩ | ⟨-, l, r, w, hnode⟩
  · omega
  · rw [derivedEntries_internal hnode]
    exact h.kraftShare_walk (by omega) (by rw [Config.maxNodes]; omega) (by simp; omega)

theorem exec_derive_table {s t : State} (hvalid : s.treeValid = true) (h : exec .derive s = .next t) :
    t.table = tableOf (derivedEntries s.tree) := by
  rw [exec_derive_valid hvalid] at h
  cases h
  rfl

/-- Settles O21: the table's present entries are the tree's, which are prefix-free, one for each leaf, and fill it. -/
theorem deriveGuarantees : Obligations.DeriveGuarantees := by
  intro s t hvalid hok h
  obtain ⟨hshape, hplaced⟩ := hok.1 hvalid
  have hload := hshape.derivedEntries_loadable hplaced
  rw [exec_derive_table hvalid h]
  refine ⟨hload.prefixFree hshape.derivedEntries_prefixFree, ?_, fun sym => ?_, fun e => length_of_mem_codeEntries,
    fun s' t' hvalid' htree h' => ?_, fun hn => ?_, fun hn e he => ?_⟩
  · rw [hload.tableN_eq, hshape.length_derivedEntries hplaced]
  · rw [hload.symGet_len_ne_zero, hshape.exists_mem_derivedEntries]
  · rw [exec_derive_table hvalid' h', htree]
  · rw [(hload.codeEntries_perm.map _).sum_eq]
    exact hshape.kraftShare_derivedEntries hn
  · rw [hload.mem_codeEntries_tableOf] at he
    rcases hshape.root_cases with ⟨-, sym, w, hroot⟩ | ⟨htwo, -⟩
    · rw [derivedEntries_leaf hroot, List.mem_singleton] at he
      simp [he]
    · omega

end Sys2Proof.Machine

/-! PROOF. PARSE (44_persistence.md R250 to R253): the table part takes exactly the good lines before the sentinel, and
the first payload byte that fails decides the error. -/

namespace Sys2Proof.Machine

/-! ## The table part (R250) -/

/-- Two lines of one artifact do not clash: other ordinals, and neither code begins the other (44_persistence.md
R250). -/
def LinesApart (e f : Byte × Bits) : Prop := e.1 ≠ f.1 ∧ ¬ e.2 <+: f.2 ∧ ¬ f.2 <+: e.2

/-- Good lines, perhaps none: what LinesOk asks beside a line (44_persistence.md R250, R252). -/
structure GoodLines (E : List (Byte × Bits)) : Prop where
  length : ∀ e ∈ E, 1 ≤ e.2.length ∧ e.2.length ≤ 255
  apart : E.Pairwise LinesApart

theorem linesOk_iff {E : List (Byte × Bits)} : LinesOk E ↔ E ≠ [] ∧ GoodLines E :=
  ⟨fun ⟨hne, hlen, hapart⟩ => ⟨hne, hlen, hapart⟩, fun ⟨hne, hlen, hapart⟩ => ⟨hne, hlen, hapart⟩⟩

/-- Good lines can be loaded as a code table. -/
theorem GoodLines.loadable {E : List (Byte × Bits)} (h : GoodLines E) : Loadable E :=
  ⟨h.length, List.pairwise_map.2 (h.apart.imp fun hef => hef.1)⟩

theorem GoodLines.prefixFree {E : List (Byte × Bits)} (h : GoodLines E) : PrefixFree E :=
  h.apart.imp fun hef => hef.2

/-- A line goes with the lines before it unless it clashes with one of them (44_persistence.md R250). -/
theorem clashes_eq_false_iff {E : List (Byte × Bits)} {s : Byte} {c : Bits} :
    clashes E s c = false ↔ ∀ e ∈ E, LinesApart e (s, c) := by
  simp [clashes, LinesApart, and_assoc]

theorem goodLines_append_singleton {E : List (Byte × Bits)} {e : Byte × Bits} :
    GoodLines (E ++ [e]) ↔ GoodLines E ∧ (1 ≤ e.2.length ∧ e.2.length ≤ 255) ∧ ∀ x ∈ E, LinesApart x e := by
  constructor
  · rintro ⟨hlen, hapart⟩
    obtain ⟨hE, -, hcross⟩ := List.pairwise_append.1 hapart
    obtain ⟨hlenE, hlene⟩ := List.forall_mem_append.1 hlen
    exact ⟨⟨hlenE, hE⟩, hlene e (List.mem_singleton_self e), fun x hx => hcross x hx e (List.mem_singleton_self e)⟩
  · rintro ⟨⟨hlenE, hE⟩, hlene, hcross⟩
    refine ⟨List.forall_mem_append.2 ⟨hlenE, ?_⟩, List.pairwise_append.2 ⟨hE, List.pairwise_singleton _ _, ?_⟩⟩
    · simpa using hlene
    · simpa using hcross

/-- The text of a table: its lines and the sentinel (44_persistence.md R241). -/
def tableText (E : List (Byte × Bits)) : Text := E.flatMap lineText ++ sentinel

theorem tableText_cons (e : Byte × Bits) (E : List (Byte × Bits)) : tableText (e :: E) = lineText e ++ tableText E := by
  simp [tableText]

theorem artifactText_eq (E : List (Byte × Bits)) (payload : Bits) :
    artifactText E payload = tableText E ++ bitText payload := rfl

/-- A line begins with a digit, so it is not the sentinel. -/
theorem take_lineText_ne_sentinel (e : Byte × Bits) (A : Text) : (lineText e ++ A).take 4 ≠ sentinel := by
  have hspell := spellsDecimal_decimalText e.1.toNat
  obtain ⟨d, ds, hds⟩ := List.exists_cons_of_ne_nil hspell.nonempty
  have hd : isDigit d = true := hspell.digits d (hds ▸ List.mem_cons_self)
  rw [lineText, ordinalText_eq_decimalText, hds]
  intro heq
  have hhead : d = 0x3D := by
    simpa [sentinel] using congrArg List.head? heq
  subst hhead
  exact absurd hd (by decide)

/-- A line is read off the front of the text (44_persistence.md R252). -/
theorem parseLine_lineText {e : Byte × Bits} (he : 1 ≤ e.2.length ∧ e.2.length ≤ 255) (A : Text) :
    parseLine (lineText e ++ A) = .ok (e.1, e.2, A) :=
  (parseLineExact _ _ _ _).2 ⟨rfl, he⟩

/-- The table part reads good lines up to the sentinel (44_persistence.md R250). -/
theorem parseTable_tableText {fuel : Nat} {E acc : List (Byte × Bits)} (hgood : GoodLines (acc ++ E))
    (hfuel : E.length < fuel) (rest : Text) :
    parseTable fuel (tableText E ++ rest) acc = .ok (acc ++ E, rest) := by
  induction fuel generalizing E acc with
  | zero => exact absurd hfuel (Nat.not_lt_zero _)
  | succ fuel ih =>
    cases E with
    | nil =>
      rw [parseTable, if_pos (by rfl), List.append_nil]
      rfl
    | cons e E =>
      have hsplit : acc ++ e :: E = acc ++ [e] ++ E := by simp
      rw [hsplit] at hgood ⊢
      obtain ⟨hlen, hcross⟩ := List.forall_mem_append.1 hgood.length
      obtain ⟨-, he, hapart⟩ := goodLines_append_singleton.1
        (⟨hlen, (List.pairwise_append.1 hgood.apart).1⟩ : GoodLines (acc ++ [e]))
      rw [tableText_cons, List.append_assoc, parseTable, if_neg (take_lineText_ne_sentinel e _),
        parseLine_lineText he]
      dsimp only
      rw [if_neg (by simpa using clashes_eq_false_iff.2 hapart)]
      exact ih hgood (Nat.lt_of_succ_lt_succ hfuel)

/-- What the table part reads is good lines and the sentinel (44_persistence.md R250). -/
theorem parseTable_eq_ok {fuel : Nat} {A rest : Text} {E acc : List (Byte × Bits)} (hgood : GoodLines acc)
    (h : parseTable fuel A acc = .ok (E, rest)) :
    ∃ E', E = acc ++ E' ∧ GoodLines E ∧ A = tableText E' ++ rest := by
  induction fuel generalizing A acc with
  | zero => cases h
  | succ fuel ih =>
    rw [parseTable] at h
    split_ifs at h with hsentinel
    · cases h
      refine ⟨[], (List.append_nil _).symm, hgood, ?_⟩
      rw [tableText, ← hsentinel]
      exact (List.take_append_drop 4 A).symm
    · split at h
      next => cases h
      next s c after hline =>
        split_ifs at h with hclash
        obtain ⟨rfl, hmin, hmax⟩ := (parseLineExact _ _ _ _).1 hline
        have hapart := clashes_eq_false_iff.1 (Bool.eq_false_of_not_eq_true hclash)
        obtain ⟨E', rfl, hE, rfl⟩ := ih (goodLines_append_singleton.2 ⟨hgood, ⟨hmin, hmax⟩, hapart⟩) h
        exact ⟨(s, c) :: E', by simp, hE, by rw [tableText_cons, List.append_assoc]⟩

theorem goodLines_nil : GoodLines [] := ⟨nofun, List.Pairwise.nil⟩

/-- There are no more lines than bytes. -/
theorem length_le_length_tableText (E : List (Byte × Bits)) : E.length ≤ (tableText E).length := by
  induction E with
  | nil => exact Nat.zero_le _
  | cons e E ih =>
    rw [tableText_cons, List.length_append, List.length_cons, length_lineText]
    omega

/-- The table part of Body(PARSE) succeeds exactly on good lines and the sentinel (44_persistence.md R250). -/
theorem parseTable_eq_ok_iff {A rest : Text} {E : List (Byte × Bits)} :
    parseTable (A.length + 1) A [] = .ok (E, rest) ↔ GoodLines E ∧ A = tableText E ++ rest := by
  constructor
  · intro h
    obtain ⟨E', rfl, hgood, hA⟩ := parseTable_eq_ok goodLines_nil h
    exact ⟨hgood, hA⟩
  · rintro ⟨hgood, rfl⟩
    have hlines := length_le_length_tableText E
    exact parseTable_tableText (acc := []) hgood (by rw [List.length_append]; omega) rest

/-! ## The payload part (R250, R253) -/

theorem isBitChar_iff {x : Byte} : isBitChar x = true ↔ x = 0x30 ∨ x = 0x31 := by
  rw [isBitChar, Bool.or_eq_true, beq_iff_eq, beq_iff_eq, char0, char1]

/-- The payload part reads bit characters for as long as their bits fit (44_persistence.md R253). -/
theorem parsePayload_bitText {cap : Nat} {acc p : Bits} (hfit : p = [] ∨ ceil8 (acc ++ p).length ≤ cap) (rest : Text) :
    parsePayload cap acc (bitText p ++ rest) = parsePayload cap (acc ++ p) rest := by
  induction p generalizing acc with
  | nil =>
    rw [List.append_nil]
    rfl
  | cons b p ih =>
    have hall : ceil8 (acc ++ b :: p).length ≤ cap := hfit.resolve_left (List.cons_ne_nil b p)
    have hone : ceil8 (acc.length + 1) ≤ cap := (ceil8_mono (by simp)).trans hall
    obtain ⟨hchar, hbit⟩ : isBitChar (if b then 0x31 else 0x30) = true ∧
        ((if b then 0x31 else 0x30 : Byte) == char1) = b := by
      cases b <;> decide
    rw [List.append_cons] at hall ⊢
    rw [bitText, List.map_cons, List.cons_append, parsePayload, if_neg (by rw [hchar]; nofun),
      if_neg (by omega), hbit]
    exact ih (.inr hall)

/-- The payload part on the text of a payload that fits (44_persistence.md R253). -/
theorem parsePayload_bitText_ok {cap : Nat} {p : Bits} (hfit : ceil8 p.length ≤ cap) :
    parsePayload cap [] (bitText p) = .ok p := by
  simpa [parsePayload] using parsePayload_bitText (acc := []) (.inr hfit) []

/-- What the payload part reads is the text of its bits (44_persistence.md R253). -/
theorem eq_bitText_of_parsePayload {cap : Nat} {p : Bits} {A : Text} (h : parsePayload cap [] A = .ok p) :
    A = bitText p := by
  obtain ⟨hp, hchars, -⟩ := parsePayload_ok h
  exact (map_eq_iff_eq_bitText hchars).1 hp.symm

/-- A payload that cannot be too long is never too long (44_persistence.md R253). -/
theorem parsePayload_error_of_room {cap : Nat} {acc : Bits} {A : Text} {e : Err}
    (hroom : ceil8 (acc.length + A.length) ≤ cap) (h : parsePayload cap acc A = .error e) : e = .malformedArtifact := by
  induction A generalizing acc with
  | nil => cases h
  | cons c A ih =>
    rw [List.length_cons] at hroom
    have hone : ceil8 (acc.length + 1) ≤ cap := (ceil8_mono (by omega)).trans hroom
    rw [parsePayload] at h
    split_ifs at h with hchar hfull
    · cases h
      rfl
    · exact absurd hone (not_le.2 hfull)
    · exact ih (by simpa [Nat.add_assoc, Nat.add_comm 1] using hroom) h

/-! ## Body(PARSE) -/

section
variable {s : State}

theorem parseBody_table_error {e : Err} (h : parseTable (s.input.length + 1) s.input [] = .error e) :
    parseBody s = .error e := by
  rw [← State.srcBytes_eq_input] at h
  simp only [parseBody, h]

theorem parseBody_no_lines {payload : Text} (h : parseTable (s.input.length + 1) s.input [] = .ok ([], payload)) :
    parseBody s = .error .malformedArtifact := by
  rw [← State.srcBytes_eq_input] at h
  simp [parseBody, h]

theorem parseBody_payload_error {E : List (Byte × Bits)} {payload : Text} {e : Err} (hE : E ≠ [])
    (h : parseTable (s.input.length + 1) s.input [] = .ok (E, payload))
    (hpayload : parsePayload s.dstCap.toNat [] payload = .error e) : parseBody s = .error e := by
  rw [← State.srcBytes_eq_input] at h
  simp [parseBody, h, hE, hpayload]

theorem parseBody_ok {E : List (Byte × Bits)} {payload : Text} {bits : Bits} (hE : E ≠ [])
    (h : parseTable (s.input.length + 1) s.input [] = .ok (E, payload))
    (hpayload : parsePayload s.dstCap.toNat [] payload = .ok bits) :
    parseBody s = .ok ({ s with mem := s.writeDst (packedBytes bits), table := tableOf E, tableValid := true,
                                bitLen := BitVec.ofNat 32 bits.length }, BitVec.ofNat 32 (ceil8 bits.length)) := by
  rw [← State.srcBytes_eq_input] at h
  simp [parseBody, h, hE, hpayload]

/-- An error of Body(PARSE) is the command's (40_control.md R134). -/
theorem exec_parse_error (hfit : WindowsFit s .parse) {e : Err} (h : parseBody s = .error e) :
    ∃ t, exec .parse s = .next t ∧ t.err = e :=
  ⟨_, exec_failData (i := .parse) rfl hfit h, State.failData_err _ _ _⟩
end

/-! ## The obligations -/

/-- Settles O28: the table part reads the lines, the payload part the bits, and the table holds the lines' codes. -/
theorem parseCompletes : Obligations.ParseCompletes := by
  intro s E payload hm hfit hlines hinput hcap
  obtain ⟨hne, hgood⟩ := linesOk_iff.1 hlines
  have hload := hgood.loadable
  have hbody := parseBody_ok hne (parseTable_eq_ok_iff.2 ⟨hgood, hinput⟩) (parsePayload_bitText_ok hcap)
  refine ⟨s.writeDst (packedBytes payload), tableOf E, exec_committed (i := .parse) rfl hfit hbody, fun e he => ?_,
    fun x hx => ?_, noStrayBits_tableOf hload.length_le, payloadIs_writePacked hm _ _, ?_⟩
  · obtain ⟨-, hcode⟩ := mem_codeEntries.1 (hload.mem_codeEntries_tableOf.2 he)
    exact hcode.symm
  · by_contra hlen
    obtain ⟨c, hc⟩ := hload.symGet_len_ne_zero.1 hlen
    exact hx _ hc rfl
  · have hframe := sameMemOutside_writeBytes s.mem s.dstAddr.toNat (packedBytes payload)
    rwa [packedBytes_length] at hframe

/-- A text that does not begin with good lines and the sentinel ends PARSE in its table part (44_persistence.md
R250). -/
theorem parseBody_of_bad_table {s : State} (hbad : ¬ ∃ E rest, LinesOk E ∧ s.input = tableText E ++ rest) :
    parseBody s = .error .malformedArtifact := by
  cases htable : parseTable (s.input.length + 1) s.input [] with
  | error e =>
    obtain rfl := parseTable_error htable
    exact parseBody_table_error htable
  | ok r =>
    obtain ⟨E, payload⟩ := r
    rcases eq_or_ne E [] with rfl | hne
    · exact parseBody_no_lines htable
    · obtain ⟨hgood, hinput⟩ := parseTable_eq_ok_iff.1 htable
      exact absurd ⟨E, payload, linesOk_iff.2 ⟨hne, hgood⟩, hinput⟩ hbad

/-- With room for every payload, a text that is no artifact is malformed (44_persistence.md R250, R253). -/
theorem parseBody_of_bad_payload {s : State} {E : List (Byte × Bits)} {payload : Text} (hlines : LinesOk E)
    (hinput : s.input = tableText E ++ payload) (hroom : ceil8 s.srcLen.toNat ≤ s.dstCap.toNat)
    (hbad : ∀ bits, payload ≠ bitText bits) : parseBody s = .error .malformedArtifact := by
  obtain ⟨hne, hgood⟩ := linesOk_iff.1 hlines
  have htable := parseTable_eq_ok_iff.2 ⟨hgood, hinput⟩
  have hlen : payload.length ≤ s.srcLen.toNat := by
    have htotal : s.input.length = s.srcLen.toNat := by simp [State.input, bytesAt]
    rw [← htotal, hinput, List.length_append]
    exact Nat.le_add_left _ _
  cases hpayload : parsePayload s.dstCap.toNat [] payload with
  | error e =>
    obtain rfl := parsePayload_error_of_room (by simpa using (ceil8_mono hlen).trans hroom) hpayload
    exact parseBody_payload_error hne htable hpayload
  | ok bits => exact absurd (eq_bitText_of_parsePayload hpayload) (hbad bits)

/-- Settles O29: the table part fails on any other text, and with room the payload part fails with
MALFORMED_ARTIFACT only. -/
theorem parseRejects : Obligations.ParseRejects := by
  refine ⟨fun s hfit hbad => exec_parse_error hfit (parseBody_of_bad_table hbad), fun s hfit hroom hbad => ?_⟩
  refine exec_parse_error hfit ?_
  by_cases htable : ∃ E rest, LinesOk E ∧ s.input = tableText E ++ rest
  · obtain ⟨E, payload, hlines, hinput⟩ := htable
    refine parseBody_of_bad_payload hlines hinput hroom fun bits hbits => hbad ⟨E, bits, hlines, ?_⟩
    rw [hinput, hbits, artifactText_eq]
  · exact parseBody_of_bad_table htable

/-- Settles O30: the payload part reads the bits before the failing byte, which then decides. -/
theorem parsePayloadErrors : Obligations.ParsePayloadErrors := by
  intro s E pre x post hfit hlines hinput hcap
  obtain ⟨hne, hgood⟩ := linesOk_iff.1 hlines
  have htable : parseTable (s.input.length + 1) s.input [] = .ok (E, bitText pre ++ x :: post) :=
    parseTable_eq_ok_iff.2 ⟨hgood, by rw [hinput, artifactText_eq, List.append_assoc]⟩
  have hprefix := parsePayload_bitText (acc := []) (cap := s.dstCap.toNat) (.inr hcap) (x :: post)
  rw [List.nil_append] at hprefix
  obtain ⟨t, h⟩ := exec_next .parse s
  have herr : ∀ e, parsePayload s.dstCap.toNat pre (x :: post) = .error e → t.err = e := by
    intro e he
    obtain ⟨t', h', ht'⟩ := exec_parse_error hfit (parseBody_payload_error hne htable (hprefix.trans he))
    cases h.symm.trans h'
    exact ht'
  refine ⟨t, h, fun hzero hone => herr _ (if_pos ?_), fun hbit hfull => herr _ ?_⟩
  · exact Bool.eq_false_iff.2 fun hbit => (isBitChar_iff.1 hbit).elim hzero hone
  · rw [parsePayload, if_neg (by rw [isBitChar_iff.2 hbit]; nofun)]
    exact if_pos hfull

end Sys2Proof.Machine

/-! PROOF. What the commands give together: the table invariant (10_state.md R61, R62), DECODE of ENCODE's output
(43_codec.md), PARSE of SERIALIZE's (44_persistence.md R254), and COUNT, BUILD and DERIVE in a row
(70_reset_and_hazards.md R321). -/

namespace Sys2Proof.Machine

/-! ## The table invariant -/

/-- The invariant speaks of the table and TABLE_VALID alone. -/
theorem TableOk.congr {s t : State} (h : TableOk s) (htable : t.table = s.table)
    (hvalid : t.tableValid = s.tableValid) : TableOk t := by
  rw [TableOk, htable, hvalid]
  exact h

theorem tableOk_cleared {s : State} (htable : s.table = .cleared) (hvalid : s.tableValid = false) : TableOk s := by
  refine ⟨?_, fun h => absurd (h.symm.trans hvalid) nofun, fun _ => htable⟩
  rw [htable]
  exact noStrayBits_cleared

/-- A table made of prefix-free entries, at least one, meets the invariant (10_state.md R61, R62). -/
theorem tableOk_tableOf {s : State} {E : List (Byte × Bits)} (hload : Loadable E) (hfree : PrefixFree E)
    (hne : E ≠ []) (htable : s.table = tableOf E) (hvalid : s.tableValid = true) : TableOk s := by
  rw [TableOk, htable]
  refine ⟨noStrayBits_tableOf hload.length_le, fun _ => ⟨?_, hload.prefixFree hfree⟩,
    fun h => absurd (h.symm.trans hvalid) nofun⟩
  rw [hload.tableN_eq]
  exact List.length_pos_iff.2 hne

/-- The table DERIVE publishes for a tree of R57 meets the invariant (42_code_table.md R183). -/
theorem tableOk_derived {s : State} {t : Tree} {n : Nat} (h : TreeShape t n) (hplaced : TreePlaced t n)
    (htable : s.table = tableOf (derivedEntries t)) (hvalid : s.tableValid = true) : TableOk s := by
  refine tableOk_tableOf (h.derivedEntries_loadable hplaced) h.derivedEntries_prefixFree (fun hnil => ?_) htable hvalid
  have hlen := h.length_derivedEntries hplaced
  have hpos := h.bounds.1
  rw [hnil, List.length_nil] at hlen
  omega

theorem Published.tableOk {i : Instr} {s u : State} {n : Word} (h : Published s i u n)
    (hpre : precheckOf s i = none) (htree : TreeOk s) (hs : TableOk s) : TableOk u := by
  cases h with
  | clear => exact tableOk_cleared rfl rfl
  | derive =>
    obtain ⟨hshape, hplaced⟩ := htree.1 ((precheckOf_eq_none_iff.1 hpre).1 rfl)
    exact tableOk_derived hshape hplaced rfl rfl
  | parse E payload bits hparse hne hpayload =>
    obtain ⟨hgood, -⟩ := parseTable_eq_ok_iff.1 hparse
    exact tableOk_tableOf hgood.loadable hgood.prefixFree hne rfl rfl
  | nop | count | build | encode | decode | serialize => exact hs.congr rfl rfl

/-- Every command keeps the table invariant, when the tree invariant holds (10_state.md R61, R62). -/
theorem exec_tableOk {i : Instr} {s t : State} (htree : TreeOk s) (hs : TableOk s) (h : exec i s = .next t) :
    TableOk t := by
  rcases exec_cases h with ⟨e, -, rfl⟩ | ⟨-, -, rfl⟩ | ⟨-, -, e, -, rfl⟩ | ⟨hpre, -, u, n, hbody, rfl⟩
  · exact hs.congr rfl rfl
  · exact hs.congr rfl rfl
  · exact hs.congr (State.failData_table _ _ _) (State.failData_tableValid _ _ _)
  · exact ((bodyOf_published hbody).tableOk hpre htree hs).congr rfl rfl

/-- Settles O54: DERIVE publishes the table of a tree of R57, PARSE that of good lines, CLEAR and reset the empty one,
and no other step changes the table. -/
theorem stepKeepsTable : Obligations.StepKeepsTable := by
  intro s t htree hs h
  rcases step_engine_or_reset_or_same h with ⟨v, -, hexec⟩ | ⟨-, u, rfl⟩ | hsame
  · rcases execute_cases hexec with ⟨i, -, hi⟩ | rfl
    · exact exec_tableOk htree hs hi
    · exact hs.congr rfl rfl
  · exact tableOk_cleared rfl rfl
  · exact hs.congr hsame.table hsame.tableValid

/-! ## DECODE -/

/-- Settles O24: the loop decodes the codes and leaves the rest in the buffer, which the end of input accepts. -/
theorem decodeCompletes : Obligations.DecodeCompletes := by
  intro s out rest hm hvalid hfree hfit hbits hcode hrest hend hcap
  have hloop : decodeLoop (codeEntries s.table) s.dstCap.toNat [] [] s.srcBits = .ok (rest, out) := by
    rw [State.srcBits, hbits, decodeLoop_codesOf hfree hcode hcap, decodeLoop_leftover hrest]
    rfl
  have hbody : decodeBody s = .ok ({ s with mem := s.writeDst out }, BitVec.ofNat 32 out.length) := by
    rw [decodeBody, hloop]
    refine if_neg ?_
    rintro ⟨hne, hlegacy⟩
    rcases hend with hnil | htrunc
    · exact hne hnil
    · cases hlegacy.symm.trans htrunc
  exact ⟨s.writeDst out, exec_committed (i := .decode) (needTable_of_valid hvalid) hfit hbody,
    bytesAt_writeBytes hm _ out, sameMemOutside_writeBytes _ _ out⟩

/-! ## Windows of a second command -/

/-- What WindowsFit asks of a command with both windows (40_control.md R139). -/
theorem windowsFit_iff {s : State} {i : Instr} {w w' : Window} (hsrc : srcWindow s i = some w)
    (hdst : dstWindow s i = some w') :
    WindowsFit s i ↔ w.Valid s.memSize ∧ w'.Valid s.memSize ∧ ¬ w.Overlap w' := by
  simp only [WindowsFit, hsrc, hdst, Option.mem_some_iff, forall_eq']

/-- A shorter window at the same address is valid too (20_memory.md R82). -/
theorem Window.Valid.shorten {a len len' n : Nat} (h : Window.Valid ⟨a, len⟩ n) (hle : len' ≤ len) :
    Window.Valid ⟨a, len'⟩ n := by
  simp only [Window.Valid] at h ⊢
  omega

/-- A number below 2^32 is held by a register. -/
theorem toNat_ofNat_of_le_max {n : Nat} (h : n ≤ 2 ^ 32 - 1) : (BitVec.ofNat 32 n).toNat = n := by
  rw [BitVec.toNat_ofNat, Nat.mod_eq_of_lt (by omega)]

theorem ofNat_toNat_word (v : Word) : BitVec.ofNat 32 v.toNat = v := by
  rw [BitVec.ofNat_toNat, BitVec.setWidth_eq]

@[simp] theorem State.length_input (s : State) : s.input.length = s.srcLen.toNat := by
  simp [State.input, bytesAt]

/-- No code of a table begins the empty bit string (10_state.md R60). -/
theorem not_prefix_nil {t : CodeTable} : ∀ e ∈ codeEntries t, ¬ e.2 <+: [] := fun e he hpre => by
  have hlen := (length_of_mem_codeEntries he).1
  rw [List.prefix_nil.1 hpre] at hlen
  exact absurd hlen nofun

/-- The state with operands for the next command: its source window's base and length, and its destination window. -/
def State.withOperands (s : State) (src len dst cap : Word) : State :=
  { s with srcAddr := src, srcLen := len, dstAddr := dst, dstCap := cap }

/-! ## DECODE after ENCODE -/

/-- ENCODE leaves its output as a payload of BIT_LEN bits, in a canonical MEM, under the table it used (43_codec.md
R200). -/
theorem encode_leaves_payload {s : State} {bits : Bits} (hm : Memory.wf s.mem) (hvalid : s.tableValid = true)
    (hfit : WindowsFit s .encode) (hcode : ∀ x ∈ s.input, symGet s.table.len x ≠ 0)
    (hbits : bits = codesOf s.table s.input) (hmax : bits.length ≤ 2 ^ 32 - 1)
    (hcap : ceil8 bits.length ≤ s.dstCap.toNat) :
    ∃ t, exec .encode s = .next t ∧ t.err = .ok ∧ Memory.wf t.mem ∧ t.memSize = s.memSize ∧ t.table = s.table ∧
      t.tableValid = true ∧ t.bitLen.toNat = bits.length ∧
      payloadBits t.mem s.dstAddr.toNat bits.length = bits := by
  obtain ⟨m, h, ⟨hpayload, -⟩, -⟩ := encodeCompletes s bits hm hvalid hfit hcode hbits hmax hcap
  exact ⟨_, h, rfl, exec_wf hm h, rfl, rfl, hvalid, toNat_ofNat_of_le_max hmax, hpayload⟩

/-- DECODE of a payload that is the codes of a text gives the text (43_codec.md R210). -/
theorem decode_of_codes {s : State} {text : Text} (hm : Memory.wf s.mem) (hvalid : s.tableValid = true)
    (hfree : PrefixFree (codeEntries s.table)) (hfit : WindowsFit s .decode)
    (hbits : payloadBits s.mem s.srcAddr.toNat s.bitLen.toNat = codesOf s.table text)
    (hcode : ∀ x ∈ text, symGet s.table.len x ≠ 0) (hcap : text.length ≤ s.dstCap.toNat) :
    ∃ t, exec .decode s = .next t ∧ t.err = .ok ∧ t.outLen = BitVec.ofNat 32 text.length ∧
      bytesAt t.mem s.dstAddr.toNat text.length = text := by
  obtain ⟨m, h, hout, -⟩ := decodeCompletes s text [] hm hvalid hfree hfit (by rw [hbits, List.append_nil]) hcode
    not_prefix_nil (.inl rfl) hcap
  exact ⟨_, h, rfl, rfl, hout⟩

/-- Settles O57: ENCODE leaves the codes of the input as the payload, which DECODE reads with nothing left over. -/
theorem codecRoundTrip : Obligations.CodecRoundTrip := by
  rintro s bits dst cap hm hvalid ⟨-, htable, -⟩ hfit hcode hbits hmax hcap hdst hapart hroom
  obtain ⟨-, hfree⟩ := htable hvalid
  obtain ⟨t, hencode, herr, hm', hsize, htab, hvalid', hlen, hpayload⟩ :=
    encode_leaves_payload hm hvalid hfit hcode hbits hmax hcap
  obtain ⟨-, hout, -⟩ := (windowsFit_iff rfl rfl).1 hfit
  have hfit' : WindowsFit (t.withOperands s.dstAddr t.srcLen dst cap) .decode := by
    refine (windowsFit_iff rfl rfl).2 ?_
    simp only [State.withOperands, State.srcBitsWindow, State.dstBytesWindow, hlen, hsize]
    exact ⟨hout.shorten hcap, hdst, hapart⟩
  obtain ⟨u, hdecode, herr', houtLen, htext⟩ := decode_of_codes
    (s := t.withOperands s.dstAddr t.srcLen dst cap) (text := s.input) hm' hvalid'
    (by simpa only [State.withOperands, htab] using hfree) hfit'
    (by simpa only [State.withOperands, hlen, htab] using hpayload.trans hbits)
    (by simpa only [State.withOperands, htab] using hcode) (by simpa [State.withOperands] using hroom)
  rw [State.length_input] at houtLen htext
  exact ⟨t, u, hencode, herr, hdecode, herr', houtLen.trans (ofNat_toNat_word _), htext⟩

/-! ## PARSE after SERIALIZE -/

/-- Bit i of a code vector without stray bits is code bit i, and 0 past the code's end (10_state.md R61). -/
theorem getLsbD_vec {t : CodeTable} (ht : NoStrayBits t) (s : Byte) (i : Nat) :
    (symGet t.vec s).getLsbD i = (code t s).getD i false := by
  rcases Nat.lt_or_ge i (symGet t.len s).toNat with hlt | hge
  · rw [List.getD_eq_getElem _ _ (by rwa [code_length])]
    simp [code]
  · rw [List.getD_eq_default _ _ (by rwa [code_length])]
    have hstray := congrArg (BitVec.getLsbD · (i - (symGet t.len s).toNat)) (ht s (mem_symbols s))
    simpa [BitVec.getLsbD_ushiftRight, Nat.add_sub_cancel' hge] using hstray

/-- A table without stray bits is given by its codes (10_state.md R61). -/
theorem codeTable_ext {t u : CodeTable} (ht : NoStrayBits t) (hu : NoStrayBits u) (h : ∀ s, code t s = code u s) :
    t = u := by
  have hlen (s : Byte) : symGet t.len s = symGet u.len s := by
    have := congrArg List.length (h s)
    rw [code_length, code_length] at this
    exact BitVec.eq_of_toNat_eq this
  have hvec (s : Byte) : symGet t.vec s = symGet u.vec s := by
    refine BitVec.eq_of_getLsbD_eq fun i _ => ?_
    rw [getLsbD_vec ht, getLsbD_vec hu, h]
  cases t
  cases u
  exact congrArg₂ CodeTable.mk (symGet_ext hlen) (symGet_ext hvec)

/-- The lines of a valid table are ones PARSE accepts (44_persistence.md R254). -/
theorem linesOk_tableLines {t : CodeTable} (hne : 1 ≤ tableN t) (hfree : PrefixFree (codeEntries t)) :
    LinesOk (tableLines t) := by
  have hsyms : (tableLines t).Pairwise fun e f => e.1 ≠ f.1 :=
    List.pairwise_map.2 (symbols_nodup.filter _)
  rw [tableN_eq_length_codeEntries] at hne
  rw [codeEntries_eq_tableLines] at hne hfree
  refine ⟨List.length_pos_iff.1 hne, fun e he => ?_, hsyms.and hfree⟩
  rw [← codeEntries_eq_tableLines] at he
  exact length_of_mem_codeEntries he

theorem code_eq_nil_of_len {t : CodeTable} {s : Byte} (h : symGet t.len s = 0) : code t s = [] := by
  rw [← List.length_eq_zero_iff, code_length, h]
  rfl

/-- The table that gives each line its code and no other symbol one is the table of the lines (10_state.md R61). -/
theorem eq_of_codes_tableLines {t u : CodeTable} (ht : NoStrayBits t) (hu : NoStrayBits u)
    (hcodes : ∀ e ∈ tableLines t, code u e.1 = e.2)
    (hnone : ∀ x, (∀ e ∈ tableLines t, e.1 ≠ x) → symGet u.len x = 0) : u = t := by
  rw [← codeEntries_eq_tableLines] at hcodes hnone
  refine codeTable_ext hu ht fun x => ?_
  by_cases hx : symGet t.len x = 0
  · have hux : symGet u.len x = 0 := hnone x fun e he hex => (mem_codeEntries.1 he).1 (hex ▸ hx)
    rw [code_eq_nil_of_len hux, code_eq_nil_of_len hx]
  · exact hcodes (x, code t x) (mem_codeEntries_of_len hx).1

/-- SERIALIZE leaves the artifact of its table and payload, in a canonical MEM (44_persistence.md R240). -/
theorem serialize_leaves_artifact {s : State} {T : Text} (hm : Memory.wf s.mem) (hvalid : s.tableValid = true)
    (hfit : WindowsFit s .serialize)
    (hT : T = artifactText (tableLines s.table) (payloadBits s.mem s.srcAddr.toNat s.bitLen.toNat))
    (hcap : T.length ≤ s.dstCap.toNat) :
    ∃ t, exec .serialize s = .next t ∧ t.err = .ok ∧ Memory.wf t.mem ∧ t.memSize = s.memSize ∧
      t.outLen.toNat = T.length ∧ bytesAt t.mem s.dstAddr.toNat T.length = T := by
  obtain ⟨hok, -⟩ := serializeCompletes s T hm hvalid hfit hT
  obtain ⟨m, h, hbytes, -⟩ := hok hcap
  have hmax : T.length ≤ 2 ^ 32 - 1 := hcap.trans (Nat.le_pred_of_lt s.dstCap.isLt)
  exact ⟨_, h, rfl, exec_wf hm h, rfl, toNat_ofNat_of_le_max hmax, hbytes⟩

/-- PARSE of the artifact of a table's lines loads that table and the payload (44_persistence.md R250). -/
theorem parse_of_tableLines {s : State} {t : CodeTable} {payload : Bits} (hm : Memory.wf s.mem)
    (hfit : WindowsFit s .parse) (hstray : NoStrayBits t) (hne : 1 ≤ tableN t) (hfree : PrefixFree (codeEntries t))
    (hinput : s.input = artifactText (tableLines t) payload) (hcap : ceil8 payload.length ≤ s.dstCap.toNat) :
    ∃ u, exec .parse s = .next u ∧ u.err = .ok ∧ u.table = t ∧ u.bitLen = BitVec.ofNat 32 payload.length ∧
      PayloadIs u.mem s.dstAddr.toNat payload := by
  obtain ⟨m, C, h, hcodes, hnone, hstray', hbits, -⟩ :=
    parseCompletes s _ payload hm hfit (linesOk_tableLines hne hfree) hinput hcap
  exact ⟨_, h, rfl, eq_of_codes_tableLines hstray hstray' hcodes hnone, rfl, hbits⟩

/-- Settles O58: PARSE reads the lines and the payload that SERIALIZE wrote, and the lines' codes are the table. -/
theorem artifactRoundTrip : Obligations.ArtifactRoundTrip := by
  intro s T dst cap hm hvalid htable hfit hT hcap hdst hapart hroom
  obtain ⟨t, hserialize, herr, hm', hsize, hlen, hbytes⟩ := serialize_leaves_artifact hm hvalid hfit hT hcap
  obtain ⟨hstray, hok, -⟩ := htable
  obtain ⟨hne, hfree⟩ := hok hvalid
  obtain ⟨-, hout, -⟩ := (windowsFit_iff rfl rfl).1 hfit
  have hfit' : WindowsFit (t.withOperands s.dstAddr t.outLen dst cap) .parse := by
    refine (windowsFit_iff rfl rfl).2 ?_
    simp only [State.withOperands, State.srcBytesWindow, State.dstBytesWindow, hlen, hsize]
    exact ⟨hout.shorten hcap, hdst, hapart⟩
  obtain ⟨u, hparse, herr', htab, hbitLen, hpayload⟩ := parse_of_tableLines
    (s := t.withOperands s.dstAddr t.outLen dst cap)
    (payload := payloadBits s.mem s.srcAddr.toNat s.bitLen.toNat) hm' hfit' hstray hne hfree
    (by simpa only [State.input, State.withOperands, hlen] using hbytes.trans hT)
    (by simpa only [State.withOperands, payloadBits_length] using hroom)
  rw [payloadBits_length, ofNat_toNat_word] at hbitLen
  exact ⟨t, u, hserialize, herr, hparse, herr', htab, hbitLen, hpayload⟩

/-! ## COUNT, BUILD and DERIVE -/

/-- The counts of all symbols add up to the length of the input. -/
theorem sum_count_symbols (input : Text) : (symbols.map fun s => input.count s).sum = input.length := by
  rw [← List.sum_toFinset_count_eq_length, ← List.sum_toFinset _ symbols_nodup]
  refine (Finset.sum_subset (fun s _ => List.mem_toFinset.2 (mem_symbols s)) fun s _ hs => ?_).symm
  rwa [List.count_eq_zero, ← List.mem_toFinset]

/-- FREQ after COUNT sums to the length of the input (41_tree_builder.md R150). -/
theorem freqSum_countSymbols {input : Text} (h : input.length < 2 ^ 32) :
    freqSum (countSymbols input) = input.length := by
  rw [freqSum, ← map_symGet_symbols, List.map_map, ← sum_count_symbols]
  exact congrArg List.sum (List.map_congr_left fun s _ => toNat_symGet_countSymbols h s)

/-- A symbol has a count after COUNT exactly when it stands in the input (41_tree_builder.md R150). -/
theorem symGet_countSymbols_ne_zero {input : Text} (h : input.length < 2 ^ 32) {s : Byte} :
    symGet (countSymbols input) s ≠ 0 ↔ s ∈ input := by
  have hcount := toNat_symGet_countSymbols h s
  rw [← List.count_pos_iff, ← hcount, Nat.pos_iff_ne_zero, not_iff_not]
  exact ⟨fun hzero => by rw [hzero]; rfl, fun hzero => BitVec.eq_of_toNat_eq hzero⟩

/-- FREQ is not empty when some symbol has a count (10_state.md R32). -/
theorem freqN_pos {f : Vector Word 256} {s : Byte} (hs : symGet f s ≠ 0) : 0 < freqN f := by
  rw [← alphabet_length, Nat.pos_iff_ne_zero]
  exact fun hzero => hs (alphabet_length_eq_zero.1 hzero s)

/-- The leaves of BUILD's tree are the symbols with a count (41_tree_builder.md R155). -/
theorem exists_leaf_buildTree {f : Vector Word 256} {s : Byte} :
    (∃ k w, k < freqN f ∧ (buildTree f).at k = .leaf s w) ↔ symGet f s ≠ 0 := by
  have hmem : s ∈ alphabet f ↔ symGet f s ≠ 0 := by simp [alphabet]
  rw [← hmem, List.mem_iff_getElem, ← alphabet_length]
  constructor
  · rintro ⟨k, w, hk, hleaf⟩
    rw [buildTree_at_leaf hk] at hleaf
    exact ⟨k, hk, (Node.leaf.inj hleaf).1⟩
  · rintro ⟨k, hk, rfl⟩
    exact ⟨k, _, hk, buildTree_at_leaf hk⟩

/-- The table of BUILD's tree gives the symbols with a count a code, and no other (42_code_table.md R183 (b)). -/
theorem symGet_len_derived_buildTree {f : Vector Word 256} (hpos : 0 < freqN f) (hsum : freqSum f ≤ 2 ^ 32 - 1)
    {s : Byte} : symGet (tableOf (derivedEntries (buildTree f))).len s ≠ 0 ↔ symGet f s ≠ 0 := by
  have hshape := buildTree_shape hpos hsum
  rw [(hshape.derivedEntries_loadable (buildTree_placed hpos hsum)).symGet_len_ne_zero,
    hshape.exists_mem_derivedEntries, exists_leaf_buildTree]

/-- Settles O59: the input's length bounds the sum of its counts, so BUILD succeeds, and the leaves of its tree are the
symbols of the input. -/
theorem pipelineCodesItsInput : Obligations.PipelineCodesItsInput := by
  intro s hwindow hinput
  have hlen := s.input_length_lt
  obtain ⟨x, hx⟩ := List.exists_mem_of_ne_nil _ hinput
  have hpos : 0 < freqN (countSymbols s.input) := freqN_pos ((symGet_countSymbols_ne_zero hlen).2 hx)
  have hsum : freqSum (countSymbols s.input) ≤ 2 ^ 32 - 1 := by
    rw [freqSum_countSymbols hlen]
    omega
  have hcount : exec .count s = .next (committed { s with freq := countSymbols s.input } .ok 0) := by
    rw [← State.srcBytes_eq_input]
    exact (exec_eq_runCommand .count s).trans (runCommand_ok (checkWindows_source.2 hwindow) rfl)
  have hbuild := exec_build_completes hpos hsum
    (s := committed { s with freq := countSymbols s.input } .ok 0) rfl
  refine ⟨_, _, _, hcount, rfl, hbuild, rfl, exec_derive_valid rfl, rfl, treeOk_buildTree hpos hsum rfl rfl,
    tableOk_derived (buildTree_shape hpos hsum) (buildTree_placed hpos hsum) rfl rfl, fun y => ?_⟩
  exact (symGet_len_derived_buildTree hpos hsum).trans (symGet_countSymbols_ne_zero hlen)

end Sys2Proof.Machine

/-! PROOF. Command words and the operand forms (30_encoding.md R101 to R104, 10_state.md R20, 20_memory.md R82, R83):
the decoder against the encoder, the register map, and what the windows mean byte by byte. -/

namespace Sys2Proof

/-- A command word decodes to its command (30_encoding.md R103). -/
theorem decode_encode (i : Instr) : decode (encode i) = .ok i := by
  cases i <;> decide

/-- Settles O2: a word that decodes is its command's word, and that word decodes to the command. -/
theorem decodeOkIffEncoded : Obligations.DecodeOkIffEncoded :=
  fun _ i => ⟨eq_encode_of_decode_eq_ok, fun h => h ▸ decode_encode i⟩

/-- An OP of the map, with RSV = 0, makes a command word (30_encoding.md R103). -/
theorem exists_encode_of_fields {v : Word} (hrsv : v.toNat / 256 = 0)
    (hop : v.toNat % 256 ∈ [0x00, 0x01, 0x10, 0x11, 0x12, 0x20, 0x21, 0x30, 0x31]) : ∃ i, v = encode i := by
  have hopcodes : [0x00, 0x01, 0x10, 0x11, 0x12, 0x20, 0x21, 0x30, 0x31] =
      [Instr.nop, .clear, .count, .build, .derive, .encode, .decode, .serialize, .parse].map
        fun i => (encode i).toNat := by decide
  have hlow : v.toNat % 256 = v.toNat := by omega
  rw [hlow, hopcodes, List.mem_map] at hop
  obtain ⟨i, -, hi⟩ := hop
  exact ⟨i, BitVec.eq_of_toNat_eq hi.symm⟩

/-- Settles O3: a word with both fields good is a command word, which decodes; any other word does not. -/
theorem illegalWordsExactly : Obligations.IllegalWordsExactly := by
  refine fun v => ⟨fun ⟨e, he⟩ => ?_, Machine.decode_eq_error_of_fields⟩
  by_contra hgood
  rw [not_or, not_not, not_not] at hgood
  obtain ⟨i, rfl⟩ := exists_encode_of_fields hgood.1 hgood.2
  cases he.symm.trans (decode_encode i)

end Sys2Proof

namespace Sys2Proof.Machine

/-! ## The register map (10_state.md R20) -/

/-- The offset of CODE_LEN[s] names CODE_LEN[s] (10_state.md R20). -/
theorem regAt_codeLen (m : HighMap) (sym : Byte) : regAt m (0x800 + 4 * sym.toNat) = .codeLen sym := by
  have hlt : sym.toNat < 256 := sym.isLt
  have hidx : (0x800 + 4 * sym.toNat - 0x800) / 4 = sym.toNat := by omega
  unfold regAt
  repeat rw [if_neg (by omega)]
  rw [if_pos (by omega), hidx, BitVec.ofNat_toNat, BitVec.setWidth_eq]

theorem codeVecAt_offset (sym : Byte) (k : BitVec 3) :
    codeVecAt (0x1000 + 32 * sym.toNat + 4 * k.toNat) = .codeVec sym k := by
  have hk : k.toNat < 8 := k.isLt
  have hsym : (0x1000 + 32 * sym.toNat + 4 * k.toNat - 0x1000) / 32 = sym.toNat := by omega
  have hword : (0x1000 + 32 * sym.toNat + 4 * k.toNat - 0x1000) % 32 / 4 = k.toNat := by omega
  rw [codeVecAt, hsym, hword, BitVec.ofNat_toNat, BitVec.ofNat_toNat, BitVec.setWidth_eq, BitVec.setWidth_eq]

/-- The offset of CODE_VEC[s] word k names it below 0x2000, and above where the upper map is CODE_VEC's (10_state.md
R61; log 9). -/
theorem regAt_codeVec {m : HighMap} {sym : Byte} (h : sym.toNat < 128 ∨ m = .codeVec) (k : BitVec 3) :
    regAt m (0x1000 + 32 * sym.toNat + 4 * k.toNat) = .codeVec sym k := by
  have hk : k.toNat < 8 := k.isLt
  have hs : sym.toNat < 256 := sym.isLt
  rcases Nat.lt_or_ge sym.toNat 128 with hlow | hhigh
  · unfold regAt
    repeat rw [if_neg (by omega)]
    rw [if_pos (by omega), codeVecAt_offset]
  · rw [regAt_high m (by omega) (by omega), h.resolve_left (by omega)]
    exact codeVecAt_offset sym k

/-- The offset of NODE[k] word 0 names it where the upper map is NODE's (10_state.md R56; log 9). -/
theorem regAt_nodeWord0 {k : NodeIdx} (hk : k.toNat ≤ 510) : regAt .node (0x2000 + 8 * k.toNat) = .nodeWord0 k := by
  have hidx : (0x2000 + 8 * k.toNat - 0x2000) / 8 = k.toNat := by omega
  rw [regAt_high .node (by omega) (by omega), highRegAt, nodeAt, if_neg (by omega), if_pos (by omega), hidx,
    BitVec.ofNat_toNat, BitVec.setWidth_eq]

/-- The offset of NODE[k] word 1 names it where the upper map is NODE's (10_state.md R56; log 9). -/
theorem regAt_nodeWord1 {k : NodeIdx} (hk : k.toNat ≤ 510) : regAt .node (0x2004 + 8 * k.toNat) = .nodeWord1 k := by
  have hidx : (0x2004 + 8 * k.toNat - 0x2000) / 8 = k.toNat := by omega
  rw [regAt_high .node (by omega) (by omega), highRegAt, nodeAt, if_neg (by omega), if_neg (by omega), hidx,
    BitVec.ofNat_toNat, BitVec.setWidth_eq]

/-- Every offset of the map is aligned and inside REG (10_state.md R20). -/
theorem regAccessOk_regOffset {r : Reg} (hr : ∀ k, r = .nodeWord0 k ∨ r = .nodeWord1 k → k.toNat ≤ 510) :
    regAccessOk (regOffset r) 4 := by
  cases r with
  | freq s => exact regAccessOk_freq s
  | codeLen s =>
    have hs : s.toNat < 256 := s.isLt
    rw [regAccessOk, regOffset, Config.regSpace]
    omega
  | codeVec s k =>
    have hs : s.toNat < 256 := s.isLt
    have hk : k.toNat < 8 := k.isLt
    rw [regAccessOk, regOffset, Config.regSpace]
    omega
  | nodeWord0 k =>
    have hk := hr k (.inl rfl)
    rw [regAccessOk, regOffset, Config.regSpace]
    omega
  | nodeWord1 k =>
    have hk := hr k (.inr rfl)
    rw [regAccessOk, regOffset, Config.regSpace]
    omega
  | _ => decide

/-- Settles O4: each array's offsets name its elements, and the other registers have one offset each. -/
theorem registerMapUnambiguous : Obligations.RegisterMapUnambiguous := by
  intro m r hvec hnode
  refine ⟨?_, regAccessOk_regOffset fun k hk => (hnode k hk).1⟩
  cases r with
  | freq s => exact regAt_freq m s
  | codeLen s => exact regAt_codeLen m s
  | codeVec s k => exact regAt_codeVec (hvec s k rfl) k
  | nodeWord0 k =>
    obtain ⟨hk, rfl⟩ := hnode k (.inl rfl)
    exact regAt_nodeWord0 hk
  | nodeWord1 k =>
    obtain ⟨hk, rfl⟩ := hnode k (.inr rfl)
    exact regAt_nodeWord1 hk
  | _ => rfl

/-! ## Windows (20_memory.md R82, R83) -/

/-- A window is valid exactly when each of its bytes exists (20_memory.md R82). -/
theorem Window.valid_iff (w : Window) (n : Nat) : w.Valid n ↔ ∀ a, w.Contains a → a < n := by
  constructor
  · intro hvalid a ha
    rw [Window.Valid] at hvalid
    rw [Window.Contains] at ha
    omega
  · intro hbytes
    rcases Nat.eq_zero_or_pos w.len with hzero | hpos
    · exact .inl hzero
    · have hlast := hbytes (w.addr + (w.len - 1)) ⟨Nat.le_add_right _ _, by omega⟩
      exact .inr (by omega)

/-- Two windows overlap exactly when they share a byte (20_memory.md R83). -/
theorem Window.overlap_iff (v w : Window) : v.Overlap w ↔ ∃ a, v.Contains a ∧ w.Contains a := by
  simp only [Window.Overlap, Window.Contains]
  constructor
  · rintro ⟨-, -, hlt⟩
    exact ⟨max v.addr w.addr, by omega⟩
  · rintro ⟨a, hv, hw⟩
    omega

/-- Settles O7: the table of R82 row by row, and the two predicates by a byte of the window. -/
theorem windowsMeanTheirBytes : Obligations.WindowsMeanTheirBytes := by
  refine ⟨fun s => ⟨rfl, rfl, rfl, rfl, rfl, ?_, ?_, ?_⟩, Window.valid_iff, Window.overlap_iff⟩ <;> intro i hi <;>
    simp only [List.mem_cons, List.not_mem_nil, or_false] at hi
  · rcases hi with rfl | rfl | rfl | rfl <;> rfl
  · rcases hi with rfl | rfl | rfl | rfl <;> rfl
  · rcases hi with rfl | rfl | rfl | rfl | rfl <;> rfl

end Sys2Proof.Machine

/-! PROOF. The host's register accesses (10_state.md R20 to R40, R56, R61) and the reset signal
(70_reset_and_hazards.md R310, R311). -/

namespace Sys2Proof.Machine

/-! ## Reads -/

/-- A read of an aligned offset inside REG is recorded (10_state.md R20). -/
theorem hostStep_rd_eq {s : State} {off : Nat} (h : regAccessOk off 4) :
    hostStep s (.rd off 4) = .next (s.recordReg off (regAt s.highMap off)) :=
  if_pos h

theorem regAccessOk_iff {off : Nat} : regAccessOk off 4 ↔ off % 4 = 0 ∧ off < 0x4000 :=
  and_iff_right rfl

/-- A read of a register that gives its current value, given as some word (10_state.md R40). -/
theorem readGives {s : State} {off : Nat} {v : Word} (h : regAccessOk off 4)
    (hr : s.busy = false ∨ readsWhileBusy (regAt s.highMap off) = true) (hv : regValue s (regAt s.highMap off) = v) :
    ReadGives s off v :=
  hv ▸ hostStep_rd h hr

/-- The offsets R40 lists name registers that read their value at any time (10_state.md R40). -/
theorem readsWhileBusy_regAt (m : HighMap) {off : Nat}
    (h : off ∈ [0x000, 0x008, 0x00C, 0x010, 0x014, 0x018, 0x01C, 0x020, 0x024]) :
    readsWhileBusy (regAt m off) = true := by
  simp only [List.mem_cons, List.not_mem_nil, or_false] at h
  rcases h with rfl | rfl | rfl | rfl | rfl | rfl | rfl | rfl | rfl <;> rfl

theorem readsWhileBusy_of_mem {r : Reg}
    (h : r ∈ [Reg.id, .ctrl, .status, .err, .cmd, .srcAddr, .srcLen, .dstAddr, .dstCap]) :
    readsWhileBusy r = true := by
  simp only [List.mem_cons, List.not_mem_nil, or_false] at h
  rcases h with rfl | rfl | rfl | rfl | rfl | rfl | rfl | rfl | rfl <;> rfl

/-- Settles O35: a read is recorded with a value or a draw, and the value is the current one where R40 says so. -/
theorem registerReads : Obligations.RegisterReads := by
  refine ⟨fun s off halign hin => ?_, fun s r => ⟨fun h => hostStep_rdReg (h.imp_right readsWhileBusy_of_mem), ?_⟩⟩
  · have hacc := regAccessOk_iff.2 ⟨halign, hin⟩
    obtain ⟨v, d, hrec⟩ := s.recordReg_eq off (regAt s.highMap off)
    exact ⟨fun h => hostStep_rd hacc (h.imp_right (readsWhileBusy_regAt s.highMap)), v, d,
      hrec ▸ hostStep_rd_eq hacc⟩
  · obtain ⟨v, d, hrec⟩ := s.recordReg_eq (regOffset r) r
    exact ⟨v, d, congrArg Host.Outcome.next hrec⟩

/-- Settles O36: each offset names its register, whose value is the state's field. -/
theorem registerValues : Obligations.RegisterValues := by
  intro s
  refine ⟨readGives (by decide) (.inr rfl) rfl, readGives (by decide) (.inr rfl) rfl,
    readGives (by decide) (.inr rfl) rfl, readGives (by decide) (.inr rfl) (BitVec.ofNat_toNat _ _).symm,
    readGives (by decide) (.inr rfl) rfl, readGives (by decide) (.inr rfl) rfl, readGives (by decide) (.inr rfl) rfl,
    readGives (by decide) (.inr rfl) rfl, readGives (by decide) (.inr rfl) rfl, fun hb => ?_⟩
  refine ⟨readGives (by decide) (.inl hb) rfl, readGives (by decide) (.inl hb) rfl,
    readGives (by decide) (.inl hb) (BitVec.ofNat_toNat _ _).symm,
    readGives (by decide) (.inl hb) (BitVec.ofNat_toNat _ _).symm, readGives (by decide) (.inl hb) rfl,
    fun sym => ⟨readGives (regAccessOk_freq sym) (.inl hb) ?_, readGives ?_ (.inl hb) ?_⟩⟩
  · rw [regAt_freq, regValue]
  · exact regAccessOk_regOffset (r := .codeLen sym) (by simp)
  · rw [regAt_codeLen, regValue, BitVec.ofNat_toNat]

/-! ## Writes -/

/-- Settles O37: the write of an operand register while BUSY = 0 is not lost. -/
theorem operandWritesStore : Obligations.OperandWritesStore := by
  intro s v hb
  have hwrite {off : Nat} (hacc : regAccessOk off 4) {t : State}
      (ht : writeReg s (regAt s.highMap off) v = s.guardedWrite t) : hostStep s (.wr off 4 v) = .next t := by
    rw [hostStep_wr hacc, ht, State.guardedWrite_of_idle hb]
  exact ⟨hwrite (by decide) rfl, hwrite (by decide) rfl, hwrite (by decide) rfl, hwrite (by decide) rfl,
    hwrite (by decide) rfl⟩

/-- The bits of a register value whose bits are given, 0 above them. -/
theorem getLsbD_ofNat_bitsToNat (bits : Bits) {j : Nat} (hj : j < 32) :
    (BitVec.ofNat 32 (bitsToNat bits)).getLsbD j = bits.getD j false := by
  rw [BitVec.getLsbD_ofNat, testBit_bitsToNat, decide_eq_true hj, Bool.true_and]

/-- CTRL, bit by bit (10_state.md R22). -/
theorem getLsbD_ctrlWord (s : State) {j : Nat} (hj : j < 32) :
    (ctrlWord s).getLsbD j = [s.legacyTrunc, s.irqEn].getD j false := by
  rw [← getLsbD_ofNat_bitsToNat _ hj]
  rfl

/-- STATUS, bit by bit (10_state.md R23). -/
theorem getLsbD_statusWord (s : State) {j : Nat} (hj : j < 32) :
    (statusWord s).getLsbD j = [s.busy, s.done, s.overrun, s.treeValid, s.tableValid].getD j false := by
  rw [← getLsbD_ofNat_bitsToNat _ hj, statusWord]
  congr 2
  simp only [bitsToNat]
  omega

/-- CTRL reads the two bits of the value written (10_state.md R22). -/
theorem ctrlWord_setCtrl (s : State) (v : Word) : ctrlWord (s.setCtrl v) = v &&& 3 := by
  refine BitVec.eq_of_getLsbD_eq fun j hj => ?_
  have hmask : (3 : Word).getLsbD j = [true, true].getD j false := getLsbD_ofNat_bitsToNat [true, true] hj
  rw [getLsbD_ctrlWord _ hj, BitVec.getLsbD_and, hmask]
  match j with
  | 0 | 1 => simp
  | j + 2 => simp

/-- STATUS loses the bits DONE and OVERRUN where a 1 is written (10_state.md R23). -/
theorem statusWord_ackStatus (s : State) (v : Word) :
    statusWord (s.ackStatus v) = statusWord s &&& ~~~ (v &&& 6) := by
  have hbusy : (s.ackStatus v).busy = s.busy := rfl
  refine BitVec.eq_of_getLsbD_eq fun j hj => ?_
  rw [BitVec.getLsbD_and, getLsbD_statusWord _ hj, getLsbD_statusWord _ hj]
  match j with
  | 0 | 1 | 2 | 3 | 4 => simp [hbusy]
  | j + 5 => simp

/-- Settles O39: the two bits of CTRL are stored and read back, and STATUS loses the bits that are acknowledged. -/
theorem ctrlAndStatusWrites : Obligations.CtrlAndStatusWrites := by
  refine ⟨fun s v hb => ⟨s.setCtrl v, ?_, rfl, ctrlWord_setCtrl s v⟩,
    fun s v => ⟨s.ackStatus v, hostStep_wr (by decide) v, rfl, statusWord_ackStatus s v⟩⟩
  exact (hostStep_wr (by decide) v).trans (congrArg Host.Outcome.next (State.guardedWrite_of_idle hb _))

/-- Settles O44: a CMD write that is not lost is the issue of its word. -/
theorem issueLatchesTheWord : Obligations.IssueLatchesTheWord := by
  intro s v hb
  exact ⟨s.issueFree v,
    (hostStep_wr (by decide) v).trans (congrArg Host.Outcome.next (State.guardedWrite_of_idle hb _)), rfl, rfl⟩

/-! ## Read-only and reserved offsets (10_state.md R38) -/

/-- A write of a register that is not guarded and not STATUS changes nothing, at any time (10_state.md R38). -/
theorem writeReg_of_readOnly {r : Reg} (hguard : r.isGuarded = false) (hstatus : r ≠ .status) (s : State) (v : Word) :
    writeReg s r v = s := by
  cases r with
  | cmd | ctrl | srcAddr | srcLen | dstAddr | dstCap | bitLen | freq => cases hguard
  | status => exact absurd rfl hstatus
  | _ => rfl

/-- The register is the one the map has at this offset, or the offset is reserved (10_state.md R20). -/
def FoundAt (off : Nat) (r : Reg) : Prop := r = .reserved ∨ regOffset r = off

theorem foundAt_codeVecAt {off : Nat} (halign : off % 4 = 0) (hlow : 0x1000 ≤ off) (hhigh : off < 0x3000) :
    FoundAt off (codeVecAt off) := by
  refine .inr ?_
  rw [codeVecAt, regOffset, BitVec.toNat_ofNat, BitVec.toNat_ofNat]
  omega

theorem foundAt_nodeAt {off : Nat} (halign : off % 4 = 0) (hlow : 0x2000 ≤ off) : FoundAt off (nodeAt off) := by
  rw [nodeAt]
  split_ifs with hpast heven
  · exact .inl rfl
  · refine .inr ?_
    rw [regOffset, BitVec.toNat_ofNat]
    omega
  · refine .inr ?_
    rw [regOffset, BitVec.toNat_ofNat]
    omega

theorem foundAt_highRegAt (m : HighMap) {off : Nat} (halign : off % 4 = 0) (hlow : 0x2000 ≤ off)
    (hhigh : off < 0x3000) : FoundAt off (highRegAt m off) := by
  cases m with
  | node => exact foundAt_nodeAt halign hlow
  | codeVec => exact foundAt_codeVecAt halign (by omega) hhigh

/-- Each aligned offset is that of the register found there, unless it is reserved (10_state.md R20). -/
theorem foundAt_regAt (m : HighMap) {off : Nat} (halign : off % 4 = 0) : FoundAt off (regAt m off) := by
  rw [regAt]
  iterate 17 refine iteInduction (motive := FoundAt off) (fun h => .inr h.symm) fun _ => ?_
  refine iteInduction (motive := FoundAt off) (fun h => .inr ?_) fun _ => ?_
  · rw [regOffset, BitVec.toNat_ofNat]
    omega
  refine iteInduction (motive := FoundAt off) (fun h => .inr ?_) fun _ => ?_
  · rw [regOffset, BitVec.toNat_ofNat]
    omega
  refine iteInduction (motive := FoundAt off) (fun h => foundAt_codeVecAt halign h.1 (by omega)) fun _ => ?_
  exact iteInduction (motive := FoundAt off) (fun h => foundAt_highRegAt m halign h.1 h.2) fun _ => .inl rfl

/-- An offset outside the writable ones names a register the host cannot write (10_state.md R38). -/
theorem FoundAt.readOnly {off : Nat} {r : Reg} (hr : FoundAt off r)
    (h : off ∉ [0x014, 0x008, 0x00C, 0x018, 0x01C, 0x020, 0x024, 0x028]) (hfreq : ¬ (0x400 ≤ off ∧ off < 0x800)) :
    r.isGuarded = false ∧ r ≠ .status := by
  rcases hr with rfl | rfl
  · exact ⟨rfl, nofun⟩
  · cases r with
    | cmd | ctrl | status | srcAddr | srcLen | dstAddr | dstCap | bitLen => simp [regOffset] at h
    | freq s =>
      have hs : s.toNat < 256 := s.isLt
      rw [regOffset] at hfreq
      omega
    | _ => exact ⟨rfl, nofun⟩

/-- ID stands at offset 0 and nowhere else (10_state.md R20). -/
theorem FoundAt.ne_id {off : Nat} {r : Reg} (hr : FoundAt off r) (h : off ≠ 0) : r ≠ .id := by
  rintro rfl
  rcases hr with hres | hoff
  · cases hres
  · exact h hoff.symm

/-- The offsets no row of R20 names are reserved (10_state.md R20). -/
theorem regAt_reserved (m : HighMap) {off : Nat}
    (h : off = 0x004 ∨ (0x048 ≤ off ∧ off < 0x400) ∨ (0xC00 ≤ off ∧ off < 0x1000) ∨ (0x3000 ≤ off ∧ off < 0x4000)) :
    regAt m off = .reserved := by
  rcases h with rfl | h | h | h
  · rfl
  all_goals
    unfold regAt
    repeat rw [if_neg (by omega)]

/-- The two words after NODE[510] are reserved where the upper map is NODE's (10_state.md R20; log 9). -/
theorem regAt_reserved_high {off : Nat} (h : 0x2FF8 ≤ off ∧ off < 0x3000) : regAt .node off = .reserved := by
  rw [regAt_high .node (by omega) h.2, highRegAt, nodeAt, if_pos h.1]

/-- Settles O40: the offset names a register that no write changes, or a reserved one, which reads 0. -/
theorem readOnlyAndReserved : Obligations.ReadOnlyAndReserved := by
  refine ⟨fun s off v halign hin hlist hfreq => ?_, fun s off halign hres => ?_⟩
  · obtain ⟨hguard, hstatus⟩ := (foundAt_regAt s.highMap halign).readOnly hlist hfreq
    rw [hostStep_wr (regAccessOk_iff.2 ⟨halign, hin⟩), writeReg_of_readOnly hguard hstatus]
  · have hreg : regAt s.highMap off = .reserved := by
      rcases hres with h | h | h | h | ⟨hmap, h⟩
      · exact regAt_reserved _ (.inl h)
      · exact regAt_reserved _ (.inr (.inl h))
      · exact regAt_reserved _ (.inr (.inr (.inl h)))
      · exact regAt_reserved _ (.inr (.inr (.inr h)))
      · rw [hmap]
        exact regAt_reserved_high h
    have hin : off < 0x4000 := by omega
    exact readGives (regAccessOk_iff.2 ⟨halign, hin⟩) (.inr (by rw [hreg]; rfl)) (by rw [hreg]; rfl)

/-- Settles O41: the access check of REG, and the bound check of MEM, come first. -/
theorem badHostAccessFaults : Obligations.BadHostAccessFaults := by
  refine ⟨fun s off size v hbad => ?_, fun s a v hout => ⟨if_pos hout, if_pos hout⟩⟩
  have hacc : ¬ regAccessOk off size := by
    rw [regAccessOk, Config.regSpace]
    omega
  exact ⟨if_neg hacc, if_neg hacc⟩

/-! ## The readback words of a node and of a code vector -/

/-- The two readback words of a slot, by name and by offset, are those of R56 (10_state.md R56). -/
theorem nodeWordsAre_word0_word1 (x : Node) : NodeWordsAre x x.word0 x.word1 := by
  cases x with
  | empty => exact ⟨rfl, rfl⟩
  | leaf sym w =>
    refine ⟨?_, rfl⟩
    have hsym : sym.toNat < 2 ^ 31 := sym.isLt.trans (by decide)
    rw [Node.word0, BitVec.toNat_or, BitVec.toNat_setWidth, Nat.mod_eq_of_lt (by omega)]
    exact (Nat.two_pow_add_eq_or_of_lt hsym 1).symm
  | internal l r w =>
    refine ⟨?_, rfl⟩
    have hl : l.toNat < 2 ^ 16 := l.isLt.trans (by decide)
    have hr : r.toNat < 2 ^ 9 := r.isLt
    have hlow : l.toNat + 2 ^ 16 * r.toNat < 2 ^ 30 := by omega
    have hword : (Node.internal l r w).word0.toNat = 2 ^ 30 * 1 ||| (2 ^ 16 * r.toNat ||| l.toNat) := by
      rw [Node.word0, BitVec.toNat_or, BitVec.toNat_or, BitVec.toNat_shiftLeft, BitVec.toNat_setWidth,
        BitVec.toNat_setWidth, Nat.mod_eq_of_lt (by omega : l.toNat < 2 ^ 32),
        Nat.mod_eq_of_lt (by omega : r.toNat < 2 ^ 32), Nat.shiftLeft_eq, Nat.mod_eq_of_lt (by omega), Nat.or_assoc,
        Nat.or_comm l.toNat, Nat.mul_comm r.toNat]
      rfl
    rw [hword, ← Nat.two_pow_add_eq_or_of_lt hl, ← Nat.two_pow_add_eq_or_of_lt (by omega)]
    omega

/-- Settles O48: the two words of the slot, which their offsets name where the upper map is NODE's. -/
theorem nodeReadback : Obligations.NodeReadback := by
  intro s k hb hk
  refine ⟨_, _, nodeWordsAre_word0_word1 _, hostStep_rdReg (.inl hb), hostStep_rdReg (.inl hb), fun hmap => ⟨?_, ?_⟩⟩
  · refine readGives (regAccessOk_regOffset (r := .nodeWord0 k) ?_) (.inl hb) (by rw [hmap, regAt_nodeWord0 hk]; rfl)
    rintro k' (h | h) <;> cases h
    exact hk
  · refine readGives (regAccessOk_regOffset (r := .nodeWord1 k) ?_) (.inl hb) (by rw [hmap, regAt_nodeWord1 hk]; rfl)
    rintro k' (h | h) <;> cases h
    exact hk

/-- Settles O49: word k holds the vector's bits from 32k on, and a vector without stray bits holds the code. -/
theorem codeVecReadback : Obligations.CodeVecReadback := by
  intro s sym k hb hstray
  refine ⟨_, hostStep_rdReg (.inl hb), fun hmap => ?_, fun j hj => ?_⟩
  · exact readGives (regAccessOk_regOffset (r := .codeVec sym k) (by simp)) (.inl hb) (by rw [regAt_codeVec hmap])
  · rw [regValue, BitVec.getLsbD_extractLsb', decide_eq_true hj, Bool.true_and, getLsbD_vec hstray]

/-! ## Reset -/

/-- No command in flight has no destination window. -/
theorem State.activeDst_of_idle {s : State} (h : s.busy = false) : s.activeDst = none := by
  have hidle : s.latched = none := by simpa [State.busy] using h
  rw [State.activeDst, hidle]

/-- Settles O45: the free draws of reset stay in the destination window of the command in flight. -/
theorem resetSignal : Obligations.ResetSignal := by
  intro s
  refine ⟨_, _, congrArg Host.Outcome.next s.resetSignal_eq, fun hb => ?_, fun a ha => s.scramble_read fun w hw => ?_⟩
  · rw [State.activeDst_of_idle hb, State.scramble_none]
  · obtain ⟨v, i, hv, hd, hi⟩ := State.activeDst_eq_some.1 hw
    exact ha v i w hv hd hi

theorem freqN_zeros : freqN (Vector.replicate 256 0) = 0 := by
  rw [freqN_eq_length_filter]
  simp

theorem tableN_cleared : tableN .cleared = 0 := by
  rw [tableN_eq_length_filter]
  simp

theorem maxLen_cleared : maxLen .cleared = 0 := by
  rcases maxLen_eq_zero_or_exists .cleared with hzero | ⟨s, hs⟩
  · exact hzero
  · rw [← hs, symGet_cleared_len]
    rfl

/-- After reset every register but ID reads 0 (70_reset_and_hazards.md R310). -/
theorem regValue_reset {r : Reg} (hr : r ≠ .id) : regValue State.reset r = 0 := by
  have hempty (k : Nat) : State.reset.tree.at k = .empty := Tree.at_cleared k
  cases r with
  | id => exact absurd rfl hr
  | freq sym => exact symGet_replicate 0 sym
  | codeLen sym => rw [regValue, State.reset, symGet_cleared_len]; rfl
  | codeVec sym k =>
    rw [regValue, State.reset, symGet_cleared_vec]
    simp
  | nodeWord0 k =>
    rw [regValue, hempty]
    rfl
  | nodeWord1 k =>
    rw [regValue, hempty]
    rfl
  | freqN => exact congrArg (BitVec.ofNat 32) freqN_zeros
  | tableN => exact congrArg (BitVec.ofNat 32) tableN_cleared
  | maxLen => exact congrArg (BitVec.ofNat 32) maxLen_cleared
  | _ => rfl

/-- Settles O46: after reset every offset but 0 names a register that reads 0. -/
theorem resetReads : Obligations.ResetReads := by
  intro off halign hin
  rw [hostStep_rd (regAccessOk_iff.2 ⟨halign, hin⟩) (.inl rfl)]
  split_ifs with hoff
  · subst hoff
    rfl
  · rw [regValue_reset ((foundAt_regAt _ halign).ne_id hoff)]
    rfl

end Sys2Proof.Machine
